-- ==== Sys2Proof/Word.lean ====
section
/-! DEFINITION. The words of the SRC: bytes, and the one shift every chain does. -/

namespace Sys2Proof

/-- One byte: an operation word (R80), an element of FRAME or LEDS (R60), the column input port (R40). -/
abbrev Byte := BitVec 8

end Sys2Proof
end

