-- ==== Sys2Proof/Config.lean ====
section
/-! DEFINITION. What the manual leaves to the integrator and to the environment: the parameters of R7, the inputs
of R40, and the free values. A constant declared `opaque` has no body: nothing can be proved of its value. -/

namespace Sys2Proof

/-- The parameters of 00_scope.md R7 that the source does not fix. "The model takes it as an argument": a record
of them stands in `State` and no step writes it (log 2). The fixed ones (15 rows, 16, 6 and 8 stages, 16 flush
bits, 16 frame bytes, 40 ticks) are constants of the definitions that use them, as R7 allows. -/
structure Params where
  /-- `BUS_ADDR`, OPEN. -/
  busAddr : BitVec 7
  /-- `F_CLK`, OPEN. DESIGN CHOICE (log 20): a whole number of Hz, 0 among them; R7 gives no type and no range. -/
  fClk : Nat
  /-- `PRESCALER`, OPEN, at least 1. -/
  prescaler : Nat
  /-- `TOP`, OPEN, below `2 ^ TIMER_WIDTH`. -/
  top : Nat
  /-- `TIMER_WIDTH`, OPEN. DESIGN CHOICE (log 20): any natural number, 0 among them (then R8 leaves `TOP = 0`). -/
  timerWidth : Nat
  /-- `T_PHASE`, default 1, at least 1. -/
  tPhase : Nat
  /-- `SETTLE`, default 0. -/
  settle : Nat
  /-- `COL_MSB_FIRST`, default true. -/
  colMsbFirst : Bool
  /-- `HARD_RESET_INACTIVE`, OPEN. -/
  hardResetInactive : Bool
  deriving DecidableEq, Repr, Inhabited

/-- The constraints of R7 and R8 on the parameters that are not fixed numbers (`BUS_ADDR ≤ 127` is in its type). -/
structure Params.Legal (p : Params) : Prop where
  prescaler_pos : 1 ≤ p.prescaler
  top_fits : p.top < 2 ^ p.timerWidth
  tPhase_pos : 1 ≤ p.tPhase

/-- The tick period in clk cycles, `P = PRESCALER × (TOP + 1)` (R9). -/
def Params.tickPeriod (p : Params) : Nat := p.prescaler * (p.top + 1)

/-- The tick period in seconds, `P / F_CLK` (R9, R202). With `F_CLK = 0`, which no rule rules out, this is 0 by Lean's
division: DESIGN CHOICE (log 20). -/
def Params.tickSeconds (p : Params) : ℚ := (p.tickPeriod : ℚ) / (p.fClk : ℚ)

/-- Stages of the chains whose value something other than a clock edge flips in a cycle: the "noise glitch" of
41_row_select_ring.md R127 (U2, "optional environment step"). A 1 flips the stage. U2 speaks of a chain bit; that the mask
reaches `ledr_latch` too, which R38 changes only on a strobe, is a DESIGN CHOICE (log 12). -/
structure Glitch where
  swr : BitVec 16
  ledr : BitVec 6
  ledrLatch : BitVec 6
  ledc : BitVec 8
  deriving DecidableEq, Repr, Inhabited

/-- No stage is disturbed. -/
def Glitch.none : Glitch := ⟨0, 0, 0, 0⟩

/-- The inputs of one clk cycle (10_state.md R40), as they stand at the edge that ends it, and the disturbance of
the chains in it (U2). `clk` itself is the cycle. -/
structure Input where
  /-- `rst_n`: `false` is 0, reset asserted. -/
  rstN : Bool
  colIn : Byte
  txReady : Bool
  txBusy : Bool
  ledWrEn : Bool
  ledWrAddr : BitVec 3
  ledWrData : Byte
  glitch : Glitch
  deriving DecidableEq, Repr, Inhabited

/-- The draws of the environment (R12 `draw`, R20, R40): the inputs of cycle `n` where nothing lays them down. -/
opaque Config.inputDraw : Nat → Input

/-- The inputs of cycle `n` past the end of a plan: every one of R40's inputs a free value (log 4), and no glitch, which
U2 lets a model leave out: DESIGN CHOICE (log 12), unsafe only for a claim about cycles that no plan reaches. -/
def Config.freeInput (n : Nat) : Input := { Config.inputDraw n with glitch := Glitch.none }

/-- `BUS_ADDR` of the machine of `State.reset` (OPEN, D17). -/
opaque Config.busAddr : BitVec 7

/-- `F_CLK` of the machine of `State.reset` (OPEN, D20). -/
opaque Config.fClk : Nat

/-- One less than `PRESCALER` of the machine of `State.reset` (OPEN, D20). -/
opaque Config.prescalerLessOne : Nat

/-- `TIMER_WIDTH` of the machine of `State.reset` (OPEN, D20). -/
opaque Config.timerWidth : Nat

/-- Any number, from which `Config.top` is cut to the timer's width. -/
opaque Config.topDraw : Nat

/-- `HARD_RESET_INACTIVE` of the machine of `State.reset` (OPEN, D25). -/
opaque Config.hardResetInactive : Bool

/-- `TOP` of the machine of `State.reset` (OPEN, D20): any value the constraint of R8 allows. -/
def Config.top : Nat := Config.topDraw % 2 ^ Config.timerWidth

/-- The parameters of the machine of `State.reset`: R7's defaults, and the OPEN ones free (log 3). -/
def Config.params : Params where
  busAddr := Config.busAddr
  fClk := Config.fClk
  prescaler := Config.prescalerLessOne + 1
  top := Config.top
  timerWidth := Config.timerWidth
  tPhase := 1
  settle := 0
  colMsbFirst := true
  hardResetInactive := Config.hardResetInactive

/-- The switch-row chain at power-on: "unspecified: each bit is a draw" (R36, U1; log 5). -/
opaque Config.powerOnSwr : BitVec 16

/-- The LED-row chain at power-on (R37, U1; log 5). -/
opaque Config.powerOnLedr : BitVec 6

/-- The LED-row latch at power-on (R38, U1; log 5). -/
opaque Config.powerOnLedrLatch : BitVec 6

/-- The LED-column chain at power-on (R39, U1; log 5). -/
opaque Config.powerOnLedc : BitVec 8

end Sys2Proof
end

