-- ==== Sys2Proof/Syntax.lean ====
section
/-! DEFINITION. The operations of the SRC as terms: one constructor for each row of spec/opcode_table.json. -/

namespace Sys2Proof

/-- The three shift-register chains (30_encoding.md R81). The reserved code `0b11` names none. -/
inductive Chain where
  /-- switch-row chain, 16 stages -/
  | swr
  /-- LED-row chain, 6 stages -/
  | ledr
  /-- LED-column chain, 8 stages -/
  | ledc
  deriving DecidableEq, Repr, Inhabited

/-- The fourteen operations (30_encoding.md R84). A level operand `v` is a line level, `true` = high (R82). -/
inductive Instr where
  | clkbit (ch : Chain) (v : Bool)
  | setdata (ch : Chain) (v : Bool)
  | latch
  | setoe (v : Bool)
  | sample (row : BitVec 4)
  | ringrst
  | timeron
  | refresh
  | scan
  | handoff
  | waittick
  | check
  | fbenter
  | fbstep
  deriving DecidableEq, Repr, Inhabited

/-- The mnemonic of an operation (R84). -/
def Instr.mnemonic : Instr → String
  | .clkbit _ _ => "CLKBIT"
  | .setdata _ _ => "SETDATA"
  | .latch => "LATCH"
  | .setoe _ => "SETOE"
  | .sample _ => "SAMPLE"
  | .ringrst => "RINGRST"
  | .timeron => "TIMERON"
  | .refresh => "REFRESH"
  | .scan => "SCAN"
  | .handoff => "HANDOFF"
  | .waittick => "WAITTICK"
  | .check => "CHECK"
  | .fbenter => "FBENTER"
  | .fbstep => "FBSTEP"

/-- A chain operand as the assembler writes it (R88). -/
def Chain.asm : Chain → String
  | .swr => "SWR"
  | .ledr => "LEDR"
  | .ledc => "LEDC"

/-- A level operand as the assembler writes it (R88). -/
def levelAsm (v : Bool) : String := if v then "1" else "0"

/-- One operation in the assembler's syntax: mnemonic, then its operands separated by a comma and a space, a row
in decimal (R13, R88). -/
def Instr.asm (i : Instr) : String :=
  match i with
  | .clkbit ch v => i.mnemonic ++ " " ++ ch.asm ++ ", " ++ levelAsm v
  | .setdata ch v => i.mnemonic ++ " " ++ ch.asm ++ ", " ++ levelAsm v
  | .setoe v => i.mnemonic ++ " " ++ levelAsm v
  | .sample row => i.mnemonic ++ " " ++ toString row.toNat
  | .latch => i.mnemonic
  | .ringrst => i.mnemonic
  | .timeron => i.mnemonic
  | .refresh => i.mnemonic
  | .scan => i.mnemonic
  | .handoff => i.mnemonic
  | .waittick => i.mnemonic
  | .check => i.mnemonic
  | .fbenter => i.mnemonic
  | .fbstep => i.mnemonic

end Sys2Proof
end

