-- ==== Sys2Proof/WellFormed.lean ====
section
/-! DEFINITION. Which terms of `Instr` are operations of the SRC. -/

namespace Sys2Proof

/-- Every field of every operation is in its range by its type, but for SAMPLE's row: "Values `0..14` are valid
and 15 is reserved" (30_encoding.md R83, R85). -/
def Instr.wellFormed : Instr → Bool
  | .clkbit _ _ => true
  | .setdata _ _ => true
  | .latch => true
  | .setoe _ => true
  | .sample row => decide (row.toNat < 15)
  | .ringrst => true
  | .timeron => true
  | .refresh => true
  | .scan => true
  | .handoff => true
  | .waittick => true
  | .check => true
  | .fbenter => true
  | .fbstep => true

end Sys2Proof
end

