-- ==== Sys2Proof/Decode.lean ====
section
/-! DEFINITION. The decoder, total on all 256 words (30_encoding.md R87), the encoder, the table of the opcode map
(R84) and the pseudo-operations (R89). -/

namespace Sys2Proof

/-- What a word decodes to: "`decode(w)` returns the operation of rule R84 with its fields, or `Reserved(w)`"
(R87). -/
inductive Decoded where
  | op (i : Instr)
  /-- A reserved word (R85): it has no meaning. -/
  | reserved (w : Byte)
  deriving DecidableEq, Repr

/-- `MAJ`, bits 7 to 4 (R80). -/
def majorOf (w : Byte) : BitVec 4 := w.extractLsb' 4 4

/-- Bits 3 to 0 (R80). -/
def minorOf (w : Byte) : BitVec 4 := w.extractLsb' 0 4

/-- The chain that `word[3:2]` names (R81); `0b11` names none. -/
def chainOf (code : BitVec 2) : Option Chain :=
  if code = 0b00#2 then some .swr
  else if code = 0b01#2 then some .ledr
  else if code = 0b10#2 then some .ledc
  else none

/-- Format CD: chain in bits 3 to 2, level in bit 1, bit 0 zero (R80, R85). -/
def decodeCD (mk : Chain → Bool → Instr) (w : Byte) : Decoded :=
  match chainOf (w.extractLsb' 2 2) with
  | some ch => if w.getLsbD 0 then .reserved w else .op (mk ch (w.getLsbD 1))
  | none => .reserved w

/-- Format V: level in bit 0, bits 3 to 1 zero (R80, R85). -/
def decodeV (mk : Bool → Instr) (w : Byte) : Decoded :=
  if w.extractLsb' 1 3 = 0#3 then .op (mk (w.getLsbD 0)) else .reserved w

/-- Format R: row in bits 3 to 0; 15 is reserved (R80, R83, R85). -/
def decodeR (mk : BitVec 4 → Instr) (w : Byte) : Decoded :=
  if minorOf w = 15#4 then .reserved w else .op (mk (minorOf w))

/-- Format N: bits 3 to 0 zero (R80, R85). -/
def decodeN (i : Instr) (w : Byte) : Decoded :=
  if minorOf w = 0#4 then .op i else .reserved w

/-- The decoder (R84, R85, R87). -/
def decode (w : Byte) : Decoded :=
  match (majorOf w).toNat with
  | 0x1 => decodeCD .clkbit w
  | 0x2 => decodeCD .setdata w
  | 0x3 => decodeN .latch w
  | 0x4 => decodeV .setoe w
  | 0x5 => decodeR .sample w
  | 0x6 => decodeN .ringrst w
  | 0x7 => decodeN .timeron w
  | 0x8 => decodeN .refresh w
  | 0x9 => decodeN .scan w
  | 0xA => decodeN .handoff w
  | 0xB => decodeN .waittick w
  | 0xC => decodeN .check w
  | 0xD => decodeN .fbenter w
  | 0xE => decodeN .fbstep w
  | _ => .reserved w

/-- The field `ch` of a chain (R81). -/
def chainCode : Chain → BitVec 2
  | .swr => 0b00#2
  | .ledr => 0b01#2
  | .ledc => 0b10#2

/-- A word of format CD (R80). -/
def encodeCD (maj : BitVec 4) (ch : Chain) (v : Bool) : Byte :=
  maj ++ chainCode ch ++ BitVec.ofBool v ++ 0#1

/-- The encoder: the word of an operation (R80 to R84). -/
def encode : Instr → Byte
  | .clkbit ch v => encodeCD 0x1#4 ch v
  | .setdata ch v => encodeCD 0x2#4 ch v
  | .latch => 0x3#4 ++ 0#4
  | .setoe v => 0x4#4 ++ 0#3 ++ BitVec.ofBool v
  | .sample row => 0x5#4 ++ row
  | .ringrst => 0x6#4 ++ 0#4
  | .timeron => 0x7#4 ++ 0#4
  | .refresh => 0x8#4 ++ 0#4
  | .scan => 0x9#4 ++ 0#4
  | .handoff => 0xA#4 ++ 0#4
  | .waittick => 0xB#4 ++ 0#4
  | .check => 0xC#4 ++ 0#4
  | .fbenter => 0xD#4 ++ 0#4
  | .fbstep => 0xE#4 ++ 0#4

/-- The valid words of the opcode map, row by row as R84's column "valid words" lists them. -/
def validWords : List Byte :=
  [0x10, 0x12, 0x14, 0x16, 0x18, 0x1A] ++ [0x20, 0x22, 0x24, 0x26, 0x28, 0x2A] ++ [0x30] ++ [0x40, 0x41] ++
  [0x50, 0x51, 0x52, 0x53, 0x54, 0x55, 0x56, 0x57, 0x58, 0x59, 0x5A, 0x5B, 0x5C, 0x5D, 0x5E] ++
  [0x60] ++ [0x70] ++ [0x80] ++ [0x90] ++ [0xA0] ++ [0xB0] ++ [0xC0] ++ [0xD0] ++ [0xE0]

/-- The instruction that the decoder reads from a table word of `nbits` bits. Words are one byte long (R80), so
the first byte is the whole word. -/
def decodeTableWord (nbits w : Nat) : Option Instr :=
  match decode (BitVec.ofNat 8 (w % 2 ^ nbits)) with
  | .op i => some i
  | .reserved _ => none

/-- `active(ch)`, the level that selects (R90). -/
def Chain.active : Chain → Bool
  | .swr => false
  | .ledr => true
  | .ledc => false

/-- `inactive(ch)`, the level that deselects, and for the LED-column chain the level that turns an LED off (R90,
D9). -/
def Chain.inactive (ch : Chain) : Bool := !ch.active

/-- The bit of `b` that the `k`-th bit clock of a column write sends: `b[7-k]` if `COL_MSB_FIRST`, else `b[k]`
(R89, D13). -/
def colBit (msbFirst : Bool) (b : Byte) (k : Nat) : Bool := b.getLsbD (if msbFirst then 7 - k else k)

/-- Pseudo-operation SWADV (R89). -/
def swadv : List Instr := [.clkbit .swr true]

/-- Pseudo-operation SWSEED (R89). -/
def swseed : List Instr := [.clkbit .swr false, .setdata .swr true]

/-- Pseudo-operation LEDADV (R89). -/
def ledadv : List Instr := [.clkbit .ledr false]

/-- Pseudo-operation LEDSEED (R89). -/
def ledseed : List Instr := [.clkbit .ledr true, .setdata .ledr false]

/-- Pseudo-operation COLWR (R89). -/
def colwr (msbFirst : Bool) (b : Byte) : List Instr :=
  (List.range 8).map fun k => .clkbit .ledc (colBit msbFirst b k)

/-- Pseudo-operation FLUSH: 16 bit clocks of the inactive level (R89). -/
def flush (ch : Chain) : List Instr := List.replicate 16 (.clkbit ch ch.inactive)

/-- The expansion of RINGRST in words: 53 primitive operations (41_row_select_ring.md R122). -/
def ringrstExpansion : List Instr :=
  [.setoe false] ++ flush .swr ++ flush .ledr ++ flush .ledc ++ swseed ++ ledseed

/-- The expansion of SCAN in words after its wait: 15 SAMPLE, 16 CLKBIT and 1 SETDATA (42_scan_refresh.md
R141). -/
def scanExpansion : List Instr :=
  ((List.range 15).flatMap fun r => .sample (BitVec.ofNat 4 r) :: swadv) ++ swseed

/-- The expansion of REFRESH in words, of the byte `b`; `last` says that `cur_row = 5` (42_scan_refresh.md
R143). -/
def refreshExpansion (msbFirst : Bool) (b : Byte) (last : Bool) : List Instr :=
  [.setoe false] ++ colwr msbFirst b ++ [.latch, .setoe true] ++ if last then ledseed else ledadv

/-- The expansion of FBENTER in words (43_scheduler.md R175). -/
def fbenterExpansion : List Instr := ringrstExpansion ++ [.latch, .setoe true]

end Sys2Proof
end

