-- ==== Sys2Proof/Machine/State.lean ====
section
/-! DEFINITION. The state of the SRC as plain data (10_state.md), the reasons a step can stop, and the state after
reset. -/

namespace Sys2Proof.Machine

/-- The mode register (R22, R212): the Deadline Monitor's two states. -/
inductive Mode where
  /-- `mode` = 0 -/
  | normal
  /-- `mode` = 1, "terminal, no exit" -/
  | fallback
  deriving DecidableEq, Repr, Inhabited

/-- The two pins of a chain (R32): its data line and its clock line. -/
structure Line where
  data : Bool
  clk : Bool
  deriving DecidableEq, Repr, Inhabited

/-- One register write that the sequencer makes in a cycle. A cycle of an operation is the list of its writes
(R11: "Where two writes fall in one cycle, the rule says so"). -/
inductive Write where
  /-- a chain's data pin (R100, R101) -/
  | data (ch : Chain) (v : Bool)
  /-- a chain's clock pin (R100) -/
  | clk (ch : Chain) (v : Bool)
  /-- `ledr_lat` (R102) -/
  | lat (v : Bool)
  /-- `ledr_oe` (R103) -/
  | oe (v : Bool)
  /-- `frame[row+1] <- col_in` (R140) -/
  | capture (row : BitVec 4)
  /-- `frame[0] <- (BUS_ADDR, 0)` (R141) -/
  | header
  /-- `cur_row` (R122, R143) -/
  | curRow (r : BitVec 3)
  /-- `fb_cnt` (R175, R176) -/
  | fbCnt (n : BitVec 6)
  /-- `fb_pos` (R175, R176) -/
  | fbPos (p : BitVec 3)
  /-- TIMERON: enable, zero the counters, clear the flag (R172) -/
  | timerStart
  /-- WAITTICK's clear of the flag (R173) -/
  | consume
  /-- the exception entry of CHECK (R174, R209) -/
  | deadlineMiss
  /-- CHECK's write of `upc` when there is no miss (R174) -/
  | upc (a : BitVec 4)
  /-- the operation ends in this cycle: `upc` takes the ROM's successor (R171) -/
  | retire
  /-- CHECK ends in this cycle: it set `upc` itself (R171) -/
  | retireCheck
  deriving DecidableEq, Repr, Inhabited

/-- What the sequencer writes in one cycle; the empty list is a cycle that does nothing. -/
abbrev Micro := List Write

/-- Where operation words come from (R171): the microprogram ROM, or "a straight-line list of words with the same
operation rules (direct execution)". -/
inductive Source where
  | rom
  | direct (words : List Byte)
  deriving DecidableEq, Repr, Inhabited

/-- A storage space's contents (R60): index and byte, indices strictly rising, no entry that equals the space's
reset value at its index (`Space.unlisted`; log 6). -/
abbrev Memory := List Host.Cell

/-- The state of the SRC: block state (R21 to R35), chain state (R36 to R39), and the model's own fields. -/
@[ext]
structure State where
  /-- The parameters of R7. No step writes them (log 2). -/
  params : Params
  /-- `upc`, 4 bits (R21). -/
  upc : BitVec 4
  /-- Where operation words come from (R171; log 7). -/
  source : Source
  /-- The operation micro-state (R35): the cycles left of the operation in progress, empty at an operation's
  start (log 16). -/
  pending : List Micro
  /-- `mode` (R22). -/
  mode : Mode
  /-- `tick_flag` (R23). -/
  tickFlag : Bool
  /-- `timer_en` (R24). -/
  timerEn : Bool
  /-- `pre_cnt` (R25). -/
  preCnt : Nat
  /-- `tmr_cnt` (R26). -/
  tmrCnt : Nat
  /-- `cur_row`, 3 bits (R27). -/
  curRow : BitVec 3
  /-- `fb_cnt`, 6 bits (R28). -/
  fbCnt : BitVec 6
  /-- `fb_pos`, 3 bits (R29). -/
  fbPos : BitVec 3
  /-- The space FRAME (R30, R60). -/
  frame : Memory
  /-- The space LEDS, `led_state` (R31, R60). -/
  leds : Memory
  /-- `swr_data`, `swr_clk` (R32). -/
  swrLine : Line
  /-- `ledr_data`, `ledr_clk` (R32). -/
  ledrLine : Line
  /-- `ledc_data`, `ledc_clk` (R32). -/
  ledcLine : Line
  /-- `ledr_lat` (R32). -/
  ledrLat : Bool
  /-- `ledr_oe` (R32). -/
  ledrOe : Bool
  /-- `swr`, stage `i` at bit `i` (R36). -/
  swr : BitVec 16
  /-- `ledr` (R37). -/
  ledr : BitVec 6
  /-- `ledr_latch` (R38). -/
  ledrLatch : BitVec 6
  /-- `ledc` (R39). -/
  ledc : BitVec 8
  /-- The inputs laid down for cycles 0, 1, 2, …; past its end every input is a draw (R20, R40; log 4). No step writes it. -/
  plan : List Input
  /-- The number of the current clk cycle (log 4). -/
  now : Nat
  deriving DecidableEq, Repr, Inhabited

/-- Why the machine stops. -/
inductive Fault where
  /-- Raised by REFRESH when `cur_row` is 6 or 7: LEDS has no such element (R60), and "The values 6 and 7 are never
  reached" (R27). Safe: no run from reset meets it (log 11). -/
  | noSuchLedRow
  /-- Raised by a step in direct execution when the list of words is used up (R171). Safe: there is no word to run
  (log 7). -/
  | wordsUsedUp
  deriving DecidableEq, Repr, Inhabited

/-- Why there is no meaning for what stands at the sequencer. -/
inductive Refusal where
  /-- Raised by an arm of `exec` that has no meaning yet. Safe. -/
  | notModelled (mnemonic : String)
  /-- Raised by a step whose word is reserved: "A model refuses a reserved word" (R85, U7). Safe. -/
  | reservedWord (w : Byte)
  /-- Raised by a step with `upc` in 10..15: "`refuse`. No rule reaches them" (U8). Safe. -/
  | noRomWord (upc : BitVec 4)
  /-- Raised by SAMPLE with row 15, which only an ill-formed term has: its word is reserved (R83, R85). Safe. -/
  | reservedRow
  deriving DecidableEq, Repr, Inhabited

/-- Right after reset (R47, R230): every block register at its reset value, the chains as the power-on left them
(U1), the ROM at its first operation. -/
def State.reset : State where
  params := Config.params
  upc := 0
  source := .rom
  pending := []
  mode := .normal
  tickFlag := false
  timerEn := false
  preCnt := 0
  tmrCnt := 0
  curRow := 0
  fbCnt := 0
  fbPos := 0
  frame := []
  leds := []
  swrLine := ⟨true, false⟩
  ledrLine := ⟨false, false⟩
  ledcLine := ⟨true, false⟩
  ledrLat := false
  ledrOe := false
  swr := Config.powerOnSwr
  ledr := Config.powerOnLedr
  ledrLatch := Config.powerOnLedrLatch
  ledc := Config.powerOnLedc
  plan := []
  now := 0

end Sys2Proof.Machine
end

