-- ==== Sys2Proof/Machine/Operands.lean ====
section
/-! DEFINITION. The operand forms: a chain's pins, its stages and the shift they make, the parameters an operation
reads, and the inputs of a cycle. -/

namespace Sys2Proof.Machine

/-- The pins of a chain (40_shift_register_link.md, `data(ch)` and `clk(ch)`). -/
def State.line (s : State) : Chain → Line
  | .swr => s.swrLine
  | .ledr => s.ledrLine
  | .ledc => s.ledcLine

/-- Drive the pins of one chain. -/
def State.setLine (s : State) (ch : Chain) (l : Line) : State :=
  match ch with
  | .swr => { s with swrLine := l }
  | .ledr => { s with ledrLine := l }
  | .ledc => { s with ledcLine := l }

/-- Drive a chain's data pin (R101). -/
def State.setData (s : State) (ch : Chain) (v : Bool) : State := s.setLine ch { s.line ch with data := v }

/-- Drive a chain's clock pin (R100). -/
def State.setClk (s : State) (ch : Chain) (v : Bool) : State := s.setLine ch { s.line ch with clk := v }

/-- The shift of a chain of `n` stages: `((chain << 1) | v) mod 2^n`, stage `i` at bit `i` (R106). The bit pushed
out of the last stage is lost (R108). -/
def shiftIn {n : Nat} (stages : BitVec n) (v : Bool) : BitVec n := (stages <<< 1) ||| (BitVec.ofBool v).setWidth n

/-- Shift one chain once, the others untouched (R106: "a clock edge on one chain never shifts another"). -/
def State.shift (s : State) (ch : Chain) (v : Bool) : State :=
  match ch with
  | .swr => { s with swr := shiftIn s.swr v }
  | .ledr => { s with ledr := shiftIn s.ledr v }
  | .ledc => { s with ledc := shiftIn s.ledc v }

/-- The inputs of clk cycle `c`: as the plan lays them down, and free past its end (R40; log 4). -/
def State.inputAt (s : State) (c : Nat) : Input :=
  match s.plan[c]? with
  | some i => i
  | none => Config.freeInput c

/-- The inputs of the current cycle. -/
def State.input (s : State) : Input := s.inputAt s.now

/-- `s` with `rst_n` laid down as 1 for `n` cycles from the current one, and every other input of every cycle as it was. -/
def State.withoutReset (s : State) (n : Nat) : State :=
  { s with
    plan := (List.range (max s.plan.length (s.now + n))).map fun c =>
      if s.now ≤ c ∧ c < s.now + n then { s.inputAt c with rstN := true } else s.inputAt c }

/-- As many cycles as the longest operation takes without its waits (70_reset_and_hazards.md R242: SCAN `17 + 15S + 48T`,
FBENTER `4 + 152T`), or more. -/
def longestOperation (p : Params) : Nat := 17 + 15 * p.settle + 152 * p.tPhase

/-- The successor of a ROM address when its operation ends (43_scheduler.md R170). CHECK, at 6, sets `upc` itself;
10 to 15 hold no operation: both stay. -/
def romNext (a : BitVec 4) : BitVec 4 :=
  match a.toNat with
  | 0 => 1
  | 1 => 2
  | 2 => 3
  | 3 => 4
  | 4 => 5
  | 5 => 6
  | 7 => 8
  | 8 => 9
  | 9 => 8
  | _ => a

/-- The microprogram ROM (R170): words 60 70 B0 80 90 A0 C0 D0 B0 E0 at addresses 0 to 9, none above. -/
def romWord (a : BitVec 4) : Option Byte :=
  ([0x60, 0x70, 0xB0, 0x80, 0x90, 0xA0, 0xC0, 0xD0, 0xB0, 0xE0] : List Byte)[a.toNat]?

end Sys2Proof.Machine
end

