-- ==== Sys2Proof/Machine/Flags.lean ====
section
/-! DEFINITION. The periodic timer and the tick flag (60_exceptions.md R200 to R203), the SRC's only flag
computation (R45). -/

namespace Sys2Proof.Machine

/-- The width of `pre_cnt`: "the least number of bits that holds `PRESCALER − 1`, and at least 1" (R25). -/
def preWidth (p : Params) : Nat := Nat.log2 (p.prescaler - 1) + 1

/-- `tstep`: the timer counter makes a step in this cycle (R200). R200 gives it for cycles with `rst_n = 1`. That the signal
does not look at `rst_n`, and so has a value in a reset cycle too, is a DESIGN CHOICE (log 21); no reset cycle reads it. -/
def State.tstep (s : State) : Bool := s.timerEn && s.preCnt == s.params.prescaler - 1

/-- `ovf`: the timer overflows in this cycle (R201). In a reset cycle it follows `tstep`: DESIGN CHOICE (log 21). -/
def State.ovf (s : State) : Bool := s.tstep && s.tmrCnt == s.params.top

/-- The next `pre_cnt` (R200). It counts in its own width; in `0..PRESCALER−1` that never wraps (log 10). -/
def State.nextPre (s : State) : Nat :=
  if s.timerEn then if s.tstep then 0 else (s.preCnt + 1) % 2 ^ preWidth s.params else s.preCnt

/-- The next `tmr_cnt` (R201). It counts in TIMER_WIDTH bits: "never exceeds TOP, so never wraps" in `0..TOP` (log
10). -/
def State.nextTmr (s : State) : Nat :=
  if s.tstep then if s.ovf then 0 else (s.tmrCnt + 1) % 2 ^ s.params.timerWidth else s.tmrCnt

/-- The tick flag's update: `ovf OR (tick_flag AND NOT clr)`, set wins (R203). -/
def tickNext (flag ovf clr : Bool) : Bool := ovf || (flag && !clr)

/-- `clr` (R203): the cycle in which WAITTICK consumes the flag, or TIMERON's cycle. -/
def Write.clears : Write → Bool
  | .consume => true
  | .timerStart => true
  | _ => false

/-- The timer's cycle: its counters and the tick flag, with `clr` from the sequencer. -/
def State.timerCycle (s : State) (clr : Bool) : State :=
  { s with preCnt := s.nextPre, tmrCnt := s.nextTmr, tickFlag := tickNext s.tickFlag s.ovf clr }

end Sys2Proof.Machine
end

