-- ==== Sys2Proof/Machine/Ops.lean ====
section
/-! DEFINITION. The named operations over storage and registers; one clk cycle of the SRC and of its chains; the
run of an operation's cycles; reset; taking the exception; fetching a word. -/

namespace Sys2Proof.Machine

/-! ## The storage spaces (20_memory.md R60) -/

/-- The two storage spaces. -/
inductive Space where
  | frame
  | leds
  deriving DecidableEq, Repr, Inhabited

/-- How many elements a space has (R60). -/
def Space.size : Space → Nat
  | .frame => 16
  | .leds => 6

/-- The byte `frame[0]` holds: `{BUS_ADDR[6:0], 0b0}` (R30, R141). -/
def addressByte (p : Params) : Byte := p.busAddr ++ 0#1

/-- What an unlisted index of a space reads as: its reset value (R47; log 6). -/
def Space.unlisted (p : Params) : Space → Nat → Byte
  | .frame, 0 => addressByte p
  | .frame, _ => 0xFF
  | .leds, _ => 0xFF

/-- Read one byte of a contents list; `rest` says what an unlisted index holds. -/
def Memory.read (rest : Nat → Byte) (m : Memory) (a : Nat) : Byte :=
  match m with
  | [] => rest a
  | (b, v) :: m' => if b = a then v else Memory.read rest m' a

/-- Take the cell of an index out of a contents list. -/
def Memory.erase (m : Memory) (a : Nat) : Memory := m.filter fun c => c.1 != a

/-- Put a cell in its place in a contents list that rises and has no cell of that index. -/
def Memory.insert (m : Memory) (c : Host.Cell) : Memory :=
  match m with
  | [] => [c]
  | d :: m' => if c.1 < d.1 then c :: d :: m' else d :: Memory.insert m' c

/-- Write one byte, keeping the canonical form: a byte that the unlisted index holds anyway is not listed. -/
def Memory.write (rest : Nat → Byte) (m : Memory) (a : Nat) (v : Byte) : Memory :=
  if v = rest a then Memory.erase m a else Memory.insert (Memory.erase m a) (a, v)

/-- The canonical form: indices strictly rising, each below `size`, no entry equal to the unlisted value. -/
def Memory.wf (size : Nat) (rest : Nat → Byte) : Memory → Bool
  | [] => true
  | (a, v) :: m => decide (a < size) && decide (v ≠ rest a) && m.all (fun c => decide (a < c.1)) && Memory.wf size rest m

/-- A space's contents. -/
def State.space (s : State) : Space → Memory
  | .frame => s.frame
  | .leds => s.leds

/-- `MemRead(S, i, 1)` for an index of the space (R60). -/
def State.memRead (s : State) (sp : Space) (i : Nat) : Byte := Memory.read (sp.unlisted s.params) (s.space sp) i

/-- `MemWrite(S, i, 1, v)` (R60). An index that the space does not have is not written. -/
def State.memWrite (s : State) (sp : Space) (i : Nat) (v : Byte) : State :=
  if i < sp.size then
    match sp with
    | .frame => { s with frame := Memory.write (Space.unlisted s.params .frame) s.frame i v }
    | .leds => { s with leds := Memory.write (Space.unlisted s.params .leds) s.leds i v }
  else s

/-! ## Taking the exception (60_exceptions.md R209) -/

/-- The cause code of DeadlineMiss, the only exception. "Recorded: nothing but `mode = 1`": no register holds it
(R206). -/
def deadlineMissCause : Nat := 1

/-- `raise DeadlineMiss()`: `mode <- 1`, `upc <- 7`; nothing is saved and nothing else changes. There is no return
from it (R210). -/
def State.raiseDeadlineMiss (s : State) : State := { s with mode := .fallback, upc := 7 }

/-! ## One clk cycle -/

/-- In direct execution, the word that ran leaves the list; the ROM has no list (R171). -/
def Source.drop : Source → Source
  | .rom => .rom
  | .direct ws => .direct ws.tail

/-- The end of an operation other than CHECK (R171): `upc` takes the ROM's successor; in direct execution the list
moves on and `upc` stays. -/
def State.retire (s : State) : State :=
  match s.source with
  | .rom => { s with upc := romNext s.upc }
  | .direct ws => { s with source := .direct ws.tail }

/-- One register write of the sequencer, in a cycle whose inputs are `inp`. -/
def State.write (inp : Input) (s : State) : Write → State
  | .data ch v => s.setData ch v
  | .clk ch v => s.setClk ch v
  | .lat v => { s with ledrLat := v }
  | .oe v => { s with ledrOe := v }
  | .capture row => s.memWrite .frame (row.toNat + 1) inp.colIn
  | .header => s.memWrite .frame 0 (addressByte s.params)
  | .curRow r => { s with curRow := r }
  | .fbCnt n => { s with fbCnt := n }
  | .fbPos p => { s with fbPos := p }
  | .timerStart => { s with timerEn := true, preCnt := 0, tmrCnt := 0 }
  | .consume => s
  | .deadlineMiss => s.raiseDeadlineMiss
  | .upc a => { s with upc := a }
  | .retire => s.retire
  | .retireCheck => { s with source := s.source.drop }

/-- The LED write port's cycle (R68). -/
def State.ledPort (s : State) (inp : Input) : State :=
  { s with leds := if inp.ledWrEn then (s.memWrite .leds inp.ledWrAddr.toNat inp.ledWrData).leds else s.leds }

/-- A pin goes from low to high. -/
def rises (before after : Bool) : Bool := !before && after

/-- One chain's answer to a cycle: on a rising edge of its clock pin it shifts in the level of its data pin at that
edge (R106; log 14). `old` is the state before the edge. -/
def State.chainEdge (old s : State) (ch : Chain) : State :=
  if rises (old.line ch).clk (s.line ch).clk then s.shift ch (old.line ch).data else s

/-- The LED-row latch's answer: on a rising edge of `ledr_lat` it takes all six stages (R107). -/
def State.latchEdge (old s : State) : State :=
  if rises old.ledrLat s.ledrLat then { s with ledrLatch := old.ledr } else s

/-- The chains and the latch answer the pin edges of a cycle (R106, R107). -/
def State.edges (old s : State) : State :=
  State.latchEdge old (State.chainEdge old (State.chainEdge old (State.chainEdge old s .swr) .ledr) .ledc)

/-- The disturbance of the chains in a cycle (R127, U2). It flips `ledr_latch` too: DESIGN CHOICE (log 12), R38 and U2 leave
open whether a glitch reaches the latch. -/
def State.disturb (s : State) (g : Glitch) : State :=
  { s with swr := s.swr ^^^ g.swr, ledr := s.ledr ^^^ g.ledr, ledrLatch := s.ledrLatch ^^^ g.ledrLatch,
           ledc := s.ledc ^^^ g.ledc }

/-- What a cycle does without the sequencer: the timer, the LED write port, and the count of cycles. -/
def State.background (s : State) (clr : Bool) : State :=
  { (s.timerCycle clr).ledPort s.input with now := s.now + 1 }

/-- One clk cycle with `rst_n = 1` in which the sequencer makes the writes `m` (R69, R171). Every agent reads the
state before the edge; where the timer and TIMERON write one counter, TIMERON's write stands (R172; log 9). -/
def State.cycle (s : State) (m : Micro) : State :=
  (State.edges s (m.foldl (State.write s.input) (s.background (m.any Write.clears)))).disturb s.input.glitch

/-- The block registers at their reset values (R47), the rest as it is. -/
def State.resetBlock (s : State) : State :=
  { s with
    upc := 0, source := .rom, pending := [], mode := .normal, tickFlag := false, timerEn := false, preCnt := 0,
    tmrCnt := 0, curRow := 0, fbCnt := 0, fbPos := 0, frame := [], leds := [], swrLine := ⟨true, false⟩,
    ledrLine := ⟨false, false⟩, ledcLine := ⟨true, false⟩, ledrLat := false, ledrOe := false }

/-- One clk cycle with `rst_n = 0` (R230): nothing executes or counts, the LED write port writes nothing, and the
chains answer the pins, which only fall. -/
def State.resetCycle (s : State) : State :=
  { (State.edges s s.resetBlock).disturb s.input.glitch with now := s.now + 1 }

/-! ## Running an operation -/

/-- Run the cycles of an operation. A cycle with `rst_n = 0` aborts it (R230). -/
def State.runMicros (s : State) : List Micro → State
  | [] => s
  | m :: ms => if s.input.rstN then (s.cycle m).runMicros ms else s.resetCycle

/-- The start of an operation: its rule sets the micro-state up on entry, whatever it was (R35). -/
def State.opStart (s : State) : State := { s with pending := [] }

/-- Run an operation's cycles from its start. Its micro-state is used up at the end (R35). -/
def State.perform (s : State) (ms : List Micro) : State := s.opStart.runMicros ms

/-- `n` cycles in which the sequencer does nothing: the timer, the LED write port and the inputs go on. -/
def State.elapse (s : State) (n : Nat) : State := s.runMicros (List.replicate n [])

/-- The outcome of an operation whose cycles are known: it runs them to their end, or stops as they say. -/
def performed (s : State) : Host.Outcome (List Micro) Fault Refusal → Host.Outcome State Fault Refusal
  | .next ms => .next (s.perform ms)
  | .fault f => .fault f
  | .refused r => .refused r

/-! ## Cycles of the primitive operations, from which the others are composed -/

/-- One pin phase of `t` cycles: the writes in its first cycle, then `t - 1` cycles that do nothing (R100). -/
def phase (t : Nat) (m : Micro) : List Micro := m :: List.replicate (t - 1) []

/-- ClockBit(ch, v): data, clock low, clock high, one phase each (R100). A phase's write takes effect at the edge that ends the
phase's first cycle (R11), so the clock pin rises at the end of cycle `2t + 1` of `3t`: DEDUCED (log 8). -/
def clockBit (t : Nat) (ch : Chain) (v : Bool) : List Micro :=
  phase t [.data ch v] ++ phase t [.clk ch false] ++ phase t [.clk ch true]

/-- SetData(ch, v), 1 cycle (R101). -/
def setDataCycles (ch : Chain) (v : Bool) : List Micro := [[.data ch v]]

/-- The latch strobe: high for a phase, low for a phase (R102). -/
def latchStrobe (t : Nat) : List Micro := phase t [.lat true] ++ phase t [.lat false]

/-- `ledr_oe <- v`, 1 cycle (R103). -/
def setOeCycles (v : Bool) : List Micro := [[.oe v]]

/-- Sample(row): SETTLE idle cycles, then the capture at the edge that ends the last cycle (R140, R11). In a scan this edge is
`T + S` cycles after the clock pin's rise, where R236 says `T + S + 1`: DEDUCED from R11 and R242 (log 8). -/
def sampleCycles (settle : Nat) (row : BitVec 4) : List Micro := List.replicate settle [] ++ [[.capture row]]

/-- `n` times the same cycles. -/
def times (n : Nat) (ms : List Micro) : List Micro := (List.replicate n ms).flatten

/-- A wait that goes on: one cycle that does nothing; the operation is not over (R12, R241). -/
def pollCycle : List Micro := [[]]

/-- Add writes to the first cycle of an operation's part. -/
def inFirst (w : Micro) : List Micro → List Micro
  | [] => [w]
  | m :: ms => (m ++ w) :: ms

/-- Add writes to the last cycle of an operation's part. -/
def inLast (w : Micro) : List Micro → List Micro
  | [] => [w]
  | [m] => [m ++ w]
  | m :: m' :: ms => m :: inLast w (m' :: ms)

/-- An operation's cycles: in the last one the sequencer goes on to the successor (R171). -/
def whole (ms : List Micro) : List Micro := inLast [.retire] ms

/-- FLUSH ch (R89): 16 bit clocks of the inactive level. -/
def flushCycles (t : Nat) (ch : Chain) : List Micro := times 16 (clockBit t ch ch.inactive)

/-- A seed: one active bit clocked in, then the data line inactive again (R122, R125). -/
def seedCycles (t : Nat) (ch : Chain) : List Micro := clockBit t ch ch.active ++ setDataCycles ch ch.inactive

/-- RingReset (R122): the rows dark, each chain flushed, both rings seeded, and `cur_row <- 0` in the cycle of the
last SetData. -/
def ringReset (t : Nat) : List Micro :=
  setOeCycles false ++ flushCycles t .swr ++ flushCycles t .ledr ++ flushCycles t .ledc ++ seedCycles t .swr ++
    inLast [.curRow 0] (seedCycles t .ledr)

/-- The column write of a byte (COLWR, R89, R143). -/
def columnWrite (t : Nat) (msbFirst : Bool) (b : Byte) : List Micro :=
  (List.range 8).flatMap fun k => clockBit t .ledc (colBit msbFirst b k)

/-! ## Fetching -/

/-- The word of the operation the sequencer is executing (R171): `ROM[upc]`, or the head of the list in direct
execution. -/
def State.currentWord (s : State) : Option Byte :=
  match s.source with
  | .rom => romWord s.upc
  | .direct ws => ws.head?

/-- Why there is no word to fetch. -/
def State.noWord (s : State) : Host.Outcome State Fault Refusal :=
  match s.source with
  | .rom => .refused (.noRomWord s.upc)
  | .direct _ => .fault .wordsUsedUp

/-- The operation the sequencer is executing, where its word is a valid one. -/
def State.currentOp (s : State) : Option Instr :=
  match s.currentWord with
  | none => none
  | some w =>
    match decode w with
    | .op i => some i
    | .reserved _ => none

end Sys2Proof.Machine
end

