-- ==== Sys2Proof/Machine/Ring.lean ====
section
/-! DEFINITION. The Row-Select Ring: RINGRST (41_row_select_ring.md). -/

namespace Sys2Proof.Machine

/-- The cycles of RINGRST (R122). -/
def cyclesRingrst (s : State) : Host.Outcome (List Micro) Fault Refusal := .next (whole (ringReset s.params.tPhase))

/-- RINGRST: the reset protocol, from any prior contents of the chains (R122). -/
def execRingrst (s : State) : Host.Outcome State Fault Refusal := performed s (cyclesRingrst s)

end Sys2Proof.Machine
end

