-- ==== Sys2Proof/Machine/ScanRefresh.lean ====
section
/-! DEFINITION. Switch Matrix Scanner, LED Row Refresher, Transport Handoff: SAMPLE, SCAN, REFRESH, HANDOFF
(42_scan_refresh.md). -/

namespace Sys2Proof.Machine

/-- The cycles of SAMPLE (R140). Row 15 is reserved (R83). -/
def cyclesSample (row : BitVec 4) (s : State) : Host.Outcome (List Micro) Fault Refusal :=
  if row = 15 then .refused .reservedRow else .next (whole (sampleCycles s.params.settle row))

/-- SAMPLE: after the settling wait, `frame[row+1] <- col_in` as it stands in the last cycle (R140). -/
def execSample (row : BitVec 4) (s : State) : Host.Outcome State Fault Refusal := performed s (cyclesSample row s)

/-- One row of a scan: SAMPLE row, then SWADV (R141). -/
def scanRow (p : Params) (row : Nat) : List Micro :=
  sampleCycles p.settle (BitVec.ofNat 4 row) ++ clockBit p.tPhase .swr Chain.swr.inactive

/-- The cycles of a scan whose wait ends in its first cycle (R141): the address byte in that cycle, the 15 rows, and
the re-seed of the switch ring. -/
def scanCycles (p : Params) : List Micro :=
  [[.header]] ++ (List.range 15).flatMap (scanRow p) ++ seedCycles p.tPhase .swr

/-- The cycles of SCAN from a state: a poll while `tx_busy = 1` (R71, R141), else the scan. -/
def cyclesScan (s : State) : Host.Outcome (List Micro) Fault Refusal :=
  .next (if s.input.txBusy then pollCycle else whole (scanCycles s.params))

/-- SCAN: the switch-matrix scanner (R141). A step is one poll of its wait, or the scan. -/
def execScan (s : State) : Host.Outcome State Fault Refusal := performed s (cyclesScan s)

/-- The last part of a refresh (R143): at row 5 the row register returns to 0 and the LED ring is re-seeded, else
both advance; the row register is written in the part's first cycle. -/
def rowAdvance (t : Nat) (row : BitVec 3) : List Micro :=
  if row = 5 then inFirst [.curRow 0] (seedCycles t .ledr)
  else inFirst [.curRow (row + 1)] (clockBit t .ledr Chain.ledr.inactive)

/-- The cycles of a refresh of row `row` with the byte `b` (R143). -/
def refreshCycles (p : Params) (row : BitVec 3) (b : Byte) : List Micro :=
  setOeCycles false ++ columnWrite p.tPhase p.colMsbFirst b ++ latchStrobe p.tPhase ++ setOeCycles true ++
    rowAdvance p.tPhase row

/-- The cycles of REFRESH from a state: the byte is read once, in the first cycle (R72, R143). LEDS has no element 6
or 7 (R60; log 11). -/
def cyclesRefresh (s : State) : Host.Outcome (List Micro) Fault Refusal :=
  if s.curRow.toNat < Space.size .leds then
    .next (whole (refreshCycles s.params s.curRow (s.memRead .leds s.curRow.toNat)))
  else .fault .noSuchLedRow

/-- REFRESH: one LED row (R143). -/
def execRefresh (s : State) : Host.Outcome State Fault Refusal := performed s (cyclesRefresh s)

/-- The cycle of HANDOFF from a state (R145): it ends in the cycle with `tx_ready = 1`, else it is one poll. -/
def cyclesHandoff (s : State) : Host.Outcome (List Micro) Fault Refusal :=
  .next (if s.input.txReady then whole [[]] else pollCycle)

/-- HANDOFF: one cycle with `tx_valid = 1` (R34, R145). A step is one poll, or the cycle of acceptance. -/
def execHandoff (s : State) : Host.Outcome State Fault Refusal := performed s (cyclesHandoff s)

end Sys2Proof.Machine
end

