-- ==== Sys2Proof/Machine/Scheduler.lean ====
section
/-! DEFINITION. Tick Scheduler and Deadline Monitor: TIMERON, WAITTICK, CHECK, FBENTER, FBSTEP
(43_scheduler.md). -/

namespace Sys2Proof.Machine

/-- The cycle of TIMERON (R172). -/
def cyclesTimeron : Host.Outcome (List Micro) Fault Refusal := .next (whole [[.timerStart]])

/-- TIMERON: the timer enabled and restarted from 0, the flag cleared (R172). -/
def execTimeron (s : State) : Host.Outcome State Fault Refusal := performed s cyclesTimeron

/-- The cycle of WAITTICK from a state (R173): the consume where the flag is set, else one poll. -/
def cyclesWaittick (s : State) : Host.Outcome (List Micro) Fault Refusal :=
  .next (if s.tickFlag then whole [[.consume]] else pollCycle)

/-- WAITTICK: wait for the tick flag and consume it (R173). A step is one poll, or the consume. -/
def execWaittick (s : State) : Host.Outcome State Fault Refusal := performed s (cyclesWaittick s)

/-- The cycle of CHECK from a state (R174): it reads the flag as it stands at the start of the cycle. -/
def cyclesCheck (s : State) : Host.Outcome (List Micro) Fault Refusal :=
  .next (if s.tickFlag then [[.deadlineMiss, .retireCheck]] else [[.upc 2, .retireCheck]])

/-- CHECK: DeadlineMiss where the tick flag is set, else back to the loop (R174). -/
def execCheck (s : State) : Host.Outcome State Fault Refusal := performed s (cyclesCheck s)

/-- The cycles of FBENTER (R175): the ring reset, the latch strobe, and in the SETOE cycle the two counters. -/
def fbEnterCycles (t : Nat) : List Micro :=
  ringReset t ++ latchStrobe t ++ inLast [.fbCnt 0, .fbPos 0] (setOeCycles true)

/-- The cycles of FBENTER from a state (R175). -/
def cyclesFbenter (s : State) : Host.Outcome (List Micro) Fault Refusal := .next (whole (fbEnterCycles s.params.tPhase))

/-- FBENTER: entry into the fallback animation (R175). -/
def execFbenter (s : State) : Host.Outcome State Fault Refusal := performed s (cyclesFbenter s)

/-- The cycles of FBSTEP (R176): count, and on the 40th step restart the count, move the position and clock one bit
into the column chain, on at position 0, off elsewhere. -/
def fbStepCycles (t : Nat) (cnt : BitVec 6) (pos : BitVec 3) : List Micro :=
  if cnt + 1 = 40 then
    [[.fbCnt 0, .fbPos (pos + 1)]] ++
      clockBit t .ledc (if pos = 0 then Chain.ledc.active else Chain.ledc.inactive)
  else [[.fbCnt (cnt + 1)]]

/-- The cycles of FBSTEP from a state (R176). -/
def cyclesFbstep (s : State) : Host.Outcome (List Micro) Fault Refusal :=
  .next (whole (fbStepCycles s.params.tPhase s.fbCnt s.fbPos))

/-- FBSTEP: one tick of the fallback animation (R176). -/
def execFbstep (s : State) : Host.Outcome State Fault Refusal := performed s (cyclesFbstep s)

end Sys2Proof.Machine
end

