-- ==== Sys2Proof/Machine/ShiftLink.lean ====
section
/-! DEFINITION. The Shift-Register Link: CLKBIT, SETDATA, LATCH, SETOE (40_shift_register_link.md). -/

namespace Sys2Proof.Machine

/-- The cycles of CLKBIT (R100). -/
def cyclesClkbit (ch : Chain) (v : Bool) (s : State) : Host.Outcome (List Micro) Fault Refusal :=
  .next (whole (clockBit s.params.tPhase ch v))

/-- CLKBIT: the chain's data line to `v`, its clock line low, then high; the chain shifts once (R100). -/
def execClkbit (ch : Chain) (v : Bool) (s : State) : Host.Outcome State Fault Refusal :=
  performed s (cyclesClkbit ch v s)

/-- The cycle of SETDATA (R101). -/
def cyclesSetdata (ch : Chain) (v : Bool) : Host.Outcome (List Micro) Fault Refusal :=
  .next (whole (setDataCycles ch v))

/-- SETDATA: the chain's data line to `v`, no clock edge (R101). -/
def execSetdata (ch : Chain) (v : Bool) (s : State) : Host.Outcome State Fault Refusal :=
  performed s (cyclesSetdata ch v)

/-- The cycles of LATCH (R102). -/
def cyclesLatch (s : State) : Host.Outcome (List Micro) Fault Refusal :=
  .next (whole (latchStrobe s.params.tPhase))

/-- LATCH: the strobe goes high, so the latch takes the LED-row stages, then low (R102). -/
def execLatch (s : State) : Host.Outcome State Fault Refusal := performed s (cyclesLatch s)

/-- The cycle of SETOE (R103). -/
def cyclesSetoe (v : Bool) : Host.Outcome (List Micro) Fault Refusal := .next (whole (setOeCycles v))

/-- SETOE: the LED-row output enable to `v` (R103). -/
def execSetoe (v : Bool) (s : State) : Host.Outcome State Fault Refusal := performed s (cyclesSetoe v)

end Sys2Proof.Machine
end

