-- ==== Sys2Proof/Machine/Dispatch.lean ====
section
/-! DEFINITION. One arm for each operation of the opcode table. -/

namespace Sys2Proof.Machine

def exec (i : Instr) (s : State) : Host.Outcome State Fault Refusal :=
  match i with
  | .clkbit ch v => Sys2Proof.Machine.execClkbit ch v s
  | .setdata ch v => Sys2Proof.Machine.execSetdata ch v s
  | .latch => Sys2Proof.Machine.execLatch s
  | .setoe v => Sys2Proof.Machine.execSetoe v s
  | .sample row => Sys2Proof.Machine.execSample row s
  | .ringrst => Sys2Proof.Machine.execRingrst s
  | .timeron => Sys2Proof.Machine.execTimeron s
  | .refresh => Sys2Proof.Machine.execRefresh s
  | .scan => Sys2Proof.Machine.execScan s
  | .handoff => Sys2Proof.Machine.execHandoff s
  | .waittick => Sys2Proof.Machine.execWaittick s
  | .check => Sys2Proof.Machine.execCheck s
  | .fbenter => Sys2Proof.Machine.execFbenter s
  | .fbstep => Sys2Proof.Machine.execFbstep s

end Sys2Proof.Machine
end

