-- ==== Sys2Proof/Machine/Step.lean ====
section
/-! DEFINITION. One step of the SRC at operation level (70_reset_and_hazards.md R244): a reset cycle, or one operation
run cycle by cycle to its end, or one poll of a wait. -/

namespace Sys2Proof.Machine

/-- One step. Reset takes priority over everything (R230). An operation in progress (R35) is run to its end; at the
start of an operation its word is fetched, decoded and executed (R171); a reserved word is refused (R85). -/
def step (s : State) : Host.Outcome State Fault Refusal :=
  if s.input.rstN then
    match s.pending with
    | m :: ms => .next (s.perform (m :: ms))
    | [] =>
      match s.currentWord with
      | none => s.noWord
      | some w =>
        match decode w with
        | .op i => exec i s
        | .reserved r => .refused (.reservedWord r)
  else .next s.resetCycle

/-- `s` with one word placed where the next step fetches: direct execution (R171) of the one-word list, and `rst_n` at 1 for
as long as the word's operation can take, since a reset cycle fetches nothing and aborts an operation (R230; log 7). Words
are one byte long (R80). -/
def State.withFetchWord (s : State) (nbits w : Nat) : State :=
  { s.withoutReset (longestOperation s.params) with
    source := .direct [BitVec.ofNat 8 (w % 2 ^ nbits)], pending := [] }

end Sys2Proof.Machine
end

