-- ==== Sys2Proof/Machine/Cycle.lean ====
section
/-! DEFINITION. The SRC at cycle level (70_reset_and_hazards.md R244): one clk cycle a step, with the operation in
progress in the micro-state (R35). The operation level of `step` is measured against it. -/

namespace Sys2Proof.Machine

/-- The cycles of an operation from a state. -/
def cyclesOf (i : Instr) (s : State) : Host.Outcome (List Micro) Fault Refusal :=
  match i with
  | .clkbit ch v => cyclesClkbit ch v s
  | .setdata ch v => cyclesSetdata ch v
  | .latch => cyclesLatch s
  | .setoe v => cyclesSetoe v
  | .sample row => cyclesSample row s
  | .ringrst => cyclesRingrst s
  | .timeron => cyclesTimeron
  | .refresh => cyclesRefresh s
  | .scan => cyclesScan s
  | .handoff => cyclesHandoff s
  | .waittick => cyclesWaittick s
  | .check => cyclesCheck s
  | .fbenter => cyclesFbenter s
  | .fbstep => cyclesFbstep s

/-- One cycle of an operation whose remaining cycles are given: the first is run, the rest wait. -/
def State.oneCycle (s : State) : List Micro → State
  | [] => s
  | m :: ms => { s with pending := ms }.cycle m

/-- One clk cycle of the whole machine (R171, R230). -/
def cycleStep (s : State) : Host.Outcome State Fault Refusal :=
  if s.input.rstN then
    match s.pending with
    | m :: ms => .next (s.oneCycle (m :: ms))
    | [] =>
      match s.currentWord with
      | none => s.noWord
      | some w =>
        match decode w with
        | .op i =>
          match cyclesOf i s with
          | .next ms => .next (s.oneCycle ms)
          | .fault f => .fault f
          | .refused r => .refused r
        | .reserved r => .refused (.reservedWord r)
  else .next s.resetCycle

/-- `n` clk cycles, stopping at the first fault or refusal. -/
def runCycles : Nat → State → Host.Outcome State Fault Refusal
  | 0, s => .next s
  | n + 1, s =>
    match cycleStep s with
    | .next t => runCycles n t
    | .fault f => .fault f
    | .refused r => .refused r

/-- `n` steps at operation level, stopping at the first fault or refusal. -/
def runSteps : Nat → State → Host.Outcome State Fault Refusal
  | 0, s => .next s
  | n + 1, s =>
    match step s with
    | .next t => runSteps n t
    | .fault f => .fault f
    | .refused r => .refused r

/-- The operations of a list one after another, stopping at the first fault or refusal. -/
def execAll : List Instr → State → Host.Outcome State Fault Refusal
  | [], s => .next s
  | i :: is, s =>
    match exec i s with
    | .next t => execAll is t
    | .fault f => .fault f
    | .refused r => .refused r

end Sys2Proof.Machine
end

