-- ==== Sys2Proof/Machine/Observe.lean ====
section
/-! DEFINITION. What can be observed of the SRC: its decoded outputs (R33, R34, R43), the rows and LEDs (R41, R42), and
the rings' logical positions (R120, R121). -/

namespace Sys2Proof.Machine

/-- `sr_hard_reset`: held inactive in every cycle (R33). -/
def State.srHardReset (s : State) : Bool := s.params.hardResetInactive

/-- `tx_valid`: 1 in exactly the cycles in which the sequencer executes HANDOFF, 0 while `rst_n = 0` (R34). -/
def State.txValid (s : State) : Bool := s.input.rstN && decide (s.currentOp = some .handoff)

/-- `tx_frame`: byte `i` at bits `8i+7 : 8i` (R34, R64). -/
def State.txFrame (s : State) : BitVec 128 :=
  (List.range 16).foldl (fun acc i => acc ||| ((s.memRead .frame i).setWidth 128 <<< (8 * i))) 0

/-- The bytes in the order the bus carries them: byte 0 first (R64, R146). -/
def State.busBytes (s : State) : List Byte := (List.range 16).map fun i => s.memRead .frame i

/-- The transfer is accepted in this cycle: `tx_valid = 1` and `tx_ready = 1` (R145). -/
def State.txAccepted (s : State) : Bool := s.txValid && s.input.txReady

/-- `fallback`, the status output: it equals `mode` (R43). -/
def State.fallback (s : State) : Bool := decide (s.mode = .fallback)

/-- Switch row `r` of 0..14 is selected (R41). -/
def State.rowSelected (s : State) (r : Nat) : Bool := decide (r < 15) && !s.swr.getLsbD r

/-- LED `(r, c)` is lit (R42). -/
def State.lit (s : State) (r c : Nat) : Bool :=
  decide (r < 6) && decide (c < 8) && s.ledrOe && s.ledrLatch.getLsbD r && !s.ledc.getLsbD c

/-- The logical position of a row-select ring: "`{position 0..N-1, empty}`", and INVALID for more than one row
(R120). -/
inductive Position where
  | row (r : Nat)
  | empty
  | invalid
  deriving DecidableEq, Repr, Inhabited

/-- The position that a list of active rows stands for. -/
def Position.ofRows : List Nat → Position
  | [] => .empty
  | [r] => .row r
  | _ :: _ :: _ => .invalid

/-- `pos_sw(swr)`: the rows 0..14 whose stage is 0; stage 15 is not looked at (R120). -/
def posSw (swr : BitVec 16) : Position := Position.ofRows ((List.range 15).filter fun r => !swr.getLsbD r)

/-- `pos_led(ledr)`: the rows 0..5 whose stage is 1 (R121). -/
def posLed (ledr : BitVec 6) : Position := Position.ofRows ((List.range 6).filter fun r => ledr.getLsbD r)

end Sys2Proof.Machine
end

