-- ==== Sys2Proof/Safety.lean ====
section
/-! DEFINITION. What counts as a safe run of the SRC, and the conditions on the environment that statements name. -/

namespace Sys2Proof.Machine

/-- The next `n` cycles have `rst_n = 1` and no glitch: the environment keeps the duties of R234 on the chains and
leaves reset alone. -/
abbrev State.Calm (s : State) (n : Nat) : Prop :=
  ∀ k < n, (s.inputAt (s.now + k)).rstN = true ∧ (s.inputAt (s.now + k)).glitch = Glitch.none

/-- The LED write port is not strobed in the next `n` cycles. -/
abbrev State.NoLedWrite (s : State) (n : Nat) : Prop := ∀ k < n, (s.inputAt (s.now + k)).ledWrEn = false

/-- Reset is not asserted in the next `n` cycles. -/
abbrev State.NoReset (s : State) (n : Nat) : Prop := ∀ k < n, (s.inputAt (s.now + k)).rstN = true

/-- No glitch ever disturbs a chain (U2). -/
abbrev State.NeverGlitched (s : State) : Prop := ∀ c, (s.inputAt c).glitch = Glitch.none

/-- The block registers hold the values of R47's table. -/
structure State.BlockAtReset (s : State) : Prop where
  upc : s.upc = 0
  mode : s.mode = .normal
  tickFlag : s.tickFlag = false
  timerEn : s.timerEn = false
  preCnt : s.preCnt = 0
  tmrCnt : s.tmrCnt = 0
  curRow : s.curRow = 0
  fbCnt : s.fbCnt = 0
  fbPos : s.fbPos = 0
  frameAddress : s.memRead .frame 0 = s.params.busAddr ++ 0#1
  frameRows : ∀ i, 1 ≤ i → i < 16 → s.memRead .frame i = 0xFF
  ledState : ∀ i < 6, s.memRead .leds i = 0xFF
  dataLines : s.swrLine.data = true ∧ s.ledrLine.data = false ∧ s.ledcLine.data = true
  clockLines : s.swrLine.clk = false ∧ s.ledrLine.clk = false ∧ s.ledcLine.clk = false
  latchAndEnable : s.ledrLat = false ∧ s.ledrOe = false
  microState : s.pending = []
  rom : s.source = .rom

/-- The invariant of the machine between operations: every register in the range its rule gives it, storage in
canonical form, the strobe low, and in the ROM the mode that the address says (R212). -/
structure State.Inv (s : State) : Prop where
  params : s.params.Legal
  upc : s.upc.toNat ≤ 9
  curRow : s.curRow.toNat ≤ 5
  preCnt : s.preCnt < s.params.prescaler
  tmrCnt : s.tmrCnt ≤ s.params.top
  fbCnt : s.fbCnt.toNat < 40
  frame : Memory.wf (Space.size .frame) (Space.unlisted s.params .frame) s.frame = true
  leds : Memory.wf (Space.size .leds) (Space.unlisted s.params .leds) s.leds = true
  atStart : s.pending = []
  strobe : s.ledrLat = false
  modeOfAddress : s.source = .rom → (s.mode = .fallback ↔ 7 ≤ s.upc.toNat)

/-- Both rings select the row their registers stand for, once the startup ring reset has run (R123, R142, R143):
the switch ring at row 0, the LED ring at `cur_row`. -/
def State.RingsInStep (s : State) : Prop :=
  s.source = .rom → 1 ≤ s.upc.toNat → s.swr = 0xFFFE ∧ s.ledr = 1#6 <<< s.curRow.toNat

/-- The sequencer waits in this state: its operation's condition does not hold in this cycle (R173, R141, R145). -/
def State.Waiting (s : State) : Prop :=
  (s.currentOp = some .waittick ∧ s.tickFlag = false) ∨ (s.currentOp = some .scan ∧ s.input.txBusy = true) ∨
    (s.currentOp = some .handoff ∧ s.input.txReady = false)

/-- The state without the contents of the chains: the block state and the model's own fields. -/
def State.block (s : State) : State := { s with swr := 0, ledr := 0, ledrLatch := 0, ledc := 0 }

/-- The block states of two outcomes agree, or both stop for the same reason. -/
def sameBlock : Host.Outcome State Fault Refusal → Host.Outcome State Fault Refusal → Prop
  | .next s, .next t => s.block = t.block
  | .fault f, .fault g => f = g
  | .refused q, .refused r => q = r
  | _, _ => False

end Sys2Proof.Machine
end

