-- ==== Sys2Proof/Certificates/Slice0/Obligations.lean ====
section
/-! DEFINITION. The statements for the provers. In all of them `T` stands for `s.params.tPhase` (T_PHASE) and `S` for
`s.params.settle` (SETTLE); `s.opStart` is `s` at the start of an operation (R35), `elapse n` is `n` cycles in which the
sequencer does nothing, `retire` is the move to the next operation (R171). -/

open Sys2Proof Sys2Proof.Machine

/-! ## Reset -/

/-- R47: the values of its table, at reset and after every cycle with `rst_n = 0`; the chains are not changed (where no
glitch disturbs them in that cycle). -/
def Obligations.ResetLeavesTheResetValues : Prop :=
  State.reset.BlockAtReset ∧ State.reset.txValid = false ∧
    State.reset.srHardReset = State.reset.params.hardResetInactive ∧
    ∀ s : State, s.input.rstN = false →
      ∃ t, step s = .next t ∧ t.BlockAtReset ∧ s.txValid = false ∧ t.srHardReset = s.params.hardResetInactive ∧
        t.params = s.params ∧ t.plan = s.plan ∧ t.now = s.now + 1 ∧
        (s.input.glitch = Glitch.none →
          t.swr = s.swr ∧ t.ledr = s.ledr ∧ t.ledrLatch = s.ledrLatch ∧ t.ledc = s.ledc)

/-- R230, "Reset aborts any operation in progress": in whichever cycle of an operation `rst_n` is 0 first, the operation
ends there, with the block at its reset values. -/
def Obligations.ResetAbortsEveryOperation : Prop :=
  ∀ (i : Instr) (s : State) (ms : List Micro) (k : Nat), cyclesOf i s = .next ms → k < ms.length →
    s.NoReset k → (s.inputAt (s.now + k)).rstN = false →
    ∃ t, exec i s = .next t ∧ t.BlockAtReset ∧ t.params = s.params ∧ t.plan = s.plan ∧ t.now = s.now + k + 1

/-- R232: two operations after reset the loop is reached, with the state its table lists, from any contents of the
chains. -/
def Obligations.StartupReachesTheLoop : Prop :=
  ∀ s : State, s.params.Legal → s.BlockAtReset → s.Calm (4 + 150 * s.params.tPhase) →
    s.NoLedWrite (4 + 150 * s.params.tPhase) →
    ∃ t, runSteps 2 s = .next t ∧ t.upc = 2 ∧ t.now = s.now + 4 + 150 * s.params.tPhase ∧
      t.swr = 0xFFFE ∧ t.ledr = 0b000001 ∧ t.ledc = 0xFF ∧ t.ledrLatch = s.ledrLatch ∧ t.ledrOe = false ∧
      (∀ r c, t.lit r c = false) ∧ t.curRow = 0 ∧ t.mode = .normal ∧ t.tickFlag = false ∧ t.timerEn = true ∧
      t.preCnt = 0 ∧ t.tmrCnt = 0 ∧ t.fbCnt = 0 ∧ t.fbPos = 0 ∧
      t.memRead .frame 0 = s.params.busAddr ++ 0#1 ∧ (∀ i, 1 ≤ i → i < 16 → t.memRead .frame i = 0xFF) ∧
      ∀ i < 6, t.memRead .leds i = 0xFF

/-! ## Fetching, decoding, the microprogram -/

/-- R171: with `rst_n = 1`, a step at the start of an operation is `exec` of the operation whose word the sequencer is at. -/
def Obligations.StepRunsTheDecodedOperation : Prop :=
  ∀ (s : State) (w : Byte) (i : Instr), s.input.rstN = true → s.pending = [] → s.currentWord = some w →
    decode w = .op i → step s = exec i s

/-- R85: the reserved words are exactly those of its list, 217 of them; the ROM holds none, and a step at one is
refused. -/
def Obligations.ReservedWordsAreRefused : Prop :=
  (∀ w : Byte, decode w = .reserved w ↔
    (majorOf w = 0x0 ∨ majorOf w = 0xF) ∨
      ((majorOf w = 0x1 ∨ majorOf w = 0x2) ∧ (w.extractLsb' 2 2 = 0b11 ∨ w.getLsbD 0 = true)) ∨
      (majorOf w = 0x4 ∧ w.extractLsb' 1 3 ≠ 0) ∨ w = 0x5F ∨
      ((majorOf w = 0x3 ∨ (0x6 ≤ (majorOf w).toNat ∧ (majorOf w).toNat ≤ 0xE)) ∧ minorOf w ≠ 0)) ∧
    ((List.range 256).filter fun w => decide (decode (BitVec.ofNat 8 w) = .reserved (BitVec.ofNat 8 w))).length = 217 ∧
    (∀ a w, romWord a = some w → ∃ i, decode w = .op i) ∧
    ∀ (s : State) (w : Byte), s.input.rstN = true → s.pending = [] → s.currentWord = some w →
      decode w = .reserved w → step s = .refused (.reservedWord w)

/-- R170: the words of the ROM, their operations and their successors. A wait that goes on stays where it is; CHECK sets
`upc` itself. -/
def Obligations.SequencerRunsTheMicroprogram : Prop :=
  ((List.range 10).map fun a => romWord (BitVec.ofNat 4 a)) =
      [some 0x60, some 0x70, some 0xB0, some 0x80, some 0x90, some 0xA0, some 0xC0, some 0xD0, some 0xB0, some 0xE0] ∧
    ((List.range 10).map fun a => (romWord (BitVec.ofNat 4 a)).map decode) =
      [some (.op .ringrst), some (.op .timeron), some (.op .waittick), some (.op .refresh), some (.op .scan),
        some (.op .handoff), some (.op .check), some (.op .fbenter), some (.op .waittick), some (.op .fbstep)] ∧
    ∀ s t : State, s.source = .rom → s.pending = [] → s.upc.toNat ≤ 9 → step s = .next t → s.NoReset (t.now - s.now) →
      t.source = .rom ∧ (s.Waiting → t.upc = s.upc) ∧
        (¬ s.Waiting →
          t.upc = if s.upc = 6 then (if s.tickFlag then 7 else 2)
            else ([1, 2, 3, 4, 5, 6, 2, 8, 9, 8] : List (BitVec 4)).getD s.upc.toNat 0)

/-- R171, direct execution: words run one after another; a wait stays; only CHECK writes `upc`, and what it writes does
not choose the next word. -/
def Obligations.DirectExecutionFollowsItsList : Prop :=
  ∀ (s t : State) (w : Byte) (ws : List Byte) (i : Instr), s.source = .direct (w :: ws) → decode w = .op i →
    s.pending = [] → step s = .next t → s.NoReset (t.now - s.now) →
    (s.Waiting → t.source = .direct (w :: ws) ∧ t.upc = s.upc) ∧
      (¬ s.Waiting → t.source = .direct ws ∧
        t.upc = if i = .check then (if s.tickFlag then 7 else 2) else s.upc)

/-- R84: words of the opcode map, one or more of each format and family, and what they decode to. -/
def Obligations.SpecWordsDecodeToTheirOperations : Prop :=
  decode 0b00010000 = .op (.clkbit .swr false) ∧ decode 0b00010110 = .op (.clkbit .ledr true) ∧
    decode 0b00101010 = .op (.setdata .ledc true) ∧ decode 0b00110000 = .op .latch ∧
    decode 0b01000001 = .op (.setoe true) ∧ decode 0b01011110 = .op (.sample 14) ∧
    decode 0b01100000 = .op .ringrst ∧ decode 0b01110000 = .op .timeron ∧ decode 0b10000000 = .op .refresh ∧
    decode 0b10010000 = .op .scan ∧ decode 0b10100000 = .op .handoff ∧ decode 0b10110000 = .op .waittick ∧
    decode 0b11000000 = .op .check ∧ decode 0b11010000 = .op .fbenter ∧ decode 0b11100000 = .op .fbstep ∧
    decode 0b00011100 = .reserved 0x1C ∧ decode 0b01011111 = .reserved 0x5F

/-- R84, R87: decoding the word of a well-formed operation gives the operation back. -/
def Obligations.DecodeAfterEncode : Prop := ∀ i : Instr, i.wellFormed = true → decode (encode i) = .op i

/-- R84, R87: a word that decodes to an operation is that operation's word, and the operation is well formed; any other
word decodes to itself as reserved. -/
def Obligations.EncodeAfterDecode : Prop :=
  ∀ w : Byte, (∀ i, decode w = .op i → i.wellFormed = true ∧ encode i = w) ∧ ∀ r, decode w = .reserved r → r = w

/-- The model's stops that rest on no valid word (log 7, log 11; U8): `upc` 10 to 15, a list that is used up, REFRESH
with `cur_row` 6 or 7, SAMPLE 15. -/
def Obligations.StopsByName : Prop :=
  (∀ s : State, s.input.rstN = true → s.pending = [] → s.source = .rom → 10 ≤ s.upc.toNat →
      step s = .refused (.noRomWord s.upc)) ∧
    (∀ s : State, s.input.rstN = true → s.pending = [] → s.source = .direct [] → step s = .fault .wordsUsedUp) ∧
    (∀ s : State, 6 ≤ s.curRow.toNat → exec .refresh s = .fault .noSuchLedRow) ∧
    ∀ s : State, exec (.sample 15) s = .refused .reservedRow

/-! ## Cycles without the sequencer: the frame of everything below -/

/-- R69, R73: calm cycles in which the sequencer does nothing change the timer's counters, the tick flag, LEDS and the
number of the cycle, and nothing else. LEDS keeps its bytes where the port is not strobed; the counters and the flag stay
where the timer is off. -/
def Obligations.IdleCyclesChangeOnlyTimerAndPort : Prop :=
  ∀ (s : State) (n : Nat), s.Calm n →
    s.elapse n = { s with preCnt := (s.elapse n).preCnt, tmrCnt := (s.elapse n).tmrCnt,
                          tickFlag := (s.elapse n).tickFlag, leds := (s.elapse n).leds, now := s.now + n } ∧
      (s.NoLedWrite n → ∀ a, (s.elapse n).memRead .leds a = s.memRead .leds a) ∧
      (s.timerEn = false →
        (s.elapse n).preCnt = s.preCnt ∧ (s.elapse n).tmrCnt = s.tmrCnt ∧ (s.elapse n).tickFlag = s.tickFlag)

/-! ## Shift-Register Link -/

/-- R100: CLKBIT takes `3T` cycles; the chain shifts once, taking `v` into stage 0, its data line is `v` and its clock
line high; nothing else but what goes by in `3T` cycles. -/
def Obligations.ClkbitShiftsItsChainOnce : Prop :=
  ∀ (s : State) (ch : Chain) (v : Bool), s.params.Legal → s.Calm (3 * s.params.tPhase) →
    exec (.clkbit ch v) s =
      .next ((((s.opStart.elapse (3 * s.params.tPhase)).setLine ch ⟨v, true⟩).shift ch v).retire)

/-- R104: during CLKBIT the data pin holds `v` from the first edge on, the clock pin keeps its level for `T` edges, is low
for `T`, and high for the last `T`. -/
def Obligations.BitClockPhases : Prop :=
  ∀ (s : State) (ch : Chain) (v : Bool) (k : Nat), s.params.Legal → s.Calm (3 * s.params.tPhase) → 1 ≤ k →
    k ≤ 3 * s.params.tPhase →
    (s.runMicros ((whole (clockBit s.params.tPhase ch v)).take k)).line ch =
      ⟨v, if k ≤ s.params.tPhase then (s.line ch).clk else decide (2 * s.params.tPhase < k)⟩

/-- R101: SETDATA takes one cycle, drives the data line and makes no clock edge. -/
def Obligations.SetdataDrivesWithoutClocking : Prop :=
  ∀ (s : State) (ch : Chain) (v : Bool), s.Calm 1 →
    exec (.setdata ch v) s = .next (((s.opStart.elapse 1).setLine ch ⟨v, (s.line ch).clk⟩).retire)

/-- R102: LATCH takes `2T` cycles; the latch takes the six stages of the LED-row chain and the strobe is low again. -/
def Obligations.LatchCommitsTheLedRow : Prop :=
  ∀ s : State, s.params.Legal → s.ledrLat = false → s.Calm (2 * s.params.tPhase) →
    exec .latch s = .next ({ s.opStart.elapse (2 * s.params.tPhase) with ledrLatch := s.ledr, ledrLat := false }.retire)

/-- R103: SETOE takes one cycle and sets the output enable; with it 0 no LED is lit. -/
def Obligations.SetoeSwitchesTheLedRows : Prop :=
  ∀ (s : State) (v : Bool), s.Calm 1 →
    ∃ t, exec (.setoe v) s = .next t ∧ t = { s.opStart.elapse 1 with ledrOe := v }.retire ∧
      ∀ r c, t.lit r c = (v && (decide (r < 6) && decide (c < 8) && s.ledrLatch.getLsbD r && !s.ledc.getLsbD c))

/-- R106, R107: in every cycle, whatever the sequencer writes, each chain takes `((chain << 1) | d) mod 2^N` exactly when
its own clock pin rises, and holds otherwise; the latch takes `ledr` exactly when the strobe rises. R106 has `d` the level "at
that edge": that this is the level before the edge, and the latch's `ledr` that before it, also in a cycle that writes both
pins at once, is the model's reading (log 14, DEDUCED). -/
def Obligations.ChainsShiftOnTheirRisingEdgesOnly : Prop :=
  ∀ (s : State) (m : Micro), s.input.glitch = Glitch.none →
    (s.cycle m).swr.toNat =
        (if rises s.swrLine.clk (s.cycle m).swrLine.clk then (2 * s.swr.toNat + s.swrLine.data.toNat) % 2 ^ 16
          else s.swr.toNat) ∧
      (s.cycle m).ledr.toNat =
        (if rises s.ledrLine.clk (s.cycle m).ledrLine.clk then (2 * s.ledr.toNat + s.ledrLine.data.toNat) % 2 ^ 6
          else s.ledr.toNat) ∧
      (s.cycle m).ledc.toNat =
        (if rises s.ledcLine.clk (s.cycle m).ledcLine.clk then (2 * s.ledc.toNat + s.ledcLine.data.toNat) % 2 ^ 8
          else s.ledc.toNat) ∧
      (s.cycle m).ledrLatch = if rises s.ledrLat (s.cycle m).ledrLat then s.ledr else s.ledrLatch

/-- R89, D13: COLWR `b` fills the LED-column chain with `b`, or with `b` reversed when the order is LSB first, whatever it
held. -/
def Obligations.ColumnWriteFillsTheColumnChain : Prop :=
  ∀ (s : State) (msbFirst : Bool) (b : Byte), s.params.Legal → s.Calm (24 * s.params.tPhase) →
    ∃ t, execAll (colwr msbFirst b) s = .next t ∧ t.now = s.now + 24 * s.params.tPhase ∧
      (∀ c < 8, t.ledc.getLsbD c = b.getLsbD (if msbFirst then c else 7 - c)) ∧
      t.swr = s.swr ∧ t.ledr = s.ledr ∧ t.ledrLatch = s.ledrLatch ∧ t.ledrOe = s.ledrOe

/-! ## Row-Select Ring -/

/-- R122: RINGRST takes `3 + 150T` cycles and leaves the chains, the pins, the output enable and `cur_row` as its result
line says, from any prior contents; the latch is not strobed. -/
def Obligations.RingrstSeedsBothRings : Prop :=
  ∀ s : State, s.params.Legal → s.Calm (3 + 150 * s.params.tPhase) →
    exec .ringrst s =
      .next ({ s.opStart.elapse (3 + 150 * s.params.tPhase) with
                swr := 0xFFFE, ledr := 0b000001, ledc := 0xFF, swrLine := ⟨true, true⟩, ledrLine := ⟨false, true⟩,
                ledcLine := ⟨true, true⟩, ledrOe := false, curRow := 0 }.retire)

/-- R123: after RINGRST both rings are at row 0, and a second RINGRST gives the same chains, pins and `cur_row` as the
first. -/
def Obligations.RingrstTwiceIsRingrstOnce : Prop :=
  ∀ s : State, s.params.Legal → s.Calm (6 + 300 * s.params.tPhase) →
    ∃ t u, exec .ringrst s = .next t ∧ exec .ringrst t = .next u ∧ posSw t.swr = .row 0 ∧ posLed t.ledr = .row 0 ∧
      u.swr = t.swr ∧ u.ledr = t.ledr ∧ u.ledc = t.ledc ∧ u.ledrLatch = t.ledrLatch ∧ u.swrLine = t.swrLine ∧
      u.ledrLine = t.ledrLine ∧ u.ledcLine = t.ledcLine ∧ u.ledrOe = t.ledrOe ∧ u.curRow = t.curRow

/-- R124: SWADV and LEDADV move a ring one row on; past the last row it is empty, and empty stays empty. -/
def Obligations.AdvanceMovesTheRingOneRow : Prop :=
  ∀ s : State, s.params.Legal → s.Calm (3 * s.params.tPhase) →
    (∃ t, execAll swadv s = .next t ∧
      (∀ r, posSw s.swr = .row r → posSw t.swr = if r ≤ 13 then .row (r + 1) else .empty) ∧
      (posSw s.swr = .empty → posSw t.swr = .empty)) ∧
    ∃ t, execAll ledadv s = .next t ∧
      (∀ r, posLed s.ledr = .row r → posLed t.ledr = if r ≤ 4 then .row (r + 1) else .empty) ∧
      (posLed s.ledr = .empty → posLed t.ledr = .empty)

/-- R125: a re-seed gives row 0 exactly when the stages that move into a row hold no active bit, and returns the data line
to the inactive level; too early it gives INVALID. -/
def Obligations.ReseedReachesRowZeroExactlyAtTheEnd : Prop :=
  ∀ s : State, s.params.Legal → s.Calm (3 * s.params.tPhase + 1) →
    (∃ t, execAll swseed s = .next t ∧ t.swrLine.data = true ∧
      (posSw t.swr = .row 0 ↔ ∀ i < 14, s.swr.getLsbD i = true) ∧
      (posSw s.swr = .empty → posSw t.swr = .row 0) ∧ (posSw s.swr = .row 14 → posSw t.swr = .row 0) ∧
      ∀ r ≤ 13, posSw s.swr = .row r →
        posSw t.swr = .invalid ∧ ∀ q < 15, t.rowSelected q = decide (q = 0 ∨ q = r + 1)) ∧
    ∃ t, execAll ledseed s = .next t ∧ t.ledrLine.data = false ∧
      (posLed t.ledr = .row 0 ↔ ∀ i < 5, s.ledr.getLsbD i = false) ∧
      (posLed s.ledr = .empty → posLed t.ledr = .row 0) ∧ (posLed s.ledr = .row 5 → posLed t.ledr = .row 0) ∧
      ∀ r ≤ 4, posLed s.ledr = .row r → posLed t.ledr = .invalid

/-- R124: "after exactly `r` advance pulses following a reset, the switch-row ring selects row `r`; after a 15th advance,
the ring is empty"; it stays empty, without a wrap (R126). -/
def Obligations.AdvancesAfterResetSelectRowAfterRow : Prop :=
  ∀ (s : State) (r : Nat), s.params.Legal → s.Calm (3 + 150 * s.params.tPhase + 3 * r * s.params.tPhase) →
    ∃ t, execAll (.ringrst :: List.replicate r (.clkbit .swr true)) s = .next t ∧
      posSw t.swr = if r ≤ 14 then .row r else .empty

/-- R122, R141, R143, R175: RINGRST, REFRESH, FBENTER, and SCAN after its first cycle, do what their expansions in words
do, but for the registers they write beside them (`cur_row`, `fb_cnt`, `fb_pos`), and for `upc` and the word list, which
move once for each word. -/
def Obligations.CompositesAreTheirExpansions : Prop :=
  ∀ s : State, s.params.Legal → s.ledrLat = false →
    (s.Calm (3 + 150 * s.params.tPhase) →
      ∃ t u, exec .ringrst s = .next t ∧ execAll ringrstExpansion s = .next u ∧
        u = { t with source := u.source, upc := u.upc, curRow := s.curRow }) ∧
    (s.Calm (4 + 152 * s.params.tPhase) →
      ∃ t u, exec .fbenter s = .next t ∧ execAll fbenterExpansion s = .next u ∧
        u = { t with source := u.source, upc := u.upc, curRow := s.curRow, fbCnt := s.fbCnt, fbPos := s.fbPos }) ∧
    (s.Calm (3 + 29 * s.params.tPhase) → s.curRow.toNat ≤ 5 →
      ∃ t u, exec .refresh s = .next t ∧
        execAll (refreshExpansion s.params.colMsbFirst (s.memRead .leds s.curRow.toNat) (decide (s.curRow = 5))) s =
          .next u ∧
        u = { t with source := u.source, upc := u.upc, curRow := s.curRow }) ∧
    (s.Calm (17 + 15 * s.params.settle + 48 * s.params.tPhase) → s.input.txBusy = false →
      ∃ t u, exec .scan s = .next t ∧ execAll scanExpansion (s.opStart.cycle [.header]) = .next u ∧
        u = { t with source := u.source, upc := u.upc })

/-! ## Switch Matrix Scanner -/

/-- R140: SAMPLE of row 0 to 14 takes `S + 1` cycles and stores the column input of the last of them, bit for bit, in
`frame[row+1]`; every other byte reads as before. -/
def Obligations.SampleStoresTheColumnInput : Prop :=
  ∀ (s : State) (row : BitVec 4), row.toNat < 15 → s.Calm (s.params.settle + 1) →
    ∃ t, exec (.sample row) s = .next t ∧
      t = { s.opStart.elapse (s.params.settle + 1) with frame := t.frame }.retire ∧
      ∀ a, t.memRead .frame a =
        if a = row.toNat + 1 then (s.inputAt (s.now + s.params.settle)).colIn else s.memRead .frame a

/-- R141: SCAN, with `tx_busy = 0`, takes `17 + 15S + 48T` cycles: `frame[0]` is the address byte, `frame[r+1]` the column
input of row `r`'s sample cycle, and the switch ring ends at row 0 whatever it held (R128). Nothing else changes but what
goes by. -/
def Obligations.ScanStoresEveryRow : Prop :=
  ∀ s : State, s.params.Legal → s.input.txBusy = false →
    s.Calm (17 + 15 * s.params.settle + 48 * s.params.tPhase) →
    ∃ t, exec .scan s = .next t ∧
      t = { s.opStart.elapse (17 + 15 * s.params.settle + 48 * s.params.tPhase) with
              frame := t.frame, swr := 0xFFFE, swrLine := ⟨true, true⟩ }.retire ∧
      t.memRead .frame 0 = s.params.busAddr ++ 0#1 ∧
      ∀ r < 15, t.memRead .frame (r + 1) =
        (s.inputAt (s.now + 1 + r * (s.params.settle + 1 + 3 * s.params.tPhase) + s.params.settle)).colIn

/-- R142: in a scan that starts with the ring at row 0, row `r` is selected in the cycle that samples row `r`; after the
fifteenth advance `swr = 0x7FFF`, the ring is empty; at the end it is at row 0 again. With `B` cycles of the scan before
SAMPLE `r`, `r ≥ 1`, the ring goes from row `r - 1` to row `r` at the edge that ends cycle `B - T + 1`, and the byte sampled in
cycle `B + S + 1` stands in the frame `T + S` edges later. This number is the model's (log 8, DEDUCED from R11 and R242): R236
has `T + S + 1`, and the byte first reads in the cycle `T + S + 1` after the one that the rising edge ends. -/
def Obligations.ScanSamplesEachRowWhileSelected : Prop :=
  ∀ s : State, s.params.Legal → s.swr = 0xFFFE → s.Calm (17 + 15 * s.params.settle + 48 * s.params.tPhase) →
    (∀ r < 15, posSw (s.runMicros ((scanCycles s.params).take
        (1 + r * (s.params.settle + 1 + 3 * s.params.tPhase) + s.params.settle))).swr = .row r) ∧
      (∀ r B, 1 ≤ r → r < 15 → B = 1 + r * (s.params.settle + 1 + 3 * s.params.tPhase) →
        posSw (s.runMicros ((scanCycles s.params).take (B - s.params.tPhase))).swr = .row (r - 1) ∧
          posSw (s.runMicros ((scanCycles s.params).take (B - s.params.tPhase + 1))).swr = .row r ∧
          (s.runMicros ((scanCycles s.params).take
              ((B - s.params.tPhase + 1) + (s.params.tPhase + s.params.settle)))).memRead .frame (r + 1) =
            (s.inputAt (s.now + B + s.params.settle)).colIn) ∧
      (s.runMicros ((scanCycles s.params).take (1 + 15 * (s.params.settle + 1 + 3 * s.params.tPhase)))).swr = 0x7FFF ∧
      posSw 0x7FFF = .empty ∧ (s.runMicros (scanCycles s.params)).swr = 0xFFFE

/-- R12, R241: a wait whose condition does not hold takes one cycle and the operation is not over: WAITTICK without a tick,
SCAN while `tx_busy = 1`, HANDOFF while `tx_ready = 0`. -/
def Obligations.WaitsPollOneCycleAtATime : Prop :=
  ∀ s : State, s.input.rstN = true →
    (s.tickFlag = false → exec .waittick s = .next (s.opStart.elapse 1)) ∧
      (s.input.txBusy = true → exec .scan s = .next (s.opStart.elapse 1)) ∧
      (s.input.txReady = false → exec .handoff s = .next (s.opStart.elapse 1))

/-! ## LED Row Refresher -/

/-- R143: REFRESH of row `q = cur_row` takes `2 + 29T` cycles, `3 + 29T` at row 5. The byte is `led_state[q]` as it stands at
the start, whatever the port writes meanwhile (R72). The column chain holds it, the latch the LED-row stages as they were,
the rows are enabled, and ring and register advance, or at row 5 the register is 0 and an active bit is clocked in. -/
def Obligations.RefreshWritesOneRow : Prop :=
  ∀ (s : State) (b : Byte), s.params.Legal → s.curRow.toNat ≤ 5 → s.ledrLat = false →
    s.Calm ((if s.curRow = 5 then 3 else 2) + 29 * s.params.tPhase) → b = s.memRead .leds s.curRow.toNat →
    exec .refresh s =
      .next ({ s.opStart.elapse ((if s.curRow = 5 then 3 else 2) + 29 * s.params.tPhase) with
                ledc := if s.params.colMsbFirst then b else b.reverse
                ledrLatch := s.ledr
                ledrOe := true
                ledr := shiftIn s.ledr (decide (s.curRow = 5))
                curRow := if s.curRow = 5 then 0 else s.curRow + 1
                ledrLine := ⟨false, true⟩
                ledcLine := ⟨colBit s.params.colMsbFirst b 7, true⟩ }.retire)

/-- R143: with the LED ring at row `cur_row`, REFRESH lights LED `(q, c)` exactly when bit `c` of the byte is 0 (bit `7-c`
when the order is LSB first) and no other LED, and ring and register agree again. -/
def Obligations.RefreshLightsExactlyItsRow : Prop :=
  ∀ (s : State) (q : Nat), s.params.Legal → s.curRow.toNat = q → q ≤ 5 → s.ledrLat = false → s.ledr = 1#6 <<< q →
    s.Calm (3 + 29 * s.params.tPhase) →
    ∃ t, exec .refresh s = .next t ∧ posLed t.ledr = .row t.curRow.toNat ∧
      t.curRow.toNat = (if q = 5 then 0 else q + 1) ∧
      ∀ r c, t.lit r c = (decide (r = q) && decide (c < 8) &&
        !(s.memRead .leds q).getLsbD (if s.params.colMsbFirst then c else 7 - c))

/-- R237: inside REFRESH the rows are dark from its first cycle until the latch strobe is over, and enabled by the next cycle;
the column byte is in place before the strobe; until the rows are enabled the LED-row chain has not moved. -/
def Obligations.RefreshKeepsTheDisplayOrder : Prop :=
  ∀ (s : State) (q : BitVec 3) (b : Byte) (n : Nat), s.params.Legal → s.ledrLat = false →
    s.Calm (2 + 26 * s.params.tPhase) → n ≤ 2 + 26 * s.params.tPhase →
    (1 ≤ n → n ≤ 1 + 26 * s.params.tPhase →
      (s.runMicros ((refreshCycles s.params q b).take n)).ledrOe = false) ∧
    (n = 2 + 26 * s.params.tPhase → (s.runMicros ((refreshCycles s.params q b).take n)).ledrOe = true) ∧
    (1 + 24 * s.params.tPhase ≤ n →
      (s.runMicros ((refreshCycles s.params q b).take n)).ledc = if s.params.colMsbFirst then b else b.reverse) ∧
    (n ≤ 1 + 24 * s.params.tPhase →
      (s.runMicros ((refreshCycles s.params q b).take n)).ledrLatch = s.ledrLatch) ∧
    (2 + 24 * s.params.tPhase ≤ n →
      (s.runMicros ((refreshCycles s.params q b).take n)).ledrLatch = s.ledr) ∧
    (s.runMicros ((refreshCycles s.params q b).take n)).ledr = s.ledr

/-- R144: over consecutive refreshes from `cur_row = q` with the ring in step, the `k`-th latches row `q + k - 1` mod 6; ring
and register stay in step. -/
def Obligations.RefreshesTakeTheRowsInTurn : Prop :=
  ∀ (s : State) (q k : Nat), s.params.Legal → s.curRow.toNat = q → q ≤ 5 → s.ledrLat = false → s.ledr = 1#6 <<< q →
    s.Calm (k * (3 + 29 * s.params.tPhase)) →
    ∃ t, execAll (List.replicate k .refresh) s = .next t ∧ t.curRow.toNat = (q + k) % 6 ∧
      t.ledr = 1#6 <<< ((q + k) % 6) ∧ (1 ≤ k → t.ledrLatch = 1#6 <<< ((q + k - 1) % 6))

/-- R128: six refreshes from `cur_row = 0` leave the LED ring at row 0 with `cur_row = 0`, whatever the chain held. -/
def Obligations.LedRingHealsAfterSixRefreshes : Prop :=
  ∀ s : State, s.params.Legal → s.curRow = 0 → s.ledrLat = false → s.Calm (13 + 174 * s.params.tPhase) →
    ∃ t, execAll (List.replicate 6 .refresh) s = .next t ∧ t.ledr = 0b000001 ∧ t.curRow = 0

/-! ## Transport Handoff -/

/-- R145: HANDOFF is over at the end of the cycle with `tx_ready = 1`; it changes nothing but what goes by. -/
def Obligations.HandoffEndsInTheReadyCycle : Prop :=
  ∀ s : State, s.Calm 1 → s.input.txReady = true → exec .handoff s = .next (s.opStart.elapse 1).retire

/-- R145: HANDOFF in the ROM waits as long as the driver does, with `tx_valid = 1` in every cycle, for ever if it never
answers (U5). -/
def Obligations.HandoffWaitsForTheDriver : Prop :=
  ∀ (s : State) (n : Nat), s.source = .rom → s.upc = 5 → s.pending = [] → s.Calm (n + 1) →
    (∀ k < n, (s.inputAt (s.now + k)).txReady = false) →
    ∃ t, runSteps n s = .next t ∧ t = s.elapse n ∧ t.txValid = true ∧
      ((s.inputAt (s.now + n)).txReady = true →
        ∃ u, step t = .next u ∧ t.txAccepted = true ∧ u.upc = 6 ∧ u.busBytes = s.busBytes)

/-- R64: byte `i` of `tx_frame` sits at bits `8i+7 : 8i`, and the bus carries the bytes in that order. -/
def Obligations.TxFrameCarriesTheFrameBytes : Prop :=
  ∀ s : State, (∀ i < 16, s.txFrame.extractLsb' (8 * i) 8 = s.memRead .frame i) ∧
    s.busBytes.length = 16 ∧ ∀ i < 16, s.busBytes[i]? = some (s.memRead .frame i)

/-- R34: `tx_valid` is 1 in exactly the cycles in which the sequencer executes HANDOFF: in the ROM, at address 5; never with
`rst_n = 0`. -/
def Obligations.TxValidExactlyInHandoff : Prop :=
  ∀ s : State, (s.txValid = true ↔ s.input.rstN = true ∧ s.currentOp = some .handoff) ∧
    (s.source = .rom → (s.txValid = true ↔ s.input.rstN = true ∧ s.upc = 5))

/-! ## Tick Scheduler, Deadline Monitor -/

/-- R172: TIMERON takes one cycle: the timer enabled, both counters 0, the flag cleared (an overflow in that cycle wins,
R203). -/
def Obligations.TimeronStartsTheTimer : Prop :=
  ∀ s : State, s.Calm 1 →
    exec .timeron s =
      .next ({ s.opStart.elapse 1 with timerEn := true, preCnt := 0, tmrCnt := 0, tickFlag := s.ovf }.retire)

/-- R173: WAITTICK with the flag set takes one cycle and clears it, unless the timer overflows in that cycle. -/
def Obligations.WaittickConsumesTheTick : Prop :=
  ∀ s : State, s.Calm 1 → s.tickFlag = true →
    exec .waittick s = .next ({ s.opStart.elapse 1 with tickFlag := s.ovf }.retire)

/-- R174: CHECK with the flag clear at the start of its cycle takes one cycle and sets `upc` to 2; an overflow in that cycle
is not a miss (R208). -/
def Obligations.CheckWithoutMissReturnsToTheLoop : Prop :=
  ∀ s : State, s.Calm 1 → s.tickFlag = false →
    exec .check s = .next { s.opStart.elapse 1 with upc := 2, source := s.source.drop }

/-- R174, R209: CHECK with the flag set takes DeadlineMiss: `mode` 1, `upc` 7, and every other register as it goes on; the flag
stays set. -/
def Obligations.CheckWithTickTakesDeadlineMiss : Prop :=
  ∀ s : State, s.Calm 1 → s.tickFlag = true →
    exec .check s =
      .next { s.opStart.elapse 1 with mode := .fallback, upc := 7, source := s.source.drop, tickFlag := true }

/-- R175: FBENTER takes `4 + 152T` cycles and leaves the net effect its rule lists; no LED is lit. -/
def Obligations.FbenterShowsTheFirstRow : Prop :=
  ∀ s : State, s.params.Legal → s.ledrLat = false → s.Calm (4 + 152 * s.params.tPhase) →
    ∃ t, exec .fbenter s = .next t ∧
      t = { s.opStart.elapse (4 + 152 * s.params.tPhase) with
              swr := 0xFFFE, ledr := 0b000001, ledrLatch := 0b000001, ledc := 0xFF, swrLine := ⟨true, true⟩,
              ledrLine := ⟨false, true⟩, ledcLine := ⟨true, true⟩, ledrOe := true, curRow := 0, fbCnt := 0,
              fbPos := 0 }.retire ∧
      ∀ r c, t.lit r c = false

/-- R176: FBSTEP counts in one cycle; where the count reaches 40 it restarts it, moves the position modulo 8, and in `3T`
more cycles clocks one bit into the column chain, 0 from position 0 and 1 from any other. -/
def Obligations.FbstepCountsAndShifts : Prop :=
  ∀ s : State, s.params.Legal →
    (s.fbCnt ≠ 39 → s.Calm 1 → exec .fbstep s = .next ({ s.opStart.elapse 1 with fbCnt := s.fbCnt + 1 }.retire)) ∧
      (s.fbCnt = 39 → s.Calm (1 + 3 * s.params.tPhase) →
        exec .fbstep s =
          .next ({ s.opStart.elapse (1 + 3 * s.params.tPhase) with
                    fbCnt := 0
                    fbPos := s.fbPos + 1
                    ledc := shiftIn s.ledc (decide (s.fbPos ≠ 0))
                    ledcLine := ⟨decide (s.fbPos ≠ 0), true⟩ }.retire))

/-- R178: of `n` FBSTEPs run one after another (without the WAITTICKs that the ROM has between them, which touch none of this)
from FBENTER's state, none before the 40th lights an LED, and from the `40m`-th on the only lit LED is `(0, (m - 1) mod 8)`.
They take one cycle each, and `3T` more on every 40th. -/
def Obligations.FallbackWalksOneLed : Prop :=
  ∀ (s : State) (n : Nat), s.params.Legal → s.Calm (n + 3 * s.params.tPhase * (n / 40)) → s.fbCnt = 0 → s.fbPos = 0 →
    s.ledc = 0xFF → s.ledrOe = true → s.ledrLatch = 0b000001 →
    ∃ t, execAll (List.replicate n .fbstep) s = .next t ∧
      (n < 40 → ∀ r c, t.lit r c = false) ∧
      (40 ≤ n → ∀ r c, t.lit r c = (decide (r = 0) && decide (c = (n / 40 - 1) % 8))) ∧
      t.fbCnt.toNat = n % 40 ∧ t.fbPos.toNat = n / 40 % 8

/-! ## Timer, tick flag, LED write port -/

/-- R200, R201: what the timer's counters do in a cycle without TIMERON, and when it overflows in a cycle with `rst_n = 1`. -/
def Obligations.TimerCountsPrescalerAndTop : Prop :=
  ∀ (s : State) (m : Micro), s.params.Legal → s.preCnt < s.params.prescaler → s.tmrCnt ≤ s.params.top →
    Write.timerStart ∉ m →
    (s.cycle m).preCnt =
        (if s.timerEn then (if s.preCnt = s.params.prescaler - 1 then 0 else s.preCnt + 1) else s.preCnt) ∧
      (s.cycle m).tmrCnt =
        (if s.timerEn = true ∧ s.preCnt = s.params.prescaler - 1 then
          (if s.tmrCnt = s.params.top then 0 else s.tmrCnt + 1) else s.tmrCnt) ∧
      (s.input.rstN = true →
        (s.ovf = true ↔ s.timerEn = true ∧ s.preCnt = s.params.prescaler - 1 ∧ s.tmrCnt = s.params.top)) ∧
      (s.cycle m).tmrCnt ≤ s.params.top

/-- R203: the tick flag in every cycle, set wins; and the only cycles that clear it are TIMERON's and the one in which
WAITTICK consumes it. -/
def Obligations.TickFlagSetWins : Prop :=
  (∀ (s : State) (m : Micro), (s.cycle m).tickFlag = (s.ovf || (s.tickFlag && !m.any Write.clears))) ∧
    ∀ (i : Instr) (s : State) (ms : List Micro) (m : Micro), cyclesOf i s = .next ms → m ∈ ms →
      (m.any Write.clears = true ↔ i = .timeron ∨ (i = .waittick ∧ s.tickFlag = true))

/-- R202: with the cycles after TIMERON's numbered 1, 2, 3, …, and whatever the sequencer does in them but a second TIMERON,
the timer overflows in exactly those numbered `n·P` (no cycle up to and with the counted one has `rst_n = 0`: the timer does
not count there, R230); and the period in seconds is the source's formula. -/
def Obligations.TimerOverflowsEveryPeriod : Prop :=
  (∀ (s : State) (ms : List Micro), s.params.Legal → (∀ m ∈ ms, Write.timerStart ∉ m) → s.NoReset (ms.length + 2) →
    ∃ t, exec .timeron s = .next t ∧
      ((t.runMicros ms).ovf = true ↔ s.params.prescaler * (s.params.top + 1) ∣ ms.length + 1)) ∧
    ∀ p : Params, p.tickSeconds = (p.prescaler : ℚ) / (p.fClk : ℚ) * ((p.top : ℚ) + 1)

/-- R68: in every cycle with `rst_n = 1`, whatever the sequencer does and in either mode, the LED write port writes the
addressed row of 0..5 and nothing else; with address 6 or 7 it writes nothing; with `rst_n = 0` reset wins. -/
def Obligations.LedPortWritesTheAddressedRow : Prop :=
  ∀ (s : State) (m : Micro) (i : Nat), i < 6 →
    (s.cycle m).memRead .leds i =
        (if s.input.ledWrEn = true ∧ s.input.ledWrAddr.toNat = i then s.input.ledWrData else s.memRead .leds i) ∧
      (6 ≤ s.input.ledWrAddr.toNat → (s.cycle m).leds = s.leds) ∧
      s.resetCycle.memRead .leds i = 0xFF

/-! ## Invariants and whole-machine rules -/

/-- The reset state meets both invariants: registers in range, storage canonical, strobe low, mode as the address says; and
(before the startup ring reset, so without a claim on the chains) the rings in step. -/
def Obligations.ResetMeetsTheInvariant : Prop := State.reset.Inv ∧ State.reset.RingsInStep

/-- Every step keeps the invariant: the parameters legal, `upc`, `cur_row`, `pre_cnt`, `tmr_cnt` and `fb_cnt` in their ranges
(R21, R25 to R28), storage canonical, no operation left half done, the strobe low, and in the ROM the mode that the address
says (R212). -/
def Obligations.EveryStepKeepsTheInvariant : Prop := ∀ s t : State, s.Inv → step s = .next t → t.Inv

/-- In the ROM the machine never stops: every state that meets the invariant has a next one, in the ROM, that meets it, at
least one clk cycle later. -/
def Obligations.TheMicroprogramNeverStops : Prop :=
  ∀ s : State, s.Inv → s.source = .rom → ∃ t, step s = .next t ∧ t.source = .rom ∧ t.Inv ∧ s.now < t.now

/-- R123, R142, R143: without glitches every step keeps both rings in step: the switch ring at row 0 between operations, the
LED ring at `cur_row`. -/
def Obligations.EveryStepKeepsTheRingsInStep : Prop :=
  ∀ s t : State, s.Inv → s.RingsInStep → s.NeverGlitched → step s = .next t → t.RingsInStep

/-- R178, R210: from FALLBACK in the ROM no run ever stops, and as long as no cycle of it has `rst_n = 0` it stays there:
`mode` 1, `upc` in 7..9, `tx_valid` 0, the frame never written. -/
def Obligations.FallbackIsTerminal : Prop :=
  ∀ (s : State) (n : Nat), s.Inv → s.source = .rom → s.mode = .fallback →
    ∃ t, runSteps n s = .next t ∧
      (s.NoReset (t.now - s.now) →
        t.fallback = true ∧ 7 ≤ t.upc.toNat ∧ t.upc.toNat ≤ 9 ∧ t.txValid = false ∧ t.frame = s.frame)

/-- R22, R206: without a reset in its cycles, no operation but CHECK changes `mode`, and CHECK only to FALLBACK and only with the tick flag set. -/
def Obligations.OnlyCheckRaisesDeadlineMiss : Prop :=
  ∀ (i : Instr) (s t : State), exec i s = .next t → s.NoReset (t.now - s.now) → t.mode ≠ s.mode →
    i = .check ∧ s.tickFlag = true ∧ t.mode = .fallback

/-- 10_state.md, the columns "written by": without reset and glitches, each register and each chain keeps its value in every
operation that its rule does not name as a writer. -/
def Obligations.EachRegisterHasItsWriters : Prop :=
  ∀ (i : Instr) (s t : State), exec i s = .next t → s.NoReset (t.now - s.now) → s.NeverGlitched →
    t.params = s.params ∧ t.plan = s.plan ∧ (i ≠ .timeron → t.timerEn = s.timerEn) ∧
      (i ≠ .ringrst → i ≠ .refresh → i ≠ .fbenter → t.curRow = s.curRow) ∧
      (i ≠ .fbenter → i ≠ .fbstep → t.fbCnt = s.fbCnt ∧ t.fbPos = s.fbPos) ∧
      ((∀ row, i ≠ .sample row) → i ≠ .scan → ∀ a, t.memRead .frame a = s.memRead .frame a) ∧
      ((∀ v, i ≠ .setoe v) → i ≠ .ringrst → i ≠ .refresh → i ≠ .fbenter → t.ledrOe = s.ledrOe) ∧
      (i ≠ .latch → i ≠ .refresh → i ≠ .fbenter → t.ledrLat = s.ledrLat ∧ t.ledrLatch = s.ledrLatch) ∧
      ((∀ v, i ≠ .clkbit .swr v) → i ≠ .ringrst → i ≠ .scan → i ≠ .fbenter →
        t.swr = s.swr ∧ ((∀ v, i ≠ .setdata .swr v) → t.swrLine = s.swrLine)) ∧
      ((∀ v, i ≠ .clkbit .ledr v) → i ≠ .ringrst → i ≠ .refresh → i ≠ .fbenter →
        t.ledr = s.ledr ∧ ((∀ v, i ≠ .setdata .ledr v) → t.ledrLine = s.ledrLine)) ∧
      ((∀ v, i ≠ .clkbit .ledc v) → i ≠ .ringrst → i ≠ .refresh → i ≠ .fbenter → i ≠ .fbstep →
        t.ledc = s.ledc ∧ ((∀ v, i ≠ .setdata .ledc v) → t.ledcLine = s.ledcLine))

/-- R62: no operation writes LEDS: without reset, and without a strobe of the port in the operation's cycles, every element
reads as before. -/
def Obligations.OnlyThePortWritesLedStates : Prop :=
  ∀ (i : Instr) (s t : State), exec i s = .next t → s.NoReset (t.now - s.now) → s.NoLedWrite (t.now - s.now) →
    ∀ a, t.memRead .leds a = s.memRead .leds a

/-- R127: what the chains hold never steers the sequencer: two states that differ in the chains' contents only step to two
such states, or stop alike. -/
def Obligations.ChainContentsNeverSteerTheBlock : Prop :=
  ∀ s s' : State, s.block = s'.block → sameBlock (step s) (step s')

/-- R244: a step at operation level is a whole number of clk cycles at cycle level, as many as `now` counts, with resets and
glitches in any of them. -/
def Obligations.OperationLevelAgreesWithCycleLevel : Prop :=
  ∀ s t : State, step s = .next t → ∃ k, 1 ≤ k ∧ t.now = s.now + k ∧ runCycles k s = .next t

/-- R243: a scan cycle that consumes a fresh tick, with `w` cycles of waiting on `tx_busy` and `h` cycles of HANDOFF, is
`L = 21 + 77T + 15S + w + h` cycles long (one more at row 5) and ends in DeadlineMiss exactly when `L > P`. -/
def Obligations.DeadlineMissExactlyWhenTooLong : Prop :=
  ∀ (s : State) (w h L : Nat), s.Inv → s.source = .rom → s.upc = 2 → s.tickFlag = true → s.timerEn = true →
    s.preCnt = 0 → s.tmrCnt = 0 → 1 ≤ h →
    L = 21 + 77 * s.params.tPhase + 15 * s.params.settle + w + h + (if s.curRow = 5 then 1 else 0) → s.Calm L →
    (∀ k < w, (s.inputAt (s.now + 1 + (if s.curRow = 5 then 3 else 2) + 29 * s.params.tPhase + k)).txBusy = true) →
    (s.inputAt (s.now + 1 + (if s.curRow = 5 then 3 else 2) + 29 * s.params.tPhase + w)).txBusy = false →
    (∀ k, 2 ≤ k → k ≤ h → (s.inputAt (s.now + L - 1 - k)).txReady = false) →
    (s.inputAt (s.now + L - 2)).txReady = true →
    ∃ t, runSteps (4 + w + h) s = .next t ∧ t.now = s.now + L ∧
      (t.mode = .fallback ↔ s.params.tickPeriod < L) ∧ t.upc = if s.params.tickPeriod < L then 7 else 2
end

