-- ==== Sys2Proof/Laws/State.lean ====
section
/-! SUPPORT. What each update of the state leaves as it is, field by field, and what it sets. -/

namespace Sys2Proof.Machine

variable (s : State)

@[simp] theorem setLine_keeps (ch : Chain) (l : Line) :
    (s.setLine ch l).params = s.params ∧
      (s.setLine ch l).upc = s.upc ∧
      (s.setLine ch l).source = s.source ∧
      (s.setLine ch l).pending = s.pending ∧
      (s.setLine ch l).mode = s.mode ∧
      (s.setLine ch l).tickFlag = s.tickFlag ∧
      (s.setLine ch l).timerEn = s.timerEn ∧
      (s.setLine ch l).preCnt = s.preCnt ∧
      (s.setLine ch l).tmrCnt = s.tmrCnt ∧
      (s.setLine ch l).curRow = s.curRow ∧
      (s.setLine ch l).fbCnt = s.fbCnt ∧
      (s.setLine ch l).fbPos = s.fbPos ∧
      (s.setLine ch l).frame = s.frame ∧
      (s.setLine ch l).leds = s.leds ∧
      (s.setLine ch l).ledrLat = s.ledrLat ∧
      (s.setLine ch l).ledrOe = s.ledrOe ∧
      (s.setLine ch l).swr = s.swr ∧
      (s.setLine ch l).ledr = s.ledr ∧
      (s.setLine ch l).ledrLatch = s.ledrLatch ∧
      (s.setLine ch l).ledc = s.ledc ∧
      (s.setLine ch l).plan = s.plan ∧
      (s.setLine ch l).now = s.now := by
  cases ch <;> simp [State.setLine]

@[simp] theorem setLine_swr (l : Line) : s.setLine .swr l = { s with swrLine := l } := rfl

@[simp] theorem setLine_ledr (l : Line) : s.setLine .ledr l = { s with ledrLine := l } := rfl

@[simp] theorem setLine_ledc (l : Line) : s.setLine .ledc l = { s with ledcLine := l } := rfl

@[simp] theorem line_swr : s.line .swr = s.swrLine := rfl

@[simp] theorem line_ledr : s.line .ledr = s.ledrLine := rfl

@[simp] theorem line_ledc : s.line .ledc = s.ledcLine := rfl

@[simp] theorem setData_keeps (ch : Chain) (v : Bool) :
    (s.setData ch v).params = s.params ∧
      (s.setData ch v).upc = s.upc ∧
      (s.setData ch v).source = s.source ∧
      (s.setData ch v).pending = s.pending ∧
      (s.setData ch v).mode = s.mode ∧
      (s.setData ch v).tickFlag = s.tickFlag ∧
      (s.setData ch v).timerEn = s.timerEn ∧
      (s.setData ch v).preCnt = s.preCnt ∧
      (s.setData ch v).tmrCnt = s.tmrCnt ∧
      (s.setData ch v).curRow = s.curRow ∧
      (s.setData ch v).fbCnt = s.fbCnt ∧
      (s.setData ch v).fbPos = s.fbPos ∧
      (s.setData ch v).frame = s.frame ∧
      (s.setData ch v).leds = s.leds ∧
      (s.setData ch v).ledrLat = s.ledrLat ∧
      (s.setData ch v).ledrOe = s.ledrOe ∧
      (s.setData ch v).swr = s.swr ∧
      (s.setData ch v).ledr = s.ledr ∧
      (s.setData ch v).ledrLatch = s.ledrLatch ∧
      (s.setData ch v).ledc = s.ledc ∧
      (s.setData ch v).plan = s.plan ∧
      (s.setData ch v).now = s.now := by
  cases ch <;> simp [State.setData]

@[simp] theorem setClk_keeps (ch : Chain) (v : Bool) :
    (s.setClk ch v).params = s.params ∧
      (s.setClk ch v).upc = s.upc ∧
      (s.setClk ch v).source = s.source ∧
      (s.setClk ch v).pending = s.pending ∧
      (s.setClk ch v).mode = s.mode ∧
      (s.setClk ch v).tickFlag = s.tickFlag ∧
      (s.setClk ch v).timerEn = s.timerEn ∧
      (s.setClk ch v).preCnt = s.preCnt ∧
      (s.setClk ch v).tmrCnt = s.tmrCnt ∧
      (s.setClk ch v).curRow = s.curRow ∧
      (s.setClk ch v).fbCnt = s.fbCnt ∧
      (s.setClk ch v).fbPos = s.fbPos ∧
      (s.setClk ch v).frame = s.frame ∧
      (s.setClk ch v).leds = s.leds ∧
      (s.setClk ch v).ledrLat = s.ledrLat ∧
      (s.setClk ch v).ledrOe = s.ledrOe ∧
      (s.setClk ch v).swr = s.swr ∧
      (s.setClk ch v).ledr = s.ledr ∧
      (s.setClk ch v).ledrLatch = s.ledrLatch ∧
      (s.setClk ch v).ledc = s.ledc ∧
      (s.setClk ch v).plan = s.plan ∧
      (s.setClk ch v).now = s.now := by
  cases ch <;> simp [State.setClk]

@[simp] theorem shift_keeps (ch : Chain) (v : Bool) :
    (s.shift ch v).params = s.params ∧
      (s.shift ch v).upc = s.upc ∧
      (s.shift ch v).source = s.source ∧
      (s.shift ch v).pending = s.pending ∧
      (s.shift ch v).mode = s.mode ∧
      (s.shift ch v).tickFlag = s.tickFlag ∧
      (s.shift ch v).timerEn = s.timerEn ∧
      (s.shift ch v).preCnt = s.preCnt ∧
      (s.shift ch v).tmrCnt = s.tmrCnt ∧
      (s.shift ch v).curRow = s.curRow ∧
      (s.shift ch v).fbCnt = s.fbCnt ∧
      (s.shift ch v).fbPos = s.fbPos ∧
      (s.shift ch v).frame = s.frame ∧
      (s.shift ch v).leds = s.leds ∧
      (s.shift ch v).swrLine = s.swrLine ∧
      (s.shift ch v).ledrLine = s.ledrLine ∧
      (s.shift ch v).ledcLine = s.ledcLine ∧
      (s.shift ch v).ledrLat = s.ledrLat ∧
      (s.shift ch v).ledrOe = s.ledrOe ∧
      (s.shift ch v).ledrLatch = s.ledrLatch ∧
      (s.shift ch v).plan = s.plan ∧
      (s.shift ch v).now = s.now := by
  cases ch <;> simp [State.shift]

@[simp] theorem shift_swr (v : Bool) : s.shift .swr v = { s with swr := shiftIn s.swr v } := rfl

@[simp] theorem shift_ledr (v : Bool) : s.shift .ledr v = { s with ledr := shiftIn s.ledr v } := rfl

@[simp] theorem shift_ledc (v : Bool) : s.shift .ledc v = { s with ledc := shiftIn s.ledc v } := rfl

@[simp] theorem memWrite_keeps (sp : Space) (i : Nat) (v : Byte) :
    (s.memWrite sp i v).params = s.params ∧
      (s.memWrite sp i v).upc = s.upc ∧
      (s.memWrite sp i v).source = s.source ∧
      (s.memWrite sp i v).pending = s.pending ∧
      (s.memWrite sp i v).mode = s.mode ∧
      (s.memWrite sp i v).tickFlag = s.tickFlag ∧
      (s.memWrite sp i v).timerEn = s.timerEn ∧
      (s.memWrite sp i v).preCnt = s.preCnt ∧
      (s.memWrite sp i v).tmrCnt = s.tmrCnt ∧
      (s.memWrite sp i v).curRow = s.curRow ∧
      (s.memWrite sp i v).fbCnt = s.fbCnt ∧
      (s.memWrite sp i v).fbPos = s.fbPos ∧
      (s.memWrite sp i v).swrLine = s.swrLine ∧
      (s.memWrite sp i v).ledrLine = s.ledrLine ∧
      (s.memWrite sp i v).ledcLine = s.ledcLine ∧
      (s.memWrite sp i v).ledrLat = s.ledrLat ∧
      (s.memWrite sp i v).ledrOe = s.ledrOe ∧
      (s.memWrite sp i v).swr = s.swr ∧
      (s.memWrite sp i v).ledr = s.ledr ∧
      (s.memWrite sp i v).ledrLatch = s.ledrLatch ∧
      (s.memWrite sp i v).ledc = s.ledc ∧
      (s.memWrite sp i v).plan = s.plan ∧
      (s.memWrite sp i v).now = s.now := by
  unfold State.memWrite; cases sp <;> split <;> simp

@[simp] theorem memWrite_frame_leds (i : Nat) (v : Byte) : (s.memWrite .frame i v).leds = s.leds := by
  unfold State.memWrite; split <;> rfl

@[simp] theorem memWrite_leds_frame (i : Nat) (v : Byte) : (s.memWrite .leds i v).frame = s.frame := by
  unfold State.memWrite; split <;> rfl

@[simp] theorem raiseDeadlineMiss_keeps :
    (s.raiseDeadlineMiss).params = s.params ∧
      (s.raiseDeadlineMiss).source = s.source ∧
      (s.raiseDeadlineMiss).pending = s.pending ∧
      (s.raiseDeadlineMiss).tickFlag = s.tickFlag ∧
      (s.raiseDeadlineMiss).timerEn = s.timerEn ∧
      (s.raiseDeadlineMiss).preCnt = s.preCnt ∧
      (s.raiseDeadlineMiss).tmrCnt = s.tmrCnt ∧
      (s.raiseDeadlineMiss).curRow = s.curRow ∧
      (s.raiseDeadlineMiss).fbCnt = s.fbCnt ∧
      (s.raiseDeadlineMiss).fbPos = s.fbPos ∧
      (s.raiseDeadlineMiss).frame = s.frame ∧
      (s.raiseDeadlineMiss).leds = s.leds ∧
      (s.raiseDeadlineMiss).swrLine = s.swrLine ∧
      (s.raiseDeadlineMiss).ledrLine = s.ledrLine ∧
      (s.raiseDeadlineMiss).ledcLine = s.ledcLine ∧
      (s.raiseDeadlineMiss).ledrLat = s.ledrLat ∧
      (s.raiseDeadlineMiss).ledrOe = s.ledrOe ∧
      (s.raiseDeadlineMiss).swr = s.swr ∧
      (s.raiseDeadlineMiss).ledr = s.ledr ∧
      (s.raiseDeadlineMiss).ledrLatch = s.ledrLatch ∧
      (s.raiseDeadlineMiss).ledc = s.ledc ∧
      (s.raiseDeadlineMiss).plan = s.plan ∧
      (s.raiseDeadlineMiss).now = s.now := by
  simp [State.raiseDeadlineMiss]

@[simp] theorem raiseDeadlineMiss_sets : s.raiseDeadlineMiss.mode = .fallback ∧ s.raiseDeadlineMiss.upc = 7 :=
  ⟨rfl, rfl⟩

@[simp] theorem retire_keeps :
    (s.retire).params = s.params ∧
      (s.retire).pending = s.pending ∧
      (s.retire).mode = s.mode ∧
      (s.retire).tickFlag = s.tickFlag ∧
      (s.retire).timerEn = s.timerEn ∧
      (s.retire).preCnt = s.preCnt ∧
      (s.retire).tmrCnt = s.tmrCnt ∧
      (s.retire).curRow = s.curRow ∧
      (s.retire).fbCnt = s.fbCnt ∧
      (s.retire).fbPos = s.fbPos ∧
      (s.retire).frame = s.frame ∧
      (s.retire).leds = s.leds ∧
      (s.retire).swrLine = s.swrLine ∧
      (s.retire).ledrLine = s.ledrLine ∧
      (s.retire).ledcLine = s.ledcLine ∧
      (s.retire).ledrLat = s.ledrLat ∧
      (s.retire).ledrOe = s.ledrOe ∧
      (s.retire).swr = s.swr ∧
      (s.retire).ledr = s.ledr ∧
      (s.retire).ledrLatch = s.ledrLatch ∧
      (s.retire).ledc = s.ledc ∧
      (s.retire).plan = s.plan ∧
      (s.retire).now = s.now := by
  unfold State.retire; split <;> simp

@[simp] theorem timerCycle_keeps (clr : Bool) :
    (s.timerCycle clr).params = s.params ∧
      (s.timerCycle clr).upc = s.upc ∧
      (s.timerCycle clr).source = s.source ∧
      (s.timerCycle clr).pending = s.pending ∧
      (s.timerCycle clr).mode = s.mode ∧
      (s.timerCycle clr).timerEn = s.timerEn ∧
      (s.timerCycle clr).curRow = s.curRow ∧
      (s.timerCycle clr).fbCnt = s.fbCnt ∧
      (s.timerCycle clr).fbPos = s.fbPos ∧
      (s.timerCycle clr).frame = s.frame ∧
      (s.timerCycle clr).leds = s.leds ∧
      (s.timerCycle clr).swrLine = s.swrLine ∧
      (s.timerCycle clr).ledrLine = s.ledrLine ∧
      (s.timerCycle clr).ledcLine = s.ledcLine ∧
      (s.timerCycle clr).ledrLat = s.ledrLat ∧
      (s.timerCycle clr).ledrOe = s.ledrOe ∧
      (s.timerCycle clr).swr = s.swr ∧
      (s.timerCycle clr).ledr = s.ledr ∧
      (s.timerCycle clr).ledrLatch = s.ledrLatch ∧
      (s.timerCycle clr).ledc = s.ledc ∧
      (s.timerCycle clr).plan = s.plan ∧
      (s.timerCycle clr).now = s.now := by
  simp [State.timerCycle]

@[simp] theorem retire_sets :
    s.retire.upc = (if s.source = .rom then romNext s.upc else s.upc) ∧ s.retire.source = s.source.drop := by
  unfold State.retire Source.drop; split <;> simp_all

@[simp] theorem timerCycle_sets (clr : Bool) :
    (s.timerCycle clr).preCnt = s.nextPre ∧ (s.timerCycle clr).tmrCnt = s.nextTmr ∧
      (s.timerCycle clr).tickFlag = tickNext s.tickFlag s.ovf clr := ⟨rfl, rfl, rfl⟩

@[simp] theorem ledPort_keeps (inp : Input) :
    (s.ledPort inp).params = s.params ∧
      (s.ledPort inp).upc = s.upc ∧
      (s.ledPort inp).source = s.source ∧
      (s.ledPort inp).pending = s.pending ∧
      (s.ledPort inp).mode = s.mode ∧
      (s.ledPort inp).tickFlag = s.tickFlag ∧
      (s.ledPort inp).timerEn = s.timerEn ∧
      (s.ledPort inp).preCnt = s.preCnt ∧
      (s.ledPort inp).tmrCnt = s.tmrCnt ∧
      (s.ledPort inp).curRow = s.curRow ∧
      (s.ledPort inp).fbCnt = s.fbCnt ∧
      (s.ledPort inp).fbPos = s.fbPos ∧
      (s.ledPort inp).frame = s.frame ∧
      (s.ledPort inp).swrLine = s.swrLine ∧
      (s.ledPort inp).ledrLine = s.ledrLine ∧
      (s.ledPort inp).ledcLine = s.ledcLine ∧
      (s.ledPort inp).ledrLat = s.ledrLat ∧
      (s.ledPort inp).ledrOe = s.ledrOe ∧
      (s.ledPort inp).swr = s.swr ∧
      (s.ledPort inp).ledr = s.ledr ∧
      (s.ledPort inp).ledrLatch = s.ledrLatch ∧
      (s.ledPort inp).ledc = s.ledc ∧
      (s.ledPort inp).plan = s.plan ∧
      (s.ledPort inp).now = s.now := by
  unfold State.ledPort; split <;> simp

@[simp] theorem background_keeps (clr : Bool) :
    (s.background clr).params = s.params ∧
      (s.background clr).upc = s.upc ∧
      (s.background clr).source = s.source ∧
      (s.background clr).pending = s.pending ∧
      (s.background clr).mode = s.mode ∧
      (s.background clr).timerEn = s.timerEn ∧
      (s.background clr).curRow = s.curRow ∧
      (s.background clr).fbCnt = s.fbCnt ∧
      (s.background clr).fbPos = s.fbPos ∧
      (s.background clr).frame = s.frame ∧
      (s.background clr).swrLine = s.swrLine ∧
      (s.background clr).ledrLine = s.ledrLine ∧
      (s.background clr).ledcLine = s.ledcLine ∧
      (s.background clr).ledrLat = s.ledrLat ∧
      (s.background clr).ledrOe = s.ledrOe ∧
      (s.background clr).swr = s.swr ∧
      (s.background clr).ledr = s.ledr ∧
      (s.background clr).ledrLatch = s.ledrLatch ∧
      (s.background clr).ledc = s.ledc ∧
      (s.background clr).plan = s.plan := by
  simp [State.background]

@[simp] theorem background_sets (clr : Bool) :
    (s.background clr).preCnt = s.nextPre ∧ (s.background clr).tmrCnt = s.nextTmr ∧
      (s.background clr).tickFlag = tickNext s.tickFlag s.ovf clr ∧ (s.background clr).now = s.now + 1 ∧
      (s.background clr).leds = (s.ledPort s.input).leds := by
  refine ⟨?_, ?_, ?_, rfl, ?_⟩
  · simp [State.background]
  · simp [State.background]
  · simp [State.background]
  · simp only [State.background, State.ledPort]
    split
    · simp [State.memWrite, State.timerCycle]; split <;> rfl
    · rfl

@[simp] theorem disturb_keeps (g : Glitch) :
    (s.disturb g).params = s.params ∧
      (s.disturb g).upc = s.upc ∧
      (s.disturb g).source = s.source ∧
      (s.disturb g).pending = s.pending ∧
      (s.disturb g).mode = s.mode ∧
      (s.disturb g).tickFlag = s.tickFlag ∧
      (s.disturb g).timerEn = s.timerEn ∧
      (s.disturb g).preCnt = s.preCnt ∧
      (s.disturb g).tmrCnt = s.tmrCnt ∧
      (s.disturb g).curRow = s.curRow ∧
      (s.disturb g).fbCnt = s.fbCnt ∧
      (s.disturb g).fbPos = s.fbPos ∧
      (s.disturb g).frame = s.frame ∧
      (s.disturb g).leds = s.leds ∧
      (s.disturb g).swrLine = s.swrLine ∧
      (s.disturb g).ledrLine = s.ledrLine ∧
      (s.disturb g).ledcLine = s.ledcLine ∧
      (s.disturb g).ledrLat = s.ledrLat ∧
      (s.disturb g).ledrOe = s.ledrOe ∧
      (s.disturb g).plan = s.plan ∧
      (s.disturb g).now = s.now := by
  simp [State.disturb]

@[simp] theorem disturb_none : s.disturb Glitch.none = s := by simp [State.disturb, Glitch.none]

@[simp] theorem chainEdge_keeps (old : State) (ch : Chain) :
    (State.chainEdge old s ch).params = s.params ∧
      (State.chainEdge old s ch).upc = s.upc ∧
      (State.chainEdge old s ch).source = s.source ∧
      (State.chainEdge old s ch).pending = s.pending ∧
      (State.chainEdge old s ch).mode = s.mode ∧
      (State.chainEdge old s ch).tickFlag = s.tickFlag ∧
      (State.chainEdge old s ch).timerEn = s.timerEn ∧
      (State.chainEdge old s ch).preCnt = s.preCnt ∧
      (State.chainEdge old s ch).tmrCnt = s.tmrCnt ∧
      (State.chainEdge old s ch).curRow = s.curRow ∧
      (State.chainEdge old s ch).fbCnt = s.fbCnt ∧
      (State.chainEdge old s ch).fbPos = s.fbPos ∧
      (State.chainEdge old s ch).frame = s.frame ∧
      (State.chainEdge old s ch).leds = s.leds ∧
      (State.chainEdge old s ch).swrLine = s.swrLine ∧
      (State.chainEdge old s ch).ledrLine = s.ledrLine ∧
      (State.chainEdge old s ch).ledcLine = s.ledcLine ∧
      (State.chainEdge old s ch).ledrLat = s.ledrLat ∧
      (State.chainEdge old s ch).ledrOe = s.ledrOe ∧
      (State.chainEdge old s ch).ledrLatch = s.ledrLatch ∧
      (State.chainEdge old s ch).plan = s.plan ∧
      (State.chainEdge old s ch).now = s.now := by
  unfold State.chainEdge; split <;> simp

@[simp] theorem latchEdge_keeps (old : State) :
    (State.latchEdge old s).params = s.params ∧
      (State.latchEdge old s).upc = s.upc ∧
      (State.latchEdge old s).source = s.source ∧
      (State.latchEdge old s).pending = s.pending ∧
      (State.latchEdge old s).mode = s.mode ∧
      (State.latchEdge old s).tickFlag = s.tickFlag ∧
      (State.latchEdge old s).timerEn = s.timerEn ∧
      (State.latchEdge old s).preCnt = s.preCnt ∧
      (State.latchEdge old s).tmrCnt = s.tmrCnt ∧
      (State.latchEdge old s).curRow = s.curRow ∧
      (State.latchEdge old s).fbCnt = s.fbCnt ∧
      (State.latchEdge old s).fbPos = s.fbPos ∧
      (State.latchEdge old s).frame = s.frame ∧
      (State.latchEdge old s).leds = s.leds ∧
      (State.latchEdge old s).swrLine = s.swrLine ∧
      (State.latchEdge old s).ledrLine = s.ledrLine ∧
      (State.latchEdge old s).ledcLine = s.ledcLine ∧
      (State.latchEdge old s).ledrLat = s.ledrLat ∧
      (State.latchEdge old s).ledrOe = s.ledrOe ∧
      (State.latchEdge old s).swr = s.swr ∧
      (State.latchEdge old s).ledr = s.ledr ∧
      (State.latchEdge old s).ledc = s.ledc ∧
      (State.latchEdge old s).plan = s.plan ∧
      (State.latchEdge old s).now = s.now := by
  unfold State.latchEdge; split <;> simp

@[simp] theorem edges_keeps (old : State) :
    (State.edges old s).params = s.params ∧
      (State.edges old s).upc = s.upc ∧
      (State.edges old s).source = s.source ∧
      (State.edges old s).pending = s.pending ∧
      (State.edges old s).mode = s.mode ∧
      (State.edges old s).tickFlag = s.tickFlag ∧
      (State.edges old s).timerEn = s.timerEn ∧
      (State.edges old s).preCnt = s.preCnt ∧
      (State.edges old s).tmrCnt = s.tmrCnt ∧
      (State.edges old s).curRow = s.curRow ∧
      (State.edges old s).fbCnt = s.fbCnt ∧
      (State.edges old s).fbPos = s.fbPos ∧
      (State.edges old s).frame = s.frame ∧
      (State.edges old s).leds = s.leds ∧
      (State.edges old s).swrLine = s.swrLine ∧
      (State.edges old s).ledrLine = s.ledrLine ∧
      (State.edges old s).ledcLine = s.ledcLine ∧
      (State.edges old s).ledrLat = s.ledrLat ∧
      (State.edges old s).ledrOe = s.ledrOe ∧
      (State.edges old s).plan = s.plan ∧
      (State.edges old s).now = s.now := by
  simp [State.edges]

/-- What the chains and the latch hold after the edges of a cycle (R106, R107). -/
@[simp] theorem edges_sets (old : State) :
    (State.edges old s).swr = (if rises old.swrLine.clk s.swrLine.clk then shiftIn s.swr old.swrLine.data else s.swr) ∧
      (State.edges old s).ledr =
        (if rises old.ledrLine.clk s.ledrLine.clk then shiftIn s.ledr old.ledrLine.data else s.ledr) ∧
      (State.edges old s).ledc =
        (if rises old.ledcLine.clk s.ledcLine.clk then shiftIn s.ledc old.ledcLine.data else s.ledc) ∧
      (State.edges old s).ledrLatch = (if rises old.ledrLat s.ledrLat then old.ledr else s.ledrLatch) := by
  refine ⟨?_, ?_, ?_, ?_⟩ <;> simp only [State.edges, State.chainEdge, State.latchEdge] <;>
    (repeat' split) <;> simp_all

@[simp] theorem rises_self (b : Bool) : rises b b = false := by cases b <;> rfl

/-- A cycle without pin edges leaves the chains alone. -/
@[simp] theorem edges_self : State.edges s s = s := by
  apply State.ext <;> simp

@[simp] theorem opStart_keeps :
    (s.opStart).params = s.params ∧
      (s.opStart).upc = s.upc ∧
      (s.opStart).source = s.source ∧
      (s.opStart).mode = s.mode ∧
      (s.opStart).tickFlag = s.tickFlag ∧
      (s.opStart).timerEn = s.timerEn ∧
      (s.opStart).preCnt = s.preCnt ∧
      (s.opStart).tmrCnt = s.tmrCnt ∧
      (s.opStart).curRow = s.curRow ∧
      (s.opStart).fbCnt = s.fbCnt ∧
      (s.opStart).fbPos = s.fbPos ∧
      (s.opStart).frame = s.frame ∧
      (s.opStart).leds = s.leds ∧
      (s.opStart).swrLine = s.swrLine ∧
      (s.opStart).ledrLine = s.ledrLine ∧
      (s.opStart).ledcLine = s.ledcLine ∧
      (s.opStart).ledrLat = s.ledrLat ∧
      (s.opStart).ledrOe = s.ledrOe ∧
      (s.opStart).swr = s.swr ∧
      (s.opStart).ledr = s.ledr ∧
      (s.opStart).ledrLatch = s.ledrLatch ∧
      (s.opStart).ledc = s.ledc ∧
      (s.opStart).plan = s.plan ∧
      (s.opStart).now = s.now := by
  simp [State.opStart]

@[simp] theorem opStart_pending : s.opStart.pending = [] := rfl

/-- The inputs of a cycle depend on the plan only. -/
theorem inputAt_congr {s t : State} (h : t.plan = s.plan) (c : Nat) : t.inputAt c = s.inputAt c := by
  simp [State.inputAt, h]

/-- Laying down `rst_n = 1` for some cycles changes no other input of any cycle. -/
theorem inputAt_withoutReset (s : State) (n c : Nat) :
    (s.withoutReset n).inputAt c =
      if s.now ≤ c ∧ c < s.now + n then { s.inputAt c with rstN := true } else s.inputAt c := by
  by_cases h : c < max s.plan.length (s.now + n)
  · simp [State.inputAt, State.withoutReset, h]
  · have h1 : ¬(s.now ≤ c ∧ c < s.now + n) := by omega
    have h2 : s.plan[c]? = none := List.getElem?_eq_none (by omega)
    have h3 : (s.withoutReset n).plan[c]? = none := List.getElem?_eq_none (by simp [State.withoutReset]; omega)
    rw [if_neg h1]
    simp only [State.inputAt, h2, h3]

/-- The inputs of the current cycle depend on the plan and the cycle's number only. -/
theorem input_congr {s t : State} (h : t.plan = s.plan) (hn : t.now = s.now) : t.input = s.input := by
  simp [State.input, hn, inputAt_congr h]

end Sys2Proof.Machine
end

