-- ==== Sys2Proof/Laws/Chain.lean ====
section
/-! SUPPORT. The shift of a chain, stage by stage, and what a run of shifts leaves (R100, R106, R108). -/

namespace Sys2Proof.Machine

/-- Stage 0 takes the new bit, stage `i` the old stage `i - 1` (R100). -/
theorem shiftIn_stage {n : Nat} (x : BitVec n) (v : Bool) (i : Nat) :
    (shiftIn x v).getLsbD i = (decide (i < n) && if i = 0 then v else x.getLsbD (i - 1)) := by
  unfold shiftIn
  rcases i with _ | i
  · rcases n with _ | n
    · simp
    · simp
  · simp only [BitVec.getLsbD_or, BitVec.getLsbD_shiftLeft, BitVec.getLsbD_setWidth, BitVec.getLsbD_ofBool]
    by_cases h : i + 1 < n
    · simp [h]
    · simp [h]

/-- A run of shifts: `k`, of one level. -/
def shiftRun {n : Nat} (x : BitVec n) (v : Bool) : Nat → BitVec n
  | 0 => x
  | k + 1 => shiftRun (shiftIn x v) v k

/-- After `k` shifts of one level, the first `k` stages hold it and the others the old stages `k` below (R124). -/
theorem shiftRun_stage {n : Nat} (x : BitVec n) (v : Bool) (k i : Nat) :
    (shiftRun x v k).getLsbD i = (decide (i < n) && if i < k then v else x.getLsbD (i - k)) := by
  induction k generalizing x with
  | zero => by_cases h : i < n <;> simp [shiftRun, h]; exact BitVec.getLsbD_of_ge x i (by omega)
  | succ k ih =>
    rw [shiftRun, ih, shiftIn_stage]
    by_cases h : i < n
    · by_cases h1 : i < k
      · simp [h, h1, show i < k + 1 by omega]
      · by_cases h2 : i = k
        · subst h2; simp [h]; omega
        · have : ¬ i < k + 1 := by omega
          have h3 : i - k < n := by omega
          simp [h, h1, this, h3, show i - k ≠ 0 by omega, Nat.sub_sub]
    · simp [h]

/-- As many shifts of one level as the chain has stages, or more, leave every stage at that level: the flush of R122
does not depend on what the chain held. -/
theorem shiftRun_flush {n : Nat} (x y : BitVec n) (v : Bool) {k : Nat} (h : n ≤ k) :
    shiftRun x v k = shiftRun y v k := by
  apply BitVec.eq_of_getLsbD_eq
  intro i hi
  simp [shiftRun_stage, show i < k by omega]

end Sys2Proof.Machine
end

