-- ==== Sys2Proof/Laws/Memory.lean ====
section
/-! SUPPORT. The laws of the storage spaces: a read after a write, and the canonical form. -/

namespace Sys2Proof.Machine

variable (rest : Nat → Byte)

theorem read_erase_same (m : Memory) (a : Nat) : Memory.read rest (Memory.erase m a) a = rest a := by
  induction m with
  | nil => rfl
  | cons c m ih =>
    by_cases h : c.1 = a
    · simpa [Memory.erase, h] using ih
    · simpa [Memory.erase, Memory.read, h] using ih

theorem read_erase_other (m : Memory) {a b : Nat} (h : b ≠ a) :
    Memory.read rest (Memory.erase m a) b = Memory.read rest m b := by
  induction m with
  | nil => rfl
  | cons c m ih =>
    by_cases hc : c.1 = a
    · have : c.1 ≠ b := fun e => h (e.symm.trans hc)
      simp only [Memory.erase, Memory.read, List.filter_cons, hc] at ih ⊢
      simpa [hc ▸ this] using ih
    · by_cases hb : c.1 = b
      · simp [Memory.erase, Memory.read, hb, hb ▸ hc]
      · simpa [Memory.erase, Memory.read, hc, hb] using ih

theorem read_insert (m : Memory) (c : Host.Cell) (h : ∀ d ∈ m, d.1 ≠ c.1) (b : Nat) :
    Memory.read rest (Memory.insert m c) b = if c.1 = b then c.2 else Memory.read rest m b := by
  induction m with
  | nil => simp [Memory.insert, Memory.read]
  | cons d m ih =>
    unfold Memory.insert
    split
    · simp [Memory.read]
    · have hd : d.1 ≠ c.1 := h d (by simp)
      simp only [Memory.read, ih fun e he => h e (by simp [he])]
      by_cases h1 : d.1 = b <;> by_cases h2 : c.1 = b <;> simp_all

theorem erase_ne {m : Memory} {a : Nat} : ∀ d ∈ Memory.erase m a, d.1 ≠ a := by
  intro d hd
  simpa [Memory.erase] using (List.mem_filter.mp hd).2

/-- A read after a write to the same index gives the value written; a write leaves every other index alone. -/
theorem read_write (m : Memory) (a : Nat) (v : Byte) (b : Nat) :
    Memory.read rest (Memory.write rest m a v) b = if b = a then v else Memory.read rest m b := by
  unfold Memory.write
  by_cases hb : b = a
  · subst hb
    split
    · next h => simp [read_erase_same, h]
    · simp [read_insert rest (Memory.erase m b) (b, v) erase_ne]
  · split
    · simp [read_erase_other rest m hb]
    · rw [read_insert rest (Memory.erase m a) (a, v) erase_ne, read_erase_other rest m hb]
      simp [Ne.symm hb]

/-- Every cell of a memory in canonical form is in range and says something. -/
theorem wf_cons (size : Nat) (c : Host.Cell) (m : Memory) :
    Memory.wf size rest (c :: m) = true ↔
      c.1 < size ∧ c.2 ≠ rest c.1 ∧ (∀ d ∈ m, c.1 < d.1) ∧ Memory.wf size rest m = true := by
  simp [Memory.wf, and_assoc]

theorem wf_erase {size : Nat} {m : Memory} (h : Memory.wf size rest m = true) (a : Nat) :
    Memory.wf size rest (Memory.erase m a) = true := by
  induction m with
  | nil => rfl
  | cons c m ih =>
    obtain ⟨h1, h2, h3, h4⟩ := (wf_cons rest size c m).mp h
    by_cases hc : c.1 = a
    · simpa [Memory.erase, hc] using ih h4
    · have : Memory.erase (c :: m) a = c :: Memory.erase m a := by simp [Memory.erase, hc]
      rw [this, wf_cons]
      exact ⟨h1, h2, fun d hd => h3 d (List.mem_filter.mp hd).1, ih h4⟩

theorem mem_insert {m : Memory} {c d : Host.Cell} : d ∈ Memory.insert m c ↔ d = c ∨ d ∈ m := by
  induction m with
  | nil => simp [Memory.insert]
  | cons e m ih =>
    unfold Memory.insert
    split
    · simp
    · simp only [List.mem_cons, ih]
      tauto

theorem wf_insert {size : Nat} {m : Memory} (h : Memory.wf size rest m = true) {c : Host.Cell} (hs : c.1 < size)
    (hv : c.2 ≠ rest c.1) (hn : ∀ d ∈ m, d.1 ≠ c.1) : Memory.wf size rest (Memory.insert m c) = true := by
  induction m with
  | nil => simp [Memory.insert, Memory.wf, hs, hv]
  | cons e m ih =>
    obtain ⟨h1, h2, h3, h4⟩ := (wf_cons rest size e m).mp h
    unfold Memory.insert
    split
    · next hlt =>
      rw [wf_cons]
      refine ⟨hs, hv, ?_, h⟩
      intro d hd
      rcases List.mem_cons.mp hd with rfl | hd
      · exact hlt
      · exact hlt.trans (h3 d hd)
    · next hlt =>
      have he : e.1 ≠ c.1 := hn e (by simp)
      rw [wf_cons]
      refine ⟨h1, h2, ?_, ih h4 fun d hd => hn d (by simp [hd])⟩
      intro d hd
      rcases mem_insert.mp hd with rfl | hd
      · omega
      · exact h3 d hd

/-- A write keeps the canonical form. -/
theorem wf_write {size : Nat} {m : Memory} (h : Memory.wf size rest m = true) {a : Nat} (ha : a < size) (v : Byte) :
    Memory.wf size rest (Memory.write rest m a v) = true := by
  unfold Memory.write
  split
  · exact wf_erase rest h a
  · next hv => exact wf_insert rest (wf_erase rest h a) ha hv erase_ne

/-- `MemRead` after `MemWrite` in the same space (R60). -/
theorem memRead_memWrite (s : State) (sp : Space) {i : Nat} (hi : i < sp.size) (v : Byte) (j : Nat) :
    (s.memWrite sp i v).memRead sp j = if j = i then v else s.memRead sp j := by
  cases sp <;> simp [State.memRead, State.memWrite, State.space, hi, read_write]

/-- `MemRead` of the other space after a `MemWrite` (R60). -/
theorem memRead_memWrite_other (s : State) {sp sq : Space} (h : sq ≠ sp) (i : Nat) (v : Byte) (j : Nat) :
    (s.memWrite sp i v).memRead sq j = s.memRead sq j := by
  cases sp <;> cases sq <;> simp_all [State.memRead, State.space]

/-- `MemRead` depends on the parameters and the space's contents only. -/
theorem memRead_congr {s t : State} (sp : Space) (hp : t.params = s.params) (hm : t.space sp = s.space sp) (i : Nat) :
    t.memRead sp i = s.memRead sp i := by simp [State.memRead, hp, hm]

/-- `MemWrite` keeps the canonical form of both spaces. -/
theorem memWrite_wf (s : State) (sp sq : Space) (i : Nat) (v : Byte)
    (h : Memory.wf sq.size (sq.unlisted s.params) (s.space sq) = true) :
    Memory.wf sq.size (sq.unlisted s.params) ((s.memWrite sp i v).space sq) = true := by
  unfold State.memWrite
  split
  · next hi => cases sp <;> cases sq <;> first | exact h | exact wf_write _ h hi v
  · exact h

/-- Both spaces of the reset state are in canonical form. -/
theorem reset_memory_wf (sp : Space) :
    Memory.wf sp.size (sp.unlisted State.reset.params) (State.reset.space sp) = true := by cases sp <;> rfl

end Sys2Proof.Machine
end

