-- ==== Sys2Proof/Laws/Run.lean ====
section
/-! SUPPORT. What a cycle and a run of cycles do, said once: a cycle is what the sequencer and the chains do beside
what the timer, the LED write port and the count of cycles do (70_reset_and_hazards.md R244: nothing observes the
interleaving inside an operation). -/

namespace Sys2Proof.Machine

/-- `s` with the timer's counters, the tick flag, LEDS and the cycle's number of `c`. -/
def State.withClock (s c : State) : State :=
  { s with preCnt := c.preCnt, tmrCnt := c.tmrCnt, tickFlag := c.tickFlag, leds := c.leds, now := c.now }

/-- What the sequencer and the chains do in a cycle with the inputs `inp`. -/
def State.seqCycle (inp : Input) (s : State) (m : Micro) : State := State.edges s (m.foldl (State.write inp) s)

/-- What the sequencer and the chains do in the cycles `ms`, the first of them cycle `c`. -/
def State.seqRun (s : State) : List Micro → Nat → State
  | [], _ => s
  | m :: ms, c => (State.seqCycle (s.inputAt c) s m).seqRun ms (c + 1)

/-- No write of the cycle clears the tick flag. -/
abbrev Plain (m : Micro) : Prop := m.any Write.clears = false

/-- Two states that the timer, the LED write port and the inputs treat alike. -/
structure ClockEq (a b : State) : Prop where
  params : a.params = b.params
  timerEn : a.timerEn = b.timerEn
  preCnt : a.preCnt = b.preCnt
  tmrCnt : a.tmrCnt = b.tmrCnt
  tickFlag : a.tickFlag = b.tickFlag
  leds : a.leds = b.leds
  plan : a.plan = b.plan
  now : a.now = b.now

/-! ## Calm cycles -/

theorem calm_zero (s : State) : s.Calm 0 := fun k h => absurd h (Nat.not_lt_zero k)

/-- Calm cycles are calm in the first part and, from there, in the second. -/
theorem calm_add (s : State) (a b : Nat) :
    s.Calm (a + b) ↔ s.Calm a ∧ ∀ t : State, t.plan = s.plan → t.now = s.now + a → t.Calm b := by
  constructor
  · intro h
    refine ⟨fun k hk => h k (by omega), ?_⟩
    intro t hp hn k hk
    rw [inputAt_congr hp, hn, Nat.add_assoc]
    exact h (a + k) (by omega)
  · rintro ⟨h1, h2⟩ k hk
    by_cases hka : k < a
    · exact h1 k hka
    · have := h2 { s with now := s.now + a } rfl rfl (k - a) (by omega)
      have e : s.now + a + (k - a) = s.now + k := by omega
      simpa [State.inputAt, e] using this

theorem calm_first {s : State} {n : Nat} (h : s.Calm (n + 1)) :
    s.input.rstN = true ∧ s.input.glitch = Glitch.none := by
  have := h 0 (by omega)
  simpa [State.input] using this

theorem calm_mono {s : State} {a b : Nat} (h : s.Calm b) (hab : a ≤ b) : s.Calm a := fun k hk => h k (by omega)

/-- Calm depends on the plan and the cycle's number only. -/
theorem calm_congr {s t : State} (hp : t.plan = s.plan) (hn : t.now = s.now) {n : Nat} (h : s.Calm n) : t.Calm n := by
  intro k hk
  rw [inputAt_congr hp, hn]
  exact h k hk

/-! ## Writes -/

/-- No write of the sequencer touches the parameters, the micro-state, the plan, the number of the cycle, LEDS, the
flag or the chains. -/
@[simp] theorem write_keeps (inp : Input) (s : State) (w : Write) :
    (s.write inp w).params = s.params ∧ (s.write inp w).pending = s.pending ∧ (s.write inp w).plan = s.plan ∧
      (s.write inp w).now = s.now ∧ (s.write inp w).leds = s.leds ∧ (s.write inp w).tickFlag = s.tickFlag ∧
      (s.write inp w).swr = s.swr ∧ (s.write inp w).ledr = s.ledr ∧ (s.write inp w).ledrLatch = s.ledrLatch ∧
      (s.write inp w).ledc = s.ledc := by
  cases w <;> simp [State.write]

theorem foldl_write_keeps (inp : Input) (m : Micro) (s : State) :
    (m.foldl (State.write inp) s).params = s.params ∧ (m.foldl (State.write inp) s).pending = s.pending ∧
      (m.foldl (State.write inp) s).plan = s.plan ∧ (m.foldl (State.write inp) s).now = s.now ∧
      (m.foldl (State.write inp) s).leds = s.leds ∧ (m.foldl (State.write inp) s).tickFlag = s.tickFlag ∧
      (m.foldl (State.write inp) s).swr = s.swr ∧ (m.foldl (State.write inp) s).ledr = s.ledr ∧
      (m.foldl (State.write inp) s).ledrLatch = s.ledrLatch ∧ (m.foldl (State.write inp) s).ledc = s.ledc := by
  induction m generalizing s with
  | nil => simp
  | cons w m ih => simpa using ih (s.write inp w)

/-- A write that does not clear the flag leaves the timer alone and does not see it. -/
theorem write_withClock (inp : Input) (s c : State) {w : Write} (h : w.clears = false) :
    (s.withClock c).write inp w = (s.write inp w).withClock c := by
  cases w with
  | data ch v => cases ch <;> rfl
  | clk ch v => cases ch <;> rfl
  | capture row => simp only [State.write, State.memWrite, State.withClock]; split <;> rfl
  | header => simp only [State.write, State.memWrite, State.withClock]; split <;> rfl
  | retire => simp only [State.write, State.retire, State.withClock]; split <;> rfl
  | timerStart => cases h
  | consume => cases h
  | _ => rfl

theorem foldl_write_withClock (inp : Input) (c : State) {m : Micro} (h : Plain m) (s : State) :
    m.foldl (State.write inp) (s.withClock c) = (m.foldl (State.write inp) s).withClock c := by
  induction m generalizing s with
  | nil => rfl
  | cons w m ih =>
    have hw : w.clears = false ∧ Plain m := by simpa [Plain] using h
    simp only [List.foldl_cons, write_withClock inp s c hw.1]
    exact ih hw.2 _

theorem foldl_write_timer (inp : Input) {m : Micro} (h : Plain m) (s : State) :
    (m.foldl (State.write inp) s).timerEn = s.timerEn ∧ (m.foldl (State.write inp) s).preCnt = s.preCnt ∧
      (m.foldl (State.write inp) s).tmrCnt = s.tmrCnt := by
  induction m generalizing s with
  | nil => simp
  | cons w m ih =>
    have hw : w.clears = false ∧ Plain m := by simpa [Plain] using h
    have hk : (s.write inp w).timerEn = s.timerEn ∧ (s.write inp w).preCnt = s.preCnt ∧
        (s.write inp w).tmrCnt = s.tmrCnt := by
      cases w <;> simp_all [State.write, Write.clears]
    simpa [hk] using ih hw.2 (s.write inp w)

theorem edges_withClock (old s c d : State) :
    State.edges (old.withClock d) (s.withClock c) = (State.edges old s).withClock c := by
  apply State.ext <;> simp [State.withClock]

/-! ## One cycle -/

theorem background_eq (s : State) : s.background false = s.withClock (s.background false) := by
  apply State.ext <;> simp [State.withClock]

/-- An idle calm cycle does what the timer, the LED write port and the count do. -/
theorem idle_cycle {s : State} (h : s.input.glitch = Glitch.none) : s.cycle [] = s.background false := by
  have e : State.edges s (s.background false) = s.background false := by
    apply State.ext <;> simp
  simp [State.cycle, h, e]

/-- A calm cycle that does not clear the flag: the sequencer's part beside the background. -/
theorem cycle_split {s : State} {m : Micro} (hm : Plain m) (h : s.input.glitch = Glitch.none) :
    s.cycle m = (State.seqCycle s.input s m).withClock (s.cycle []) := by
  rw [idle_cycle h]
  simp only [State.cycle, State.seqCycle, h, disturb_none]
  rw [show m.any Write.clears = false from hm, background_eq s, foldl_write_withClock _ _ hm]
  have := edges_withClock s (m.foldl (State.write s.input) s) (s.background false) s
  simpa [State.withClock] using this

@[simp] theorem seqCycle_nil (inp : Input) (s : State) : State.seqCycle inp s [] = s := by simp [State.seqCycle]

theorem seqCycle_keeps (inp : Input) (s : State) (m : Micro) :
    (State.seqCycle inp s m).params = s.params ∧ (State.seqCycle inp s m).plan = s.plan ∧
      (State.seqCycle inp s m).now = s.now ∧ (State.seqCycle inp s m).leds = s.leds ∧
      (State.seqCycle inp s m).tickFlag = s.tickFlag ∧ (State.seqCycle inp s m).pending = s.pending := by
  have := foldl_write_keeps inp m s
  simp [State.seqCycle, this]

theorem seqCycle_timer (inp : Input) (s : State) {m : Micro} (h : Plain m) :
    (State.seqCycle inp s m).timerEn = s.timerEn ∧ (State.seqCycle inp s m).preCnt = s.preCnt ∧
      (State.seqCycle inp s m).tmrCnt = s.tmrCnt := by
  have := foldl_write_timer inp h s
  simp [State.seqCycle, this]

theorem seqCycle_withClock (inp : Input) (s c : State) {m : Micro} (h : Plain m) :
    State.seqCycle inp (s.withClock c) m = (State.seqCycle inp s m).withClock c := by
  simp only [State.seqCycle, foldl_write_withClock inp c h]
  exact edges_withClock s _ c c

/-- What any cycle leaves alone, and that the number of the cycle goes up by one. -/
theorem cycle_keeps (s : State) (m : Micro) :
    (s.cycle m).params = s.params ∧ (s.cycle m).pending = s.pending ∧ (s.cycle m).plan = s.plan ∧
      (s.cycle m).now = s.now + 1 := by
  have := foldl_write_keeps s.input m (s.background (m.any Write.clears))
  simp [State.cycle, this]

theorem resetCycle_keeps (s : State) :
    s.resetCycle.params = s.params ∧ s.resetCycle.pending = [] ∧ s.resetCycle.plan = s.plan ∧
      s.resetCycle.now = s.now + 1 := by
  simp [State.resetCycle, State.resetBlock]

/-! ## Runs -/

@[simp] theorem runMicros_nil (s : State) : s.runMicros [] = s := rfl

theorem runMicros_cons {s : State} {m : Micro} {ms : List Micro} (h : s.input.rstN = true) :
    s.runMicros (m :: ms) = (s.cycle m).runMicros ms := by simp [State.runMicros, h]

theorem runMicros_reset {s : State} {m : Micro} {ms : List Micro} (h : s.input.rstN = false) :
    s.runMicros (m :: ms) = s.resetCycle := by simp [State.runMicros, h]

theorem calm_cycle {s : State} {m : Micro} {n : Nat} (h : s.Calm (n + 1)) : (s.cycle m).Calm n := by
  rw [Nat.add_comm] at h
  exact ((calm_add s 1 n).mp h).2 _ (cycle_keeps s m).2.2.1 (cycle_keeps s m).2.2.2

/-- A calm run keeps the parameters and the plan and takes as many cycles as it has. -/
theorem runMicros_keeps {s : State} {ms : List Micro} (h : s.Calm ms.length) :
    (s.runMicros ms).params = s.params ∧ (s.runMicros ms).plan = s.plan ∧
      (s.runMicros ms).now = s.now + ms.length ∧ (s.runMicros ms).pending = s.pending := by
  induction ms generalizing s with
  | nil => simp
  | cons m ms ih =>
    rw [runMicros_cons (calm_first h).1]
    obtain ⟨h1, h2, h3, h4⟩ := ih (calm_cycle (m := m) h)
    obtain ⟨k1, k2, k3, k4⟩ := cycle_keeps s m
    refine ⟨h1.trans k1, h2.trans k3, ?_, h4.trans k2⟩
    rw [h3, k4, List.length_cons]; omega

/-- Calm cycles one after another. -/
theorem runMicros_append {s : State} {a b : List Micro} (h : s.Calm a.length) :
    s.runMicros (a ++ b) = (s.runMicros a).runMicros b := by
  induction a generalizing s with
  | nil => rfl
  | cons m a ih =>
    rw [List.cons_append, runMicros_cons (calm_first h).1, runMicros_cons (calm_first h).1, ih (calm_cycle h)]

/-- States that the background treats alike stay so in idle calm cycles. -/
theorem background_clockEq {a b : State} (h : ClockEq a b) : ClockEq (a.background false) (b.background false) := by
  obtain ⟨h1, h2, h3, h4, h5, h6, h7, h8⟩ := h
  have hi : a.input = b.input := input_congr h7 h8
  refine ⟨by simp [h1], by simp [h2], ?_, ?_, ?_, ?_, by simp [h7], by simp [h8]⟩
  · simp [State.nextPre, State.tstep, h1, h2, h3]
  · simp [State.nextTmr, State.ovf, State.tstep, h1, h2, h3, h4]
  · simp [State.ovf, State.tstep, h1, h2, h3, h4, h5]
  · simp only [background_sets, hi, State.ledPort, State.memWrite, h1, h6]
    split
    · split
      · simp
      · simp [h6]
    · rfl

theorem elapse_clockEq {a b : State} (h : ClockEq a b) {n : Nat} (hc : a.Calm n) :
    ClockEq (a.elapse n) (b.elapse n) := by
  induction n generalizing a b with
  | zero => exact h
  | succ n ih =>
    have hcb : b.Calm (n + 1) := calm_congr h.plan.symm h.now.symm hc
    simp only [State.elapse, List.replicate_succ] at ih ⊢
    rw [runMicros_cons (calm_first hc).1, runMicros_cons (calm_first hcb).1]
    refine ih ?_ (calm_cycle hc)
    rw [idle_cycle (calm_first hc).2, idle_cycle (calm_first hcb).2]
    exact background_clockEq h

theorem withClock_congr (s : State) {c d : State} (h : ClockEq c d) : s.withClock c = s.withClock d := by
  simp [State.withClock, h.preCnt, h.tmrCnt, h.tickFlag, h.leds, h.now]

@[simp] theorem withClock_withClock (s c d : State) : (s.withClock c).withClock d = s.withClock d := rfl

@[simp] theorem withClock_self (s : State) : s.withClock s = s := rfl

theorem inputAt_withClock (s c : State) (n : Nat) : (s.withClock c).inputAt n = s.inputAt n := rfl

theorem seqRun_withClock {ms : List Micro} (h : ∀ m ∈ ms, Plain m) (s c : State) (n : Nat) :
    (s.withClock c).seqRun ms n = (s.seqRun ms n).withClock c := by
  induction ms generalizing s n with
  | nil => rfl
  | cons m ms ih =>
    simp only [State.seqRun, inputAt_withClock, seqCycle_withClock _ s c (h m (by simp))]
    exact ih (fun m' hm => h m' (by simp [hm])) _ _

/-- A calm run of cycles that do not clear the flag is what the sequencer and the chains do, beside as many idle
cycles of the rest (R244). -/
theorem run_split {ms : List Micro} (hm : ∀ m ∈ ms, Plain m) {s : State} (h : s.Calm ms.length) :
    s.runMicros ms = (s.seqRun ms s.now).withClock (s.elapse ms.length) := by
  induction ms generalizing s with
  | nil => rfl
  | cons m ms ih =>
    have h0 := calm_first h
    have hp : Plain m := hm m (by simp)
    have hms : ∀ m' ∈ ms, Plain m' := fun m' h' => hm m' (by simp [h'])
    rw [runMicros_cons h0.1, ih hms (calm_cycle h)]
    obtain ⟨k1, k2, k3, k4⟩ := cycle_keeps s m
    have hidle : ClockEq (s.cycle m) (s.cycle []) := by
      rw [cycle_split hp h0.2, idle_cycle h0.2]
      have := seqCycle_keeps s.input s m
      have ht := seqCycle_timer s.input s hp
      exact ⟨by simp [State.withClock, this], by simp [State.withClock, ht], rfl, rfl, rfl, rfl,
        by simp [State.withClock, this], rfl⟩
    have he : s.elapse (m :: ms).length = (s.cycle []).elapse ms.length := by
      simp only [State.elapse, List.length_cons, List.replicate_succ, runMicros_cons h0.1]
    rw [he, withClock_congr _ (elapse_clockEq hidle (calm_cycle h)), k4]
    conv_lhs => rw [cycle_split hp h0.2]
    rw [seqRun_withClock hms, withClock_withClock]
    rfl

/-! ## The sequencer's part of a run, piece by piece -/

theorem seqRun_keeps (ms : List Micro) (s : State) (n : Nat) :
    (s.seqRun ms n).params = s.params ∧ (s.seqRun ms n).plan = s.plan ∧ (s.seqRun ms n).pending = s.pending := by
  induction ms generalizing s n with
  | nil => simp [State.seqRun]
  | cons m ms ih =>
    obtain ⟨h1, h2, h3⟩ := ih (State.seqCycle (s.inputAt n) s m) (n + 1)
    obtain ⟨k1, k2, _, _, _, k6⟩ := seqCycle_keeps (s.inputAt n) s m
    exact ⟨h1.trans k1, h2.trans k2, h3.trans k6⟩

theorem seqRun_append (a b : List Micro) (s : State) (n : Nat) :
    s.seqRun (a ++ b) n = (s.seqRun a n).seqRun b (n + a.length) := by
  induction a generalizing s n with
  | nil => rfl
  | cons m a ih =>
    simp only [List.cons_append, State.seqRun, ih, List.length_cons]
    congr 1
    omega

theorem seqRun_idle (k : Nat) (s : State) (n : Nat) : s.seqRun (List.replicate k []) n = s := by
  induction k generalizing n with
  | zero => rfl
  | succ k ih => simp [List.replicate_succ, State.seqRun, ih]

theorem length_phase {t : Nat} (ht : 1 ≤ t) (m : Micro) : (phase t m).length = t := by simp [phase]; omega

@[simp] theorem seqRun_phase (t : Nat) (m : Micro) (s : State) (n : Nat) :
    s.seqRun (phase t m) n = State.seqCycle (s.inputAt n) s m := by simp [phase, State.seqRun, seqRun_idle]

theorem length_clockBit {t : Nat} (ht : 1 ≤ t) (ch : Chain) (v : Bool) : (clockBit t ch v).length = 3 * t := by
  simp [clockBit, length_phase ht]; omega

/-- One bit clock: the data pin at the level, the clock pin high, and the chain shifted once, whatever the pins were
before (R100). -/
theorem seqRun_clockBit (t : Nat) (ch : Chain) (v : Bool) (s : State) (n : Nat) :
    s.seqRun (clockBit t ch v) n = (s.setLine ch ⟨v, true⟩).shift ch v := by
  simp only [clockBit, seqRun_append, seqRun_phase]
  cases ch <;> apply State.ext <;> simp [State.seqCycle, State.write, State.setData, State.setClk, rises]

theorem length_latchStrobe {t : Nat} (ht : 1 ≤ t) : (latchStrobe t).length = 2 * t := by
  simp [latchStrobe, length_phase ht]; omega

/-- The latch strobe from its low level: the latch takes the LED-row stages, the strobe is low again (R102, R107). -/
theorem seqRun_latchStrobe (t : Nat) (s : State) (h : s.ledrLat = false) (n : Nat) :
    s.seqRun (latchStrobe t) n = { s with ledrLatch := s.ledr } := by
  simp only [latchStrobe, seqRun_append, seqRun_phase]
  apply State.ext <;> simp [State.seqCycle, State.write, rises, h]

@[simp] theorem seqRun_setData (ch : Chain) (v : Bool) (s : State) (n : Nat) :
    s.seqRun (setDataCycles ch v) n = s.setData ch v := by
  cases ch <;> apply State.ext <;> simp [setDataCycles, State.seqRun, State.seqCycle, State.write, State.setData]

@[simp] theorem seqRun_setOe (v : Bool) (s : State) (n : Nat) :
    s.seqRun (setOeCycles v) n = { s with ledrOe := v } := by
  apply State.ext <;> simp [setOeCycles, State.seqRun, State.seqCycle, State.write]

/-- The settling wait, then the capture of the column input as it stands in the last cycle (R140). -/
theorem seqRun_sample (k : Nat) (row : BitVec 4) (s : State) (n : Nat) :
    s.seqRun (sampleCycles k row) n = s.memWrite .frame (row.toNat + 1) (s.inputAt (n + k)).colIn := by
  simp only [sampleCycles, seqRun_append, seqRun_idle, List.length_replicate, State.seqRun]
  apply State.ext <;> simp [State.seqCycle, State.write]

/-- The end of an operation adds the move to its successor to what its cycles do (R171). -/
theorem seqRun_whole {ms : List Micro} (h : ms ≠ []) (s : State) (n : Nat) :
    s.seqRun (whole ms) n = (s.seqRun ms n).retire := by
  unfold whole
  induction ms generalizing s n with
  | nil => exact absurd rfl h
  | cons m ms ih =>
    cases ms with
    | nil =>
      simp only [inLast, State.seqRun, State.seqCycle, List.foldl_append, List.foldl_cons, List.foldl_nil, State.write]
      generalize m.foldl (State.write (s.inputAt n)) s = x
      apply State.ext <;> simp
    | cons m' ms => simpa [inLast, State.seqRun] using ih (by simp) _ _

theorem length_inLast (w : Micro) {ms : List Micro} (h : ms ≠ []) : (inLast w ms).length = ms.length := by
  induction ms with
  | nil => exact absurd rfl h
  | cons m ms ih =>
    cases ms with
    | nil => rfl
    | cons m' ms => simpa [inLast] using ih (by simp)

theorem plain_inLast {w : Micro} (hw : Plain w) {ms : List Micro} (h : ∀ m ∈ ms, Plain m) :
    ∀ m ∈ inLast w ms, Plain m := by
  induction ms with
  | nil => simpa [inLast] using hw
  | cons m ms ih =>
    cases ms with
    | nil => simp_all [inLast, Plain]
    | cons m' ms =>
      intro x hx
      rcases List.mem_cons.mp (by simpa [inLast] using hx) with rfl | hx
      · exact h _ (by simp)
      · exact ih (fun y hy => h y (by simp [hy])) x hx

/-- Idle calm cycles change the timer's counters, the tick flag, LEDS and the number of the cycle only. -/
theorem elapse_eq {s : State} {n : Nat} (h : s.Calm n) : s.elapse n = s.withClock (s.elapse n) := by
  have hp : ∀ m ∈ List.replicate n ([] : Micro), Plain m := by
    intro m hm
    rw [List.eq_of_mem_replicate hm]
    rfl
  have := run_split hp (s := s) (by simpa using h)
  rwa [seqRun_idle, List.length_replicate] at this

/-- How far the number of the cycle goes in idle calm cycles. -/
theorem elapse_now {s : State} {n : Nat} (h : s.Calm n) : (s.elapse n).now = s.now + n := by
  simpa [State.elapse] using (runMicros_keeps (s := s) (ms := List.replicate n []) (by simpa using h)).2.2.1

/-- An operation of calm cycles that do not clear the flag: its sequencer part, the move to the successor, and the
cycles that go by. -/
theorem perform_whole {s : State} {ms : List Micro} (hne : ms ≠ []) (hp : ∀ m ∈ ms, Plain m)
    (h : s.Calm ms.length) :
    s.perform (whole ms) = ((s.opStart.seqRun ms s.now).retire).withClock (s.opStart.elapse ms.length) := by
  have hl : (whole ms).length = ms.length := length_inLast _ hne
  have hc : s.opStart.Calm (whole ms).length := by rw [hl]; exact calm_congr rfl rfl h
  have hpw : ∀ m ∈ whole ms, Plain m := plain_inLast (by decide) hp
  rw [State.perform, run_split hpw hc, seqRun_whole hne, hl]
  rfl

theorem plain_append {a b : List Micro} (ha : ∀ m ∈ a, Plain m) (hb : ∀ m ∈ b, Plain m) : ∀ m ∈ a ++ b, Plain m := by
  intro m hm
  rcases List.mem_append.mp hm with h | h
  · exact ha m h
  · exact hb m h

theorem plain_phase {t : Nat} {m : Micro} (h : Plain m) : ∀ x ∈ phase t m, Plain x := by
  intro x hx
  rcases List.mem_cons.mp hx with rfl | hx
  · exact h
  · rw [List.eq_of_mem_replicate hx]; rfl

theorem plain_clockBit (t : Nat) (ch : Chain) (v : Bool) : ∀ m ∈ clockBit t ch v, Plain m :=
  plain_append (plain_append (plain_phase rfl) (plain_phase rfl)) (plain_phase rfl)

theorem plain_latchStrobe (t : Nat) : ∀ m ∈ latchStrobe t, Plain m :=
  plain_append (plain_phase rfl) (plain_phase rfl)

theorem plain_setData (ch : Chain) (v : Bool) : ∀ m ∈ setDataCycles ch v, Plain m := by
  simp [setDataCycles, Plain, Write.clears]

theorem plain_setOe (v : Bool) : ∀ m ∈ setOeCycles v, Plain m := by simp [setOeCycles, Plain, Write.clears]

theorem plain_sample (k : Nat) (row : BitVec 4) : ∀ m ∈ sampleCycles k row, Plain m := by
  intro m hm
  rcases List.mem_append.mp hm with h | h
  · rw [List.eq_of_mem_replicate h]; rfl
  · rw [List.mem_singleton.mp h]; rfl

/-- Every meaning is the run of its cycles. -/
theorem exec_eq (i : Instr) (s : State) : exec i s = performed s (cyclesOf i s) := by cases i <;> rfl

end Sys2Proof.Machine
end

