-- ==== Sys2Proof/Laws/Parts.lean ====
section
/-! SUPPORT. What the composed parts of the operations do: flush, seed, the ring reset, the column write, the rows of a
scan. -/

namespace Sys2Proof.Machine

theorem length_times (n : Nat) (ms : List Micro) : (times n ms).length = n * ms.length := by simp [times]

theorem plain_times (n : Nat) {ms : List Micro} (h : ∀ m ∈ ms, Plain m) : ∀ m ∈ times n ms, Plain m := by
  intro m hm
  obtain ⟨l, hl, hml⟩ := List.mem_flatten.mp hm
  rw [List.eq_of_mem_replicate hl] at hml
  exact h m hml

/-- The stages of one chain, replaced by a function of what they were. -/
def State.onChain (s : State) (ch : Chain) (f : {n : Nat} → BitVec n → BitVec n) : State :=
  match ch with
  | .swr => { s with swr := f s.swr }
  | .ledr => { s with ledr := f s.ledr }
  | .ledc => { s with ledc := f s.ledc }

/-- `n + 1` bit clocks of one level: the pins as one leaves them, the chain shifted `n + 1` times. -/
theorem seqRun_times_clockBit (t : Nat) (ch : Chain) (v : Bool) (k : Nat) (s : State) (n : Nat) :
    s.seqRun (times (k + 1) (clockBit t ch v)) n =
      (s.setLine ch ⟨v, true⟩).onChain ch (fun x => shiftRun x v (k + 1)) := by
  induction k generalizing s n with
  | zero =>
    simp only [times, List.replicate_succ, List.replicate_zero, List.flatten_cons, List.flatten_nil, List.append_nil,
      seqRun_clockBit]
    cases ch <;> simp [State.onChain, shiftRun]
  | succ k ih =>
    rw [show times (k + 1 + 1) (clockBit t ch v) = clockBit t ch v ++ times (k + 1) (clockBit t ch v) by
      simp [times, List.replicate_succ], seqRun_append, ih, seqRun_clockBit]
    cases ch <;> simp [State.onChain, shiftRun]

/-- A flush leaves every stage of the chain at its inactive level, whatever it held (R122). -/
theorem seqRun_flush (t : Nat) (ch : Chain) (s : State) (n : Nat) :
    s.seqRun (flushCycles t ch) n =
      (s.setLine ch ⟨ch.inactive, true⟩).onChain ch (fun x => shiftRun x ch.inactive 16) := by
  exact seqRun_times_clockBit t ch ch.inactive 15 s n

theorem length_flush {t : Nat} (ht : 1 ≤ t) (ch : Chain) : (flushCycles t ch).length = 48 * t := by
  simp [flushCycles, length_times, length_clockBit ht]; omega

theorem length_seed {t : Nat} (ht : 1 ≤ t) (ch : Chain) : (seedCycles t ch).length = 3 * t + 1 := by
  simp [seedCycles, length_clockBit ht, setDataCycles]

theorem plain_seed (t : Nat) (ch : Chain) : ∀ m ∈ seedCycles t ch, Plain m :=
  plain_append (plain_clockBit t ch _) (plain_setData ch _)

/-- A seed: one active bit in stage 0, the data line inactive again, the clock line high (R125). -/
theorem seqRun_seed (t : Nat) (ch : Chain) (s : State) (n : Nat) :
    s.seqRun (seedCycles t ch) n = (s.setLine ch ⟨ch.inactive, true⟩).shift ch ch.active := by
  simp only [seedCycles, seqRun_append, seqRun_clockBit, seqRun_setData]
  cases ch <;> simp [State.setData]

theorem seed_ne_nil (t : Nat) (ch : Chain) : seedCycles t ch ≠ [] := by simp [seedCycles, setDataCycles]

/-- A seed whose last cycle writes `cur_row` too (R122). -/
theorem seqRun_seed_curRow (t : Nat) (r : BitVec 3) (s : State) (n : Nat) :
    s.seqRun (inLast [.curRow r] (seedCycles t .ledr)) n =
      { (s.setLine .ledr ⟨false, true⟩).shift .ledr true with curRow := r } := by
  have h : inLast [.curRow r] (seedCycles t .ledr) =
      clockBit t .ledr true ++ [[.data .ledr false, .curRow r]] := by
    have : ∀ (a : List Micro) (m : Micro), inLast [.curRow r] (a ++ [m]) = a ++ [m ++ [.curRow r]] := by
      intro a m
      induction a with
      | nil => rfl
      | cons x a ih => cases a with
        | nil => rfl
        | cons y a => simpa [inLast] using ih
    exact this _ _
  rw [h, seqRun_append, seqRun_clockBit]
  apply State.ext <;> simp [State.seqRun, State.seqCycle, State.write, State.setData]

theorem length_ringReset {t : Nat} (ht : 1 ≤ t) : (ringReset t).length = 3 + 150 * t := by
  simp only [ringReset, List.length_append, length_flush ht, length_seed ht, length_inLast _ (seed_ne_nil t .ledr)]
  simp [setOeCycles]; omega

theorem plain_ringReset (t : Nat) : ∀ m ∈ ringReset t, Plain m :=
  plain_append (plain_append (plain_append (plain_append (plain_append (plain_setOe _)
    (plain_times _ (plain_clockBit _ _ _))) (plain_times _ (plain_clockBit _ _ _)))
    (plain_times _ (plain_clockBit _ _ _))) (plain_seed _ _)) (plain_inLast rfl (plain_seed _ _))

/-- The ring reset leaves the chains and the pins as R122's result says, from any prior contents. -/
theorem seqRun_ringReset (t : Nat) (s : State) (n : Nat) :
    s.seqRun (ringReset t) n =
      { s with swr := 0xFFFE, ledr := 0b000001, ledc := 0xFF, swrLine := ⟨true, true⟩, ledrLine := ⟨false, true⟩,
               ledcLine := ⟨true, true⟩, ledrOe := false, curRow := 0 } := by
  have h1 : shiftIn (shiftRun s.swr true 16) false = 0xFFFE#16 := by
    rw [shiftRun_flush s.swr 0 true (by decide)]; decide
  have h2 : shiftIn (shiftRun s.ledr false 16) true = 0b000001#6 := by
    rw [shiftRun_flush s.ledr 0 false (by decide)]; decide
  have h3 : shiftRun s.ledc true 16 = 0xFF#8 := by
    rw [shiftRun_flush s.ledc 0 true (by decide)]; decide
  simp only [ringReset, seqRun_append, seqRun_setOe, seqRun_flush, seqRun_seed, seqRun_seed_curRow]
  apply State.ext <;> simp [State.onChain, Chain.inactive, Chain.active, h1, h2, h3]

theorem flatMap_range_succ {α : Type} (f : Nat → List α) (n : Nat) :
    (List.range (n + 1)).flatMap f = (List.range n).flatMap f ++ f n := by
  simp [List.range_succ]

/-- The column chain after the first `k` bit clocks of a column write. -/
def colRun (msbFirst : Bool) (b x : Byte) : Nat → Byte
  | 0 => x
  | k + 1 => shiftIn (colRun msbFirst b x k) (colBit msbFirst b k)

/-- After `k` bit clocks of a column write, stage `i` below `k` holds the bit sent `i` clocks before the last. -/
theorem colRun_stage (msbFirst : Bool) (b x : Byte) (k i : Nat) (hi : i < 8) :
    (colRun msbFirst b x k).getLsbD i = if i < k then colBit msbFirst b (k - 1 - i) else x.getLsbD (i - k) := by
  induction k generalizing i with
  | zero => simp [colRun]
  | succ k ih =>
    rw [colRun, shiftIn_stage]
    rcases i with _ | i
    · simp
    · have h1 := ih i (by omega)
      simp only [hi, decide_true, Bool.true_and, Nat.add_sub_cancel, Nat.succ_ne_zero, ↓reduceIte, h1]
      by_cases h2 : i < k
      · simp [h2, show k - 1 - i = k - (i + 1) by omega]
      · simp [h2]

/-- The eight bit clocks of a column write fill the chain, whatever it held (R143, D13). -/
theorem colRun_eight (msbFirst : Bool) (b x : Byte) :
    colRun msbFirst b x 8 = if msbFirst then b else b.reverse := by
  apply BitVec.eq_of_getLsbD_eq
  intro i hi
  rw [colRun_stage msbFirst b x 8 i hi]
  cases msbFirst
  · rw [if_pos hi]
    simp only [colBit, Bool.false_eq_true, ↓reduceIte, BitVec.getLsbD_reverse, BitVec.getMsbD]
    simp [hi]
  · simp [colBit, hi, show 7 - (7 - i) = i by omega]

theorem seqRun_columnPart (t : Nat) (msbFirst : Bool) (b : Byte) (k : Nat) (s : State) (n : Nat) :
    s.seqRun ((List.range (k + 1)).flatMap fun j => clockBit t .ledc (colBit msbFirst b j)) n =
      { s with ledc := colRun msbFirst b s.ledc (k + 1), ledcLine := ⟨colBit msbFirst b k, true⟩ } := by
  induction k generalizing n with
  | zero =>
    rw [flatMap_range_succ]
    simp [seqRun_clockBit, colRun]
  | succ k ih =>
    rw [flatMap_range_succ, seqRun_append, ih, seqRun_clockBit]
    simp [colRun]

/-- The column write of a byte (R89, R143). -/
theorem seqRun_columnWrite (t : Nat) (msbFirst : Bool) (b : Byte) (s : State) (n : Nat) :
    s.seqRun (columnWrite t msbFirst b) n =
      { s with ledc := if msbFirst then b else b.reverse, ledcLine := ⟨colBit msbFirst b 7, true⟩ } := by
  rw [columnWrite, seqRun_columnPart t msbFirst b 7, colRun_eight]

theorem length_columnWrite {t : Nat} (ht : 1 ≤ t) (msbFirst : Bool) (b : Byte) :
    (columnWrite t msbFirst b).length = 24 * t := by
  simp [columnWrite, length_clockBit ht]; omega

theorem plain_flatMap {l : List Nat} {f : Nat → List Micro} (h : ∀ k, ∀ m ∈ f k, Plain m) :
    ∀ m ∈ l.flatMap f, Plain m := by
  intro m hm
  obtain ⟨k, _, hk⟩ := List.mem_flatMap.mp hm
  exact h k m hk

theorem plain_columnWrite (t : Nat) (msbFirst : Bool) (b : Byte) : ∀ m ∈ columnWrite t msbFirst b, Plain m :=
  plain_flatMap fun _ => plain_clockBit _ _ _

end Sys2Proof.Machine
end

