-- ==== Sys2Proof/Laws/PerInstr.lean ====
section
/-! SUPPORT. What is said of every operation as syntax, one lemma each: its word is one of the map's valid words, with
its row's major code (30_encoding.md R84). -/

namespace Sys2Proof

/-- `MAJ` of each operation, the opcode map's first column (R84). -/
def Instr.major : Instr → Nat
  | .clkbit _ _ => 1
  | .setdata _ _ => 2
  | .latch => 3
  | .setoe _ => 4
  | .sample _ => 5
  | .ringrst => 6
  | .timeron => 7
  | .refresh => 8
  | .scan => 9
  | .handoff => 10
  | .waittick => 11
  | .check => 12
  | .fbenter => 13
  | .fbstep => 14

/-- The word of a well-formed operation stands in its row of the opcode map. -/
def Laws.EncodeValid.Statement (i : Instr) : Prop :=
  i.wellFormed = true → encode i ∈ validWords ∧ (majorOf (encode i)).toNat = i.major

theorem Laws.EncodeValid.clkbit (ch : Chain) (v : Bool) : Laws.EncodeValid.Statement (.clkbit ch v) := by
  intro _; cases ch <;> cases v <;> decide

theorem Laws.EncodeValid.setdata (ch : Chain) (v : Bool) : Laws.EncodeValid.Statement (.setdata ch v) := by
  intro _; cases ch <;> cases v <;> decide

theorem Laws.EncodeValid.latch : Laws.EncodeValid.Statement .latch := by intro _; decide

theorem Laws.EncodeValid.setoe (v : Bool) : Laws.EncodeValid.Statement (.setoe v) := by
  intro _; cases v <;> decide

theorem Laws.EncodeValid.sample (row : BitVec 4) : Laws.EncodeValid.Statement (.sample row) := by
  have h : ∀ r : BitVec 4, (Instr.sample r).wellFormed = true →
      encode (.sample r) ∈ validWords ∧ (majorOf (encode (.sample r))).toNat = 5 := by decide
  exact h row

theorem Laws.EncodeValid.ringrst : Laws.EncodeValid.Statement .ringrst := by intro _; decide

theorem Laws.EncodeValid.timeron : Laws.EncodeValid.Statement .timeron := by intro _; decide

theorem Laws.EncodeValid.refresh : Laws.EncodeValid.Statement .refresh := by intro _; decide

theorem Laws.EncodeValid.scan : Laws.EncodeValid.Statement .scan := by intro _; decide

theorem Laws.EncodeValid.handoff : Laws.EncodeValid.Statement .handoff := by intro _; decide

theorem Laws.EncodeValid.waittick : Laws.EncodeValid.Statement .waittick := by intro _; decide

theorem Laws.EncodeValid.check : Laws.EncodeValid.Statement .check := by intro _; decide

theorem Laws.EncodeValid.fbenter : Laws.EncodeValid.Statement .fbenter := by intro _; decide

theorem Laws.EncodeValid.fbstep : Laws.EncodeValid.Statement .fbstep := by intro _; decide

end Sys2Proof
end

