-- ==== Sys2Proof/Laws/ScanRefresh.lean ====
section
/-! SUPPORT. What the cycles of REFRESH, SCAN and FBENTER do as wholes, how many they are, and that no cycle of any
operation but TIMERON and WAITTICK clears the tick flag. -/

namespace Sys2Proof.Machine

/-! ## REFRESH -/

theorem length_rowAdvance {t : Nat} (ht : 1 ≤ t) (q : BitVec 3) :
    (rowAdvance t q).length = 3 * t + if q = 5 then 1 else 0 := by
  have h : ∀ (w : Micro) (ms : List Micro), ms ≠ [] → (inFirst w ms).length = ms.length := by
    intro w ms hne
    cases ms with
    | nil => exact absurd rfl hne
    | cons m ms => rfl
  unfold rowAdvance
  split
  · rw [h _ _ (seed_ne_nil _ _), length_seed ht]
  · rw [h _ _ (by simp [clockBit, phase]), length_clockBit ht]; rfl

theorem length_refreshCycles {p : Params} (ht : 1 ≤ p.tPhase) (q : BitVec 3) (b : Byte) :
    (refreshCycles p q b).length = (if q = 5 then 3 else 2) + 29 * p.tPhase := by
  simp only [refreshCycles, List.length_append, length_columnWrite ht, length_latchStrobe ht, length_rowAdvance ht]
  simp only [setOeCycles, List.length_cons, List.length_nil]
  split <;> omega

theorem plain_inFirst {w : Micro} (hw : Plain w) {ms : List Micro} (h : ∀ m ∈ ms, Plain m) :
    ∀ m ∈ inFirst w ms, Plain m := by
  cases ms with
  | nil => simpa [inFirst] using hw
  | cons m ms =>
    intro x hx
    rcases List.mem_cons.mp hx with rfl | hx
    · have := h m (by simp)
      simp_all [Plain]
    · exact h x (by simp [hx])

theorem plain_rowAdvance (t : Nat) (q : BitVec 3) : ∀ m ∈ rowAdvance t q, Plain m := by
  unfold rowAdvance
  split
  · exact plain_inFirst rfl (plain_seed _ _)
  · exact plain_inFirst rfl (plain_clockBit _ _ _)

theorem plain_refreshCycles (p : Params) (q : BitVec 3) (b : Byte) : ∀ m ∈ refreshCycles p q b, Plain m :=
  plain_append (plain_append (plain_append (plain_append (plain_setOe _) (plain_columnWrite _ _ _))
    (plain_latchStrobe _)) (plain_setOe _)) (plain_rowAdvance _ _)

/-- A bit clock whose first cycle writes `cur_row` too. -/
theorem seqRun_clockBit_curRow (t : Nat) (ch : Chain) (v : Bool) (r : BitVec 3) (s : State) (n : Nat) :
    s.seqRun (inFirst [.curRow r] (clockBit t ch v)) n =
      { (s.setLine ch ⟨v, true⟩).shift ch v with curRow := r } := by
  have h : inFirst [.curRow r] (clockBit t ch v) =
      phase t [.data ch v, .curRow r] ++ phase t [.clk ch false] ++ phase t [.clk ch true] := rfl
  simp only [h, seqRun_append, seqRun_phase]
  cases ch <;> apply State.ext <;> simp [State.seqCycle, State.write, State.setData, State.setClk, rises]

/-- The advance of the LED ring and of `cur_row`, or their return to row 0 (R143). -/
theorem seqRun_rowAdvance (t : Nat) (q : BitVec 3) (s : State) (n : Nat) :
    s.seqRun (rowAdvance t q) n =
      { s with ledr := shiftIn s.ledr (decide (q = 5)), ledrLine := ⟨false, true⟩,
               curRow := if q = 5 then 0 else q + 1 } := by
  unfold rowAdvance
  split
  · next h =>
    have e : inFirst [.curRow 0] (seedCycles t .ledr) =
        inFirst [.curRow 0] (clockBit t .ledr true) ++ setDataCycles .ledr false := rfl
    rw [e, seqRun_append, seqRun_clockBit_curRow, seqRun_setData]
    apply State.ext <;> simp [State.setData, h]
  · next h =>
    have hd : decide (q = 5) = false := by simpa using h
    rw [seqRun_clockBit_curRow, hd]
    apply State.ext <;> simp [Chain.inactive, Chain.active]

/-- REFRESH's cycles from a low strobe (R143). -/
theorem seqRun_refreshCycles (p : Params) (q : BitVec 3) (b : Byte) (s : State) (h : s.ledrLat = false) (n : Nat) :
    s.seqRun (refreshCycles p q b) n =
      { s with ledc := if p.colMsbFirst then b else b.reverse, ledrLatch := s.ledr, ledrOe := true,
               ledr := shiftIn s.ledr (decide (q = 5)), curRow := if q = 5 then 0 else q + 1,
               ledrLine := ⟨false, true⟩, ledcLine := ⟨colBit p.colMsbFirst b 7, true⟩ } := by
  simp only [refreshCycles, seqRun_append, seqRun_setOe, seqRun_columnWrite, seqRun_rowAdvance]
  rw [seqRun_latchStrobe _ _ (by simpa using h)]

/-! ## SCAN -/

theorem length_scanRow {p : Params} (ht : 1 ≤ p.tPhase) (r : Nat) :
    (scanRow p r).length = p.settle + 1 + 3 * p.tPhase := by
  simp only [scanRow, sampleCycles, List.length_append, length_clockBit ht, List.length_replicate, List.length_cons,
    List.length_nil]

theorem length_scanRows {p : Params} (ht : 1 ≤ p.tPhase) (k : Nat) :
    ((List.range k).flatMap (scanRow p)).length = k * (p.settle + 1 + 3 * p.tPhase) := by
  induction k with
  | zero => simp
  | succ k ih => rw [flatMap_range_succ, List.length_append, ih, length_scanRow ht, Nat.add_mul, Nat.one_mul]

theorem length_scanCycles {p : Params} (ht : 1 ≤ p.tPhase) :
    (scanCycles p).length = 17 + 15 * p.settle + 48 * p.tPhase := by
  simp only [scanCycles, List.length_append, length_scanRows ht, length_seed ht, List.length_cons, List.length_nil]
  omega

theorem plain_scanRow (p : Params) (r : Nat) : ∀ m ∈ scanRow p r, Plain m :=
  plain_append (plain_sample _ _) (plain_clockBit _ _ _)

theorem plain_scanCycles (p : Params) : ∀ m ∈ scanCycles p, Plain m :=
  plain_append (plain_append (by simp [Plain, Write.clears]) (plain_flatMap (plain_scanRow p))) (plain_seed _ _)

/-- One row of a scan: its capture, and one inactive bit into the switch ring (R141). -/
theorem seqRun_scanRow (p : Params) (r : Nat) (s : State) (n : Nat) :
    s.seqRun (scanRow p r) n =
      { s.memWrite .frame ((BitVec.ofNat 4 r).toNat + 1) (s.inputAt (n + p.settle)).colIn with
        swr := shiftIn s.swr true, swrLine := ⟨true, true⟩ } := by
  simp only [scanRow, seqRun_append, seqRun_sample, seqRun_clockBit]
  apply State.ext <;> simp [Chain.inactive, Chain.active]

/-- What `MemWrite` to FRAME makes of its contents. -/
def frameWrite (p : Params) (m : Memory) (i : Nat) (v : Byte) : Memory :=
  if i < 16 then Memory.write (Space.unlisted p .frame) m i v else m

theorem memWrite_frame (s : State) (i : Nat) (v : Byte) :
    (s.memWrite .frame i v).frame = frameWrite s.params s.frame i v := by
  simp only [State.memWrite, frameWrite, Space.size]
  by_cases h : i < 16 <;> simp [h]

/-- FRAME after the captures of the rows below `k`, the first cycle of row 0 being cycle `n` (R141). -/
def scanFrame (p : Params) (s : State) (n : Nat) : Nat → Memory
  | 0 => s.frame
  | k + 1 =>
    frameWrite s.params (scanFrame p s n k) ((BitVec.ofNat 4 k).toNat + 1)
      (s.inputAt (n + k * (p.settle + 1 + 3 * p.tPhase) + p.settle)).colIn

/-- The first `k + 1` rows of a scan: the captures, and the switch ring `k + 1` bits on. -/
theorem seqRun_scanRows {p : Params} (ht : 1 ≤ p.tPhase) (k : Nat) (s : State) (n : Nat) :
    s.seqRun ((List.range (k + 1)).flatMap (scanRow p)) n =
      { s with frame := scanFrame p s n (k + 1), swr := shiftRun s.swr true (k + 1), swrLine := ⟨true, true⟩ } := by
  have hs : ∀ (j : Nat) (x : BitVec 16), shiftIn (shiftRun x true j) true = shiftRun x true (j + 1) := by
    intro j
    induction j with
    | zero => intro x; rfl
    | succ j ih => intro x; exact ih (shiftIn x true)
  induction k with
  | zero =>
    rw [flatMap_range_succ]
    simp only [List.range_zero, List.flatMap_nil, List.nil_append, seqRun_scanRow]
    apply State.ext <;> simp [scanFrame, shiftRun, memWrite_frame]
  | succ k ih =>
    rw [flatMap_range_succ, seqRun_append, ih, seqRun_scanRow, length_scanRows ht]
    apply State.ext <;> simp [scanFrame, hs, memWrite_frame, State.inputAt]

/-- Every byte of FRAME after the captures of the rows below `k` (R140, R141). -/
theorem scanFrame_read (p : Params) (s : State) (n k : Nat) (hk : k ≤ 15) (a : Nat) :
    ({ s with frame := scanFrame p s n k }).memRead .frame a =
      if 1 ≤ a ∧ a ≤ k then (s.inputAt (n + (a - 1) * (p.settle + 1 + 3 * p.tPhase) + p.settle)).colIn
      else s.memRead .frame a := by
  induction k with
  | zero => simp [scanFrame]; omega
  | succ k ih =>
    have hm : (BitVec.ofNat 4 k).toNat = k := by simp; omega
    have hw := memRead_memWrite { s with frame := scanFrame p s n k } .frame (i := k + 1)
      (by simp [Space.size]; omega) (s.inputAt (n + k * (p.settle + 1 + 3 * p.tPhase) + p.settle)).colIn a
    have he : ({ s with frame := scanFrame p s n (k + 1) }).memRead .frame a =
        ({ s with frame := scanFrame p s n k }.memWrite .frame (k + 1)
          (s.inputAt (n + k * (p.settle + 1 + 3 * p.tPhase) + p.settle)).colIn).memRead .frame a := by
      simp only [scanFrame, hm]
      apply memRead_congr <;> simp [State.space, memWrite_frame]
    rw [he, hw, ih (by omega)]
    by_cases h1 : a = k + 1
    · subst h1; simp
    · by_cases h2 : 1 ≤ a ∧ a ≤ k
      · rw [if_neg h1, if_pos h2, if_pos ⟨h2.1, by omega⟩]
      · rw [if_neg h1, if_neg h2, if_neg (by omega)]

/-- A scan's cycles: the address byte, the captures, the switch ring at row 0 whatever it held (R141). -/
theorem seqRun_scanCycles {p : Params} (ht : 1 ≤ p.tPhase) (s : State) (n : Nat) :
    s.seqRun (scanCycles p) n =
      { s with frame := scanFrame p (s.memWrite .frame 0 (addressByte s.params)) (n + 1) 15, swr := 0xFFFE,
               swrLine := ⟨true, true⟩ } := by
  have hx : shiftIn (shiftRun s.swr true 15) false = 0xFFFE#16 := by
    apply BitVec.eq_of_getLsbD_eq
    intro i hi
    rw [shiftIn_stage]
    rcases i with _ | i
    · simp
    · have h2 : (0xFFFE#16).getLsbD (i + 1) = true := by
        have : ∀ j < 15, (0xFFFE#16).getLsbD (j + 1) = true := by decide
        exact this i (by omega)
      rw [h2]
      simp [shiftRun_stage, hi, show i < 15 by omega, show i < 16 by omega]
  have h0 : s.seqRun [[.header]] n = s.memWrite .frame 0 (addressByte s.params) := by
    apply State.ext <;> simp [State.seqRun, State.seqCycle, State.write]
  simp only [scanCycles, seqRun_append, h0, seqRun_scanRows ht 14, seqRun_seed, List.length_cons, List.length_nil]
  apply State.ext <;> simp [Chain.inactive, Chain.active, hx]

/-! ## FBENTER -/

theorem length_fbEnterCycles {t : Nat} (ht : 1 ≤ t) : (fbEnterCycles t).length = 4 + 152 * t := by
  simp only [fbEnterCycles, List.length_append, length_ringReset ht, length_latchStrobe ht]
  simp [setOeCycles, inLast]; omega

theorem plain_fbEnterCycles (t : Nat) : ∀ m ∈ fbEnterCycles t, Plain m :=
  plain_append (plain_append (plain_ringReset _) (plain_latchStrobe _)) (plain_inLast rfl (plain_setOe _))

/-- FBENTER's cycles from a low strobe (R175). -/
theorem seqRun_fbEnterCycles (t : Nat) (s : State) (h : s.ledrLat = false) (n : Nat) :
    s.seqRun (fbEnterCycles t) n =
      { s with swr := 0xFFFE, ledr := 0b000001, ledrLatch := 0b000001, ledc := 0xFF, swrLine := ⟨true, true⟩,
               ledrLine := ⟨false, true⟩, ledcLine := ⟨true, true⟩, ledrOe := true, curRow := 0, fbCnt := 0,
               fbPos := 0 } := by
  simp only [fbEnterCycles, seqRun_append, seqRun_ringReset]
  rw [seqRun_latchStrobe _ _ (by simpa using h)]
  apply State.ext <;> simp [setOeCycles, inLast, State.seqRun, State.seqCycle, State.write]

/-! ## Which cycles clear the tick flag -/

/-- No cycle of an operation clears the flag, but for TIMERON's and WAITTICK's consume (R203). -/
theorem plain_cyclesOf {i : Instr} {s : State} {ms : List Micro} (h : cyclesOf i s = .next ms) (h1 : i ≠ .timeron)
    (h2 : ¬(i = .waittick ∧ s.tickFlag = true)) : ∀ m ∈ ms, Plain m := by
  have hw : ∀ {l : List Micro}, (∀ m ∈ l, Plain m) → ∀ m ∈ whole l, Plain m := fun hl => plain_inLast rfl hl
  cases i with
  | clkbit ch v => cases h; exact hw (plain_clockBit _ _ _)
  | setdata ch v => cases h; exact hw (plain_setData _ _)
  | latch => cases h; exact hw (plain_latchStrobe _)
  | setoe v => cases h; exact hw (plain_setOe _)
  | sample row =>
    simp only [cyclesOf, cyclesSample] at h
    split at h <;> cases h
    exact hw (plain_sample _ _)
  | ringrst => cases h; exact hw (plain_ringReset _)
  | timeron => exact absurd rfl h1
  | refresh =>
    simp only [cyclesOf, cyclesRefresh] at h
    split at h <;> cases h
    exact hw (plain_refreshCycles _ _ _)
  | scan =>
    cases h
    split
    · simp [pollCycle, Plain]
    · exact hw (plain_scanCycles _)
  | handoff => cases h; split <;> simp [pollCycle, whole, inLast, Plain, Write.clears]
  | waittick =>
    cases h
    have : s.tickFlag = false := by simpa using h2
    simp [this, pollCycle, Plain]
  | check => cases h; split <;> simp [Plain, Write.clears]
  | fbenter => cases h; exact hw (plain_fbEnterCycles _)
  | fbstep =>
    cases h
    refine hw ?_
    unfold fbStepCycles
    split
    · exact plain_append (by simp [Plain, Write.clears]) (plain_clockBit _ _ _)
    · simp [Plain, Write.clears]

end Sys2Proof.Machine
end

