-- ==== Sys2Proof/Tests/Slice0.lean ====
section
/-! SUPPORT. Tests from the spec's words and vectors (95_test_vectors.md, V1 to V10), and for each statement with
hypotheses a concrete state and operands that meet them all. -/

namespace Sys2Proof.Tests

set_option Elab.async false -- one theorem at a time: checked side by side they take more threads than the memory limit lets them

open Sys2Proof Sys2Proof.Machine

/-! ## The bench: the conventions of 95_test_vectors.md -/

/-- A cycle with all switches open, a ready driver, and nobody writing. -/
def quiet : Input := ⟨true, 0xFF, true, false, false, 0, 0, Glitch.none⟩

/-- The vectors' parameters, with `P = 150` (P3). -/
def benchParams : Params := ⟨0x12, 16000000, 1, 149, 8, 1, 0, true, true⟩

theorem benchParams_legal : benchParams.Legal := ⟨by decide, by decide, by decide⟩

/-- The reset state on the bench, with some chain contents and a plan of inputs. -/
def bench (plan : List Input) : State :=
  { State.reset with params := benchParams, swr := 0, ledr := 0x3F, ledrLatch := 0, ledc := 0, plan := plan }

/-- A quiet plan of `n` cycles. -/
def quietFor (n : Nat) : List Input := List.replicate n quiet

/-- What a field holds after a step that goes on. -/
def after {α : Type} (o : Host.Outcome State Fault Refusal) (f : State → α) : Option α :=
  match o with
  | .next t => some (f t)
  | .fault _ => none
  | .refused _ => none

/-- Where no planned cycle has a glitch, none has. -/
theorem neverGlitched_of_plan (s : State) (h : s.plan.all (fun i => decide (i.glitch = Glitch.none)) = true) :
    s.NeverGlitched := by
  intro c
  unfold State.inputAt
  cases hc : s.plan[c]? with
  | none => rfl
  | some i => simpa using List.all_eq_true.mp h i (List.mem_of_getElem? hc)

/-- Where every planned cycle is free of resets and glitches, the state is calm for as long as its plan. -/
theorem calm_of_plan {s : State} {n : Nat} (h : s.plan.all (fun i => i.rstN && decide (i.glitch = Glitch.none)) = true)
    (h0 : s.now = 0) (hn : n ≤ s.plan.length) : s.Calm n := by
  intro k hk
  have hk' : k < s.plan.length := by omega
  simpa [State.inputAt, h0, hk'] using List.all_eq_true.mp h _ (List.getElem_mem hk')

/-- A quiet bench is calm for as long as its plan. -/
theorem calm {s : State} {m n : Nat} (h : s.plan = quietFor m) (h0 : s.now = 0) (hn : n ≤ m) : s.Calm n :=
  calm_of_plan (by simp [h, quietFor, quiet]) h0 (by simpa [h, quietFor] using hn)

/-- In a quiet plan the port is not strobed. -/
theorem noLedWrite (s : State) (n : Nat) (h : s.plan = quietFor n) (h0 : s.now = 0) : s.NoLedWrite n := by
  intro k hk
  simp [State.inputAt, h, h0, quietFor, hk, quiet]

/-! ## Well-formedness, decoding, encoding -/

theorem test_wellFormed_refuses_sample_15 : (Instr.sample 15).wellFormed = false := by decide +kernel

theorem test_wellFormed_takes_sample_14 : (Instr.sample 14).wellFormed = true := by decide +kernel

/-- Each constructor's word, bit by bit from R80 to R84. -/
theorem test_decode_each_operation :
    decode 0b00010010 = .op (.clkbit .swr true) ∧ decode 0b00011000 = .op (.clkbit .ledc false) ∧
      decode 0b00100110 = .op (.setdata .ledr true) ∧ decode 0b00110000 = .op .latch ∧
      decode 0b01000000 = .op (.setoe false) ∧ decode 0b01010100 = .op (.sample 4) ∧
      decode 0b01100000 = .op .ringrst ∧ decode 0b01110000 = .op .timeron ∧ decode 0b10000000 = .op .refresh ∧
      decode 0b10010000 = .op .scan ∧ decode 0b10100000 = .op .handoff ∧ decode 0b10110000 = .op .waittick ∧
      decode 0b11000000 = .op .check ∧ decode 0b11010000 = .op .fbenter ∧ decode 0b11100000 = .op .fbstep := by
  decide +kernel

/-- The reserved words of V1. -/
theorem test_decode_reserved :
    ([0x1C, 0x11, 0x31, 0x42, 0x5F, 0x61, 0x00, 0x0F, 0xF0, 0xFF] : List Byte).all
      (fun w => decide (decode w = .reserved w)) = true := by decide +kernel

/-- The word that V1 gives each of its operations. -/
theorem test_encode_v1 :
    ([.clkbit .swr false, .clkbit .swr true, .clkbit .ledr true, .clkbit .ledc true, .setdata .ledc true, .latch,
        .setoe true, .sample 14, .ringrst, .fbstep] : List Instr).map encode =
      [0x10, 0x12, 0x16, 0x1A, 0x2A, 0x30, 0x41, 0x5E, 0x60, 0xE0] := by decide +kernel

/-- "39 valid words" (R84), all different. -/
theorem test_valid_words : validWords.length = 39 ∧ validWords.Nodup := by decide +kernel

/-- The expansion of RINGRST is 53 words, with the counts of R122. -/
theorem test_ringrst_expansion :
    ringrstExpansion.map encode = [0x40] ++ List.replicate 16 0x12 ++ List.replicate 16 0x14 ++
      List.replicate 16 0x1A ++ [0x10, 0x22, 0x16, 0x24] := by decide +kernel

/-- COLWR 0xA5, most significant bit first (V2 #19). -/
theorem test_colwr : (colwr true 0xA5).map encode = [0x1A, 0x18, 0x1A, 0x18, 0x18, 0x1A, 0x18, 0x1A] := by decide +kernel

theorem test_asm : (Instr.clkbit .swr true).asm = "CLKBIT SWR, 1" ∧ (Instr.sample 2).asm = "SAMPLE 2" := by decide +kernel

theorem test_table_word : decodeTableWord 8 0x5E = some (.sample 14) ∧ decodeTableWord 8 0x5F = none := by decide +kernel

/-- Right after reset, a step runs the word placed for it. -/
theorem test_fetch_word : after (step (State.reset.withFetchWord 8 0x12)) (fun t => (t.swrLine, t.source)) =
    some (⟨true, true⟩, .direct []) := by rfl

/-! ## One step each -/

/-- V2 #1. -/
theorem test_clkbit : after (exec (.clkbit .swr true) { bench (quietFor 3) with swr := 0xFFFE })
    (fun t => (t.swr, t.swrLine, t.now)) = some (0xFFFD, ⟨true, true⟩, 3) := by decide +kernel

/-- V2 #8. -/
theorem test_clkbit_reseed : after (exec (.clkbit .ledr true) { bench (quietFor 3) with ledr := 0b100000 })
    (fun t => (t.ledr, t.swr)) = some (0b000001, 0) := by decide +kernel

/-- V2 #13. -/
theorem test_setdata : after (exec (.setdata .swr true) { bench (quietFor 1) with swr := 0xFFFE, swrLine := ⟨false, true⟩ })
    (fun t => (t.swr, t.swrLine)) = some (0xFFFE, ⟨true, true⟩) := by decide +kernel

/-- V2 #15. -/
theorem test_latch : after (exec .latch { bench (quietFor 2) with ledr := 0b001000, ledrLatch := 0b000100 })
    (fun t => (t.ledrLatch, t.ledr, t.ledrLat)) = some (0b001000, 0b001000, false) := by decide +kernel

/-- V2 #18. -/
theorem test_setoe : after (exec (.setoe true) { bench (quietFor 1) with ledrLatch := 0b000001, ledc := 0xFE })
    (fun t => (t.lit 0 0, t.lit 0 1, t.lit 1 0)) = some (true, false, false) := by decide +kernel

/-- V4 #1. -/
theorem test_sample : after (exec (.sample 4) (bench [{ quiet with colIn := 0xF7 }]))
    (fun t => (t.memRead .frame 5, t.memRead .frame 4, t.memRead .frame 0)) = some (0xF7, 0xFF, 0x24) := by
  decide +kernel

/-- V4 #2. -/
theorem test_sample_last : after (exec (.sample 14) (bench [{ quiet with colIn := 0x00 }]))
    (fun t => t.memRead .frame 15) = some 0x00 := by decide +kernel

/-- V3 #1. -/
theorem test_ringrst :
    after (exec .ringrst { bench (quietFor 153) with ledrLatch := 0b010101, ledrOe := true, curRow := 4 })
      (fun t => (t.swr, t.ledr, t.ledc, t.ledrLatch, t.curRow, t.now)) =
        some (0xFFFE, 0b000001, 0xFF, 0b010101, 0, 153) := by decide +kernel

/-- V8 #1. -/
theorem test_timeron : after (exec .timeron { bench (quietFor 1) with tickFlag := true, preCnt := 0, tmrCnt := 7 })
    (fun t => (t.timerEn, t.preCnt, t.tmrCnt, t.tickFlag)) = some (true, 0, 0, false) := by decide +kernel

/-- V8 #2. -/
theorem test_waittick : after (exec .waittick { bench (quietFor 1) with upc := 2, tickFlag := true, timerEn := true })
    (fun t => (t.tickFlag, t.upc, t.now)) = some (false, 3, 1) := by decide +kernel

/-- V8 #3: an overflow in the cycle of the consume wins. -/
theorem test_waittick_set_wins :
    after (exec .waittick { bench (quietFor 1) with upc := 2, tickFlag := true, timerEn := true, tmrCnt := 149 })
      (fun t => (t.tickFlag, t.upc)) = some (true, 3) := by decide +kernel

/-- V8 #7: an overflow in CHECK's own cycle is no miss. -/
theorem test_check : after (exec .check { bench (quietFor 1) with upc := 6, timerEn := true, tmrCnt := 149 })
    (fun t => (t.upc, t.mode, t.tickFlag)) = some (2, .normal, true) := by decide +kernel

/-- V8 #6. -/
theorem test_check_miss : after (exec .check { bench (quietFor 1) with upc := 6, tickFlag := true })
    (fun t => (t.upc, t.mode, t.tickFlag)) = some (7, .fallback, true) := by decide +kernel

/-- V6 #1. -/
theorem test_handoff : after (exec .handoff { bench (quietFor 1) with upc := 5 })
    (fun t => (t.upc, t.now)) = some (6, 1) := by decide +kernel

/-- V6 #2, the first cycle. -/
theorem test_handoff_waits : after (exec .handoff { bench [{ quiet with txReady := false }, quiet] with upc := 5 })
    (fun t => (t.upc, t.txValid)) = some (5, true) := by decide +kernel

/-- V4 #4: switch (7, 2) closed; row 7 is sampled in cycle `1 + 7 · 4`. -/
theorem test_scan :
    after (exec .scan { bench (quietFor 29 ++ [{ quiet with colIn := 0xFB }] ++ quietFor 35) with swr := 0xFFFE })
      (fun t => (t.busBytes, t.swr, t.now)) =
        some ([0x24, 0xFF, 0xFF, 0xFF, 0xFF, 0xFF, 0xFF, 0xFF, 0xFB, 0xFF, 0xFF, 0xFF, 0xFF, 0xFF, 0xFF, 0xFF],
          0xFFFE, 65) := by decide +kernel

/-- V5 #1. -/
theorem test_refresh :
    after (exec .refresh { bench (quietFor 31) with curRow := 2, ledr := 0b000100, leds := [(2, 0xFE)] })
      (fun t => (t.ledc, t.ledrLatch, t.ledrOe, t.ledr, t.curRow, t.now)) =
        some (0xFE, 0b000100, true, 0b001000, 3, 31) := by decide +kernel

/-- V5 #2. -/
theorem test_refresh_row_5 :
    after (exec .refresh { bench (quietFor 32) with curRow := 5, ledr := 0b100000, leds := [(5, 0x00)] })
      (fun t => (t.ledc, t.ledrLatch, t.ledr, t.curRow, t.ledrLine.data, t.now)) =
        some (0x00, 0b100000, 0b000001, 0, false, 32) := by decide +kernel

/-- V9 #1. -/
theorem test_fbenter :
    after (exec .fbenter { bench (quietFor 156) with
        upc := 7, curRow := 3, ledr := 0b001000, ledrLatch := 0b000100, ledc := 0x5A, ledrOe := true, tickFlag := true })
      (fun t => (t.swr, t.ledr, t.ledrLatch, t.ledc, t.ledrOe, t.now)) =
        some (0xFFFE, 0b000001, 0b000001, 0xFF, true, 156) := by decide +kernel

/-- V9 #4. -/
theorem test_fbstep : after (exec .fbstep { bench (quietFor 4) with fbCnt := 39, ledc := 0xFF })
    (fun t => (t.fbCnt, t.fbPos, t.ledc, t.now)) = some (0, 1, 0xFE, 4) := by decide +kernel

/-- V9 #5. -/
theorem test_fbstep_wraps : after (exec .fbstep { bench (quietFor 4) with fbCnt := 39, fbPos := 7, ledc := 0xBF })
    (fun t => (t.fbPos, t.ledc)) = some (0, 0x7F) := by decide +kernel

/-- The truth table of R203 in V7. -/
theorem test_tick_flag_table :
    ([(false, false, false), (false, false, true), (false, true, false), (false, true, true), (true, false, false),
        (true, false, true), (true, true, false), (true, true, true)] : List (Bool × Bool × Bool)).map
      (fun x => tickNext x.1 x.2.1 x.2.2) = [false, false, true, true, true, false, true, true] := by decide

/-- V7, enabled cycle 6: `PRESCALER = 2`, `TOP = 2`. -/
theorem test_timer_overflow :
    (fun t : State => (t.preCnt, t.tmrCnt, t.tickFlag))
      ({ bench (quietFor 6) with params := { benchParams with prescaler := 2, top := 2 }, timerEn := true }.elapse 6) =
        (0, 0, true) := by decide +kernel

/-- An LED write to row 6 is ignored (R68). -/
theorem test_led_port_row_6 :
    ((bench [{ quiet with ledWrEn := true, ledWrAddr := 6, ledWrData := 0x7E }]).elapse 1).leds = [] := by
  decide +kernel

/-! ## Witnesses: states and operands that meet the hypotheses of the statements -/

/-- A cycle in which reset is asserted. -/
def resetting : Input := { quiet with rstN := false }

theorem witness_ResetLeavesTheResetValues :
    (bench [resetting]).input.rstN = false ∧ (bench [resetting]).input.glitch = Glitch.none := by decide

theorem witness_ResetAbortsEveryOperation :
    ∃ ms, cyclesOf .latch (bench [quiet, resetting]) = .next ms ∧ 1 < ms.length ∧
      (∀ j < 1, ((bench [quiet, resetting]).inputAt j).rstN = true) ∧
      ((bench [quiet, resetting]).inputAt 1).rstN = false :=
  ⟨_, rfl, by decide, by decide, by decide⟩

theorem bench_blockAtReset (plan : List Input) : (bench plan).BlockAtReset where
  upc := rfl
  mode := rfl
  tickFlag := rfl
  timerEn := rfl
  preCnt := rfl
  tmrCnt := rfl
  curRow := rfl
  fbCnt := rfl
  fbPos := rfl
  frameAddress := rfl
  frameRows := by
    intro i h _
    cases i with
    | zero => exact absurd h (by decide)
    | succ n => rfl
  ledState := fun _ _ => rfl
  dataLines := ⟨rfl, rfl, rfl⟩
  clockLines := ⟨rfl, rfl, rfl⟩
  latchAndEnable := ⟨rfl, rfl⟩
  microState := rfl
  rom := rfl

theorem witness_StartupReachesTheLoop :
    (bench (quietFor 154)).params.Legal ∧ (bench (quietFor 154)).BlockAtReset ∧ (bench (quietFor 154)).Calm 154 ∧
      (bench (quietFor 154)).NoLedWrite 154 :=
  ⟨benchParams_legal, bench_blockAtReset _, calm rfl rfl (by decide +kernel), noLedWrite _ _ rfl rfl⟩

theorem witness_StepRunsTheDecodedOperation :
    (bench [quiet]).input.rstN = true ∧ (bench [quiet]).pending = [] ∧ (bench [quiet]).currentWord = some 0x60 ∧
      decode 0x60 = .op .ringrst := by decide

theorem witness_ReservedWordsAreRefused :
    ({ bench [quiet] with source := .direct [0x5F] }).input.rstN = true ∧
      ({ bench [quiet] with source := .direct [0x5F] }).pending = [] ∧
      ({ bench [quiet] with source := .direct [0x5F] }).currentWord = some 0x5F ∧ decode 0x5F = .reserved 0x5F := by decide

/-- At WAITTICK without a tick: the sequencer waits. -/
def atWait : State := { bench [quiet] with upc := 2 }

/-- At CHECK with a tick: it does not wait. -/
def atCheck : State := { bench [quiet] with upc := 6, tickFlag := true }

theorem witness_SequencerRunsTheMicroprogram :
    (atWait.source = .rom ∧ atWait.pending = [] ∧ atWait.upc.toNat ≤ 9 ∧
        (∃ t, step atWait = .next t ∧ atWait.NoReset (t.now - atWait.now)) ∧ atWait.Waiting) ∧
      atCheck.source = .rom ∧ atCheck.pending = [] ∧ atCheck.upc.toNat ≤ 9 ∧
        (∃ t, step atCheck = .next t ∧ atCheck.NoReset (t.now - atCheck.now)) ∧ ¬ atCheck.Waiting :=
  ⟨⟨rfl, rfl, by decide, ⟨_, rfl, by decide +kernel⟩, by unfold State.Waiting; decide⟩,
    rfl, rfl, by decide, ⟨_, rfl, by decide +kernel⟩, by unfold State.Waiting; decide⟩

def directWait : State := { bench [quiet] with source := .direct [0xB0, 0x30] }

def directCheck : State := { bench [quiet] with source := .direct [0xC0] }

theorem witness_DirectExecutionFollowsItsList :
    (directWait.source = .direct (0xB0 :: [0x30]) ∧ decode 0xB0 = .op .waittick ∧ directWait.pending = [] ∧
        (∃ t, step directWait = .next t ∧ directWait.NoReset (t.now - directWait.now)) ∧ directWait.Waiting) ∧
      directCheck.source = .direct (0xC0 :: []) ∧ decode 0xC0 = .op .check ∧ directCheck.pending = [] ∧
        (∃ t, step directCheck = .next t ∧ directCheck.NoReset (t.now - directCheck.now)) ∧ ¬ directCheck.Waiting :=
  ⟨⟨rfl, by decide, rfl, ⟨_, rfl, by decide +kernel⟩, by unfold State.Waiting; decide⟩,
    rfl, by decide, rfl, ⟨_, rfl, by decide +kernel⟩, by unfold State.Waiting; decide⟩

theorem witness_DecodeAfterEncode : (Instr.sample 14).wellFormed = true ∧ (Instr.clkbit .ledc true).wellFormed = true := by
  decide

theorem witness_EncodeAfterDecode : decode 0x5E = .op (.sample 14) ∧ decode 0x5F = .reserved 0x5F := by decide

def offRom : State := { bench [quiet] with upc := 10 }

def usedUp : State := { bench [quiet] with source := .direct [] }

theorem witness_StopsByName :
    (offRom.input.rstN = true ∧ offRom.pending = [] ∧ offRom.source = .rom ∧ 10 ≤ offRom.upc.toNat) ∧
      (usedUp.input.rstN = true ∧ usedUp.pending = [] ∧ usedUp.source = .direct []) ∧
      6 ≤ ({ bench [] with curRow := 6 }).curRow.toNat ∧ 6 ≤ ({ bench [] with curRow := 7 }).curRow.toNat := by decide

/-- A quiet bench is calm, and its port is not strobed, for as long as its plan. -/
theorem witness_calm :
    (bench (quietFor 200)).Calm 200 ∧ (bench (quietFor 200)).NoLedWrite 200 ∧ (bench (quietFor 200)).timerEn = false ∧
      (bench (quietFor 200)).ledrLat = false ∧ (bench (quietFor 200)).input.txBusy = false ∧
      (bench (quietFor 200)).input.txReady = true ∧ (bench (quietFor 200)).input.glitch = Glitch.none :=
  ⟨calm rfl rfl (by decide +kernel), noLedWrite _ _ rfl rfl, rfl, rfl, rfl, rfl, rfl⟩

theorem witness_IdleCyclesChangeOnlyTimerAndPort :
    (bench (quietFor 3)).Calm 3 ∧ (bench (quietFor 3)).NoLedWrite 3 ∧ (bench (quietFor 3)).timerEn = false := by decide

/-- With `T_PHASE = 2` too: `3T = 6`, `2T = 4`, `24T = 48` cycles. -/
def slow (n : Nat) : State := { bench (quietFor n) with params := { benchParams with tPhase := 2, settle := 1 } }

theorem witness_ClkbitShiftsItsChainOnce : (slow 6).params.Legal ∧ (slow 6).Calm (3 * (slow 6).params.tPhase) :=
  ⟨⟨by decide, by decide, by decide⟩, by decide⟩

theorem witness_BitClockPhases :
    (slow 6).params.Legal ∧ (slow 6).Calm (3 * (slow 6).params.tPhase) ∧ 1 ≤ 6 ∧ 6 ≤ 3 * (slow 6).params.tPhase ∧
      1 ≤ 3 * (slow 6).params.tPhase :=
  ⟨⟨by decide, by decide, by decide⟩, by decide, by decide, by decide, by decide⟩

theorem witness_one_calm_cycle : (slow 1).Calm 1 := by decide

theorem witness_LatchCommitsTheLedRow :
    (slow 4).params.Legal ∧ (slow 4).ledrLat = false ∧ (slow 4).Calm (2 * (slow 4).params.tPhase) :=
  ⟨⟨by decide, by decide, by decide⟩, rfl, by decide⟩

theorem witness_ColumnWriteFillsTheColumnChain :
    (slow 48).params.Legal ∧ (slow 48).Calm (24 * (slow 48).params.tPhase) :=
  ⟨⟨by decide, by decide, by decide⟩, calm rfl rfl (by decide +kernel)⟩

theorem witness_RingrstSeedsBothRings :
    (bench (quietFor 153)).params.Legal ∧ (bench (quietFor 153)).Calm (3 + 150 * (bench (quietFor 153)).params.tPhase) :=
  ⟨benchParams_legal, calm rfl rfl (by decide +kernel)⟩

theorem witness_RingrstTwiceIsRingrstOnce :
    (bench (quietFor 306)).params.Legal ∧ (bench (quietFor 306)).Calm (6 + 300 * (bench (quietFor 306)).params.tPhase) :=
  ⟨benchParams_legal, calm rfl rfl (by decide +kernel)⟩

/-- The chains at given contents, with the time of one bit clock and one cycle more. -/
def ringsAt (swr : BitVec 16) (ledr : BitVec 6) : State := { slow 7 with swr := swr, ledr := ledr }

theorem ringsAt_legal (swr : BitVec 16) (ledr : BitVec 6) : (ringsAt swr ledr).params.Legal :=
  ⟨show 1 ≤ 1 by decide, show 149 < 2 ^ 8 by decide, show 1 ≤ 2 by decide⟩

theorem ringsAt_calm (swr : BitVec 16) (ledr : BitVec 6) {n : Nat} (hn : n ≤ 7) :
    (ringsAt swr ledr).Calm n := calm rfl rfl hn

/-- Every clause's position: the last row, the one before it, and the empty ring. -/
theorem witness_AdvanceMovesTheRingOneRow :
    (∀ swr ledr, (ringsAt swr ledr).params.Legal ∧ (ringsAt swr ledr).Calm (3 * (ringsAt swr ledr).params.tPhase)) ∧
      posSw (ringsAt 0xBFFF 0b100000).swr = .row 14 ∧ posLed (ringsAt 0xBFFF 0b100000).ledr = .row 5 ∧
      posSw (ringsAt 0xDFFF 0b010000).swr = .row 13 ∧ posLed (ringsAt 0xDFFF 0b010000).ledr = .row 4 ∧
      posSw (ringsAt 0x7FFF 0).swr = .empty ∧ posLed (ringsAt 0x7FFF 0).ledr = .empty :=
  ⟨fun _ _ => ⟨ringsAt_legal _ _, ringsAt_calm _ _ (show 6 ≤ 7 by decide)⟩, by decide, by decide, by decide, by decide, by decide, by decide⟩

theorem witness_ReseedReachesRowZeroExactlyAtTheEnd :
    (∀ swr ledr, (ringsAt swr ledr).params.Legal ∧ (ringsAt swr ledr).Calm (3 * (ringsAt swr ledr).params.tPhase + 1)) ∧
      posSw (ringsAt 0xBFFF 0b100000).swr = .row 14 ∧ posLed (ringsAt 0xBFFF 0b100000).ledr = .row 5 ∧
      posSw (ringsAt 0xDFFF 0b010000).swr = .row 13 ∧ posLed (ringsAt 0xDFFF 0b010000).ledr = .row 4 ∧
      posSw (ringsAt 0xFFFF 0).swr = .empty ∧ posLed (ringsAt 0xFFFF 0).ledr = .empty :=
  ⟨fun _ _ => ⟨ringsAt_legal _ _, ringsAt_calm _ _ (show 7 ≤ 7 by decide)⟩, by decide, by decide, by decide, by decide, by decide, by decide⟩

theorem witness_AdvancesAfterResetSelectRowAfterRow :
    (bench (quietFor 198)).params.Legal ∧
      (bench (quietFor 198)).Calm (3 + 150 * benchParams.tPhase + 3 * 15 * benchParams.tPhase) :=
  ⟨benchParams_legal, calm rfl rfl (by decide +kernel)⟩

/-- One state for all four parts, at row 5. -/
def composing : State := { bench (quietFor 156) with curRow := 5 }

theorem witness_CompositesAreTheirExpansions :
    composing.params.Legal ∧ composing.ledrLat = false ∧ composing.Calm (3 + 150 * composing.params.tPhase) ∧
      composing.Calm (4 + 152 * composing.params.tPhase) ∧ composing.Calm (3 + 29 * composing.params.tPhase) ∧
      composing.curRow.toNat ≤ 5 ∧
      composing.Calm (17 + 15 * composing.params.settle + 48 * composing.params.tPhase) ∧
      composing.input.txBusy = false :=
  ⟨benchParams_legal, rfl, calm rfl rfl (by decide +kernel), calm rfl rfl (by decide +kernel), calm rfl rfl (by decide +kernel), by decide, calm rfl rfl (by decide +kernel), rfl⟩

theorem witness_SampleStoresTheColumnInput :
    (14 : BitVec 4).toNat < 15 ∧ (slow 2).Calm ((slow 2).params.settle + 1) := by decide

theorem witness_ScanStoresEveryRow :
    (slow 128).params.Legal ∧ (slow 128).input.txBusy = false ∧
      (slow 128).Calm (17 + 15 * (slow 128).params.settle + 48 * (slow 128).params.tPhase) :=
  ⟨⟨by decide, by decide, by decide⟩, rfl, calm rfl rfl (by decide +kernel)⟩

def scanning : State := { slow 128 with swr := 0xFFFE }

/-- The first row that an advance selects and the last. -/
theorem witness_ScanSamplesEachRowWhileSelected :
    scanning.params.Legal ∧ scanning.swr = 0xFFFE ∧ (1 ≤ 1 ∧ 1 < 15) ∧ (1 ≤ 14 ∧ 14 < 15) ∧
      scanning.Calm (17 + 15 * scanning.params.settle + 48 * scanning.params.tPhase) :=
  ⟨⟨by decide, by decide, by decide⟩, rfl, by decide, by decide, calm rfl rfl (by decide +kernel)⟩

theorem witness_WaitsPollOneCycleAtATime :
    (bench [{ quiet with txBusy := true, txReady := false }]).input.rstN = true ∧
      (bench [{ quiet with txBusy := true, txReady := false }]).tickFlag = false ∧
      (bench [{ quiet with txBusy := true, txReady := false }]).input.txBusy = true ∧
      (bench [{ quiet with txBusy := true, txReady := false }]).input.txReady = false := by decide

/-- The LED ring in step at row `q`. -/
def refreshing (q : BitVec 3) : State := { slow 400 with curRow := q, ledr := 1#6 <<< q.toNat }

theorem refreshing_legal (q : BitVec 3) : (refreshing q).params.Legal :=
  ⟨show 1 ≤ 1 by decide, show 149 < 2 ^ 8 by decide, show 1 ≤ 2 by decide⟩

/-- Row 5, where the ring is re-seeded, and row 4, the last that advances. -/
theorem witness_RefreshWritesOneRow :
    ((refreshing 5).params.Legal ∧ (refreshing 5).curRow.toNat ≤ 5 ∧ (refreshing 5).ledrLat = false ∧
        (refreshing 5).Calm ((if (refreshing 5).curRow = 5 then 3 else 2) + 29 * (refreshing 5).params.tPhase) ∧
        0xFF = (refreshing 5).memRead .leds (refreshing 5).curRow.toNat) ∧
      (refreshing 4).params.Legal ∧ (refreshing 4).curRow.toNat ≤ 5 ∧ (refreshing 4).ledrLat = false ∧
        (refreshing 4).Calm ((if (refreshing 4).curRow = 5 then 3 else 2) + 29 * (refreshing 4).params.tPhase) ∧
        0xFF = (refreshing 4).memRead .leds (refreshing 4).curRow.toNat :=
  ⟨⟨refreshing_legal _, by decide, rfl, calm rfl rfl (by decide +kernel), by decide⟩, refreshing_legal _, by decide, rfl, calm rfl rfl (by decide +kernel),
    by decide⟩

theorem witness_RefreshLightsExactlyItsRow :
    (refreshing 5).params.Legal ∧ (refreshing 5).curRow.toNat = 5 ∧ 5 ≤ 5 ∧ (refreshing 5).ledrLat = false ∧
      (refreshing 5).ledr = 1#6 <<< 5 ∧ (refreshing 5).Calm (3 + 29 * (refreshing 5).params.tPhase) :=
  ⟨refreshing_legal _, by decide, by decide, rfl, by decide, calm rfl rfl (by decide +kernel)⟩

/-- The boundary of each clause: the first cycle, the last dark one, the column byte complete, the latch before and
after its strobe, the rows enabled again. -/
theorem witness_RefreshKeepsTheDisplayOrder :
    (bench (quietFor 28)).params.Legal ∧ (bench (quietFor 28)).ledrLat = false ∧
      (bench (quietFor 28)).Calm (2 + 26 * benchParams.tPhase) ∧
      (∀ n ∈ [1, 25, 26, 27, 28], n ≤ 2 + 26 * benchParams.tPhase) ∧
      27 ≤ 1 + 26 * benchParams.tPhase ∧ 28 = 2 + 26 * benchParams.tPhase ∧
      1 + 24 * benchParams.tPhase ≤ 25 ∧ 2 + 24 * benchParams.tPhase ≤ 26 :=
  ⟨benchParams_legal, rfl, calm rfl rfl (by decide +kernel), by decide, by decide, by decide, by decide, by decide⟩

theorem witness_RefreshesTakeTheRowsInTurn :
    (refreshing 5).params.Legal ∧ (refreshing 5).curRow.toNat = 5 ∧ 5 ≤ 5 ∧ (refreshing 5).ledrLat = false ∧
      (refreshing 5).ledr = 1#6 <<< 5 ∧ (refreshing 5).Calm (6 * (3 + 29 * (refreshing 5).params.tPhase)) ∧ 1 ≤ 6 :=
  ⟨refreshing_legal _, by decide, by decide, rfl, by decide, calm rfl rfl (by decide +kernel), by decide⟩

theorem witness_LedRingHealsAfterSixRefreshes :
    benchParams.Legal ∧ (bench (quietFor 187)).curRow = 0 ∧ (bench (quietFor 187)).ledrLat = false ∧
      (bench (quietFor 187)).Calm (13 + 174 * benchParams.tPhase) :=
  ⟨benchParams_legal, rfl, rfl, calm rfl rfl (by decide +kernel)⟩

theorem witness_HandoffEndsInTheReadyCycle : (bench [quiet]).Calm 1 ∧ (bench [quiet]).input.txReady = true := by decide

/-- A driver that answers in the third cycle (V6 #2). -/
def slowDriver : State :=
  { bench [{ quiet with txReady := false }, { quiet with txReady := false }, quiet] with upc := 5 }

theorem witness_HandoffWaitsForTheDriver :
    slowDriver.source = .rom ∧ slowDriver.upc = 5 ∧ slowDriver.pending = [] ∧ slowDriver.Calm 3 ∧
      (∀ k < 2, (slowDriver.inputAt (slowDriver.now + k)).txReady = false) ∧
      (slowDriver.inputAt (slowDriver.now + 2)).txReady = true := by decide

theorem witness_tick_flag : (bench [quiet]).Calm 1 ∧ ({ bench [quiet] with tickFlag := true }).Calm 1 ∧
    ({ bench [quiet] with tickFlag := true }).tickFlag = true ∧ (bench [quiet]).tickFlag = false := by decide

theorem witness_FbenterShowsTheFirstRow :
    benchParams.Legal ∧ (bench (quietFor 156)).ledrLat = false ∧
      (bench (quietFor 156)).Calm (4 + 152 * benchParams.tPhase) := ⟨benchParams_legal, rfl, calm rfl rfl (by decide +kernel)⟩

theorem witness_FbstepCountsAndShifts :
    benchParams.Legal ∧ ({ bench (quietFor 4) with fbCnt := 38 }).fbCnt ≠ 39 ∧
      ({ bench (quietFor 4) with fbCnt := 38 }).Calm 1 ∧ ({ bench (quietFor 4) with fbCnt := 39 }).fbCnt = 39 ∧
      ({ bench (quietFor 4) with fbCnt := 39 }).Calm (1 + 3 * benchParams.tPhase) :=
  ⟨benchParams_legal, by decide, by decide, by decide, by decide⟩

/-- The state that FBENTER leaves, as far as the walk needs it. -/
def walking : State := { bench (quietFor 43) with ledc := 0xFF, ledrOe := true, ledrLatch := 0b000001 }

/-- The last FBSTEP before the first light, and the one that lights it. -/
theorem witness_FallbackWalksOneLed :
    walking.params.Legal ∧ walking.Calm (39 + 3 * walking.params.tPhase * (39 / 40)) ∧
      walking.Calm (40 + 3 * walking.params.tPhase * (40 / 40)) ∧ walking.fbCnt = 0 ∧ walking.fbPos = 0 ∧
      walking.ledc = 0xFF ∧ walking.ledrOe = true ∧ walking.ledrLatch = 0b000001 ∧ 39 < 40 ∧ 40 ≤ 40 :=
  ⟨benchParams_legal, calm rfl rfl (by decide +kernel), calm rfl rfl (by decide +kernel), rfl, rfl, rfl, rfl, rfl,
    by decide, by decide⟩

def atTop : State := { bench [quiet] with timerEn := true, tmrCnt := 149 }

/-- At TOP, where the timer overflows. -/
theorem witness_TimerCountsPrescalerAndTop :
    atTop.params.Legal ∧ atTop.preCnt < atTop.params.prescaler ∧ atTop.tmrCnt ≤ atTop.params.top ∧
      Write.timerStart ∉ ([.consume, .retire] : Micro) ∧ atTop.input.rstN = true ∧ atTop.ovf = true :=
  ⟨benchParams_legal, by decide, by decide, by decide, by decide, by decide⟩

theorem witness_TickFlagSetWins :
    cyclesOf .timeron (bench []) = .next [[.timerStart, .retire]] ∧
      cyclesOf .waittick { bench [] with tickFlag := true } = .next [[.consume, .retire]] ∧
      cyclesOf .waittick (bench []) = .next [[]] := ⟨rfl, rfl, rfl⟩

/-- The cycle of the first overflow, `P = 150`, and the one before it; the cycles write, but start no timer. -/
theorem witness_TimerOverflowsEveryPeriod :
    benchParams.Legal ∧ (bench (quietFor 151)).NoReset 151 ∧
      (∀ m ∈ List.replicate 149 ([.consume] : Micro), Write.timerStart ∉ m) ∧
      benchParams.prescaler * (benchParams.top + 1) ∣ (List.replicate 149 ([.consume] : Micro)).length + 1 ∧
      ¬ benchParams.prescaler * (benchParams.top + 1) ∣ (List.replicate 148 ([.consume] : Micro)).length + 1 :=
  ⟨benchParams_legal, fun k hk => (calm rfl rfl (Nat.le_refl 151) : (bench (quietFor 151)).Calm 151) k hk |>.1,
    fun m h => by rw [List.eq_of_mem_replicate h]; decide, by decide +kernel, by decide +kernel⟩

theorem witness_LedPortWritesTheAddressedRow :
    (5 : Nat) < 6 ∧ (bench [{ quiet with ledWrEn := true, ledWrAddr := 5 }]).input.ledWrEn = true ∧
      (bench [{ quiet with ledWrEn := true, ledWrAddr := 5 }]).input.ledWrAddr.toNat = 5 ∧
      6 ≤ (bench [{ quiet with ledWrEn := true, ledWrAddr := 6 }]).input.ledWrAddr.toNat := by decide

/-- The loop's state after startup. -/
def looping (plan : List Input) : State :=
  { bench plan with upc := 2, timerEn := true, swr := 0xFFFE, ledr := 0b000001, ledc := 0xFF }

theorem looping_inv (plan : List Input) : (looping plan).Inv where
  params := benchParams_legal
  upc := show (2 : BitVec 4).toNat ≤ 9 by decide
  curRow := show (0 : BitVec 3).toNat ≤ 5 by decide
  preCnt := show 0 < 1 by decide
  tmrCnt := show 0 ≤ 149 by decide
  fbCnt := show (0 : BitVec 6).toNat < 40 by decide
  frame := rfl
  leds := rfl
  atStart := rfl
  strobe := rfl
  modeOfAddress := fun _ => show (Mode.normal = .fallback ↔ 7 ≤ (2 : BitVec 4).toNat) by decide

theorem witness_EveryStepKeepsTheInvariant : (looping [quiet]).Inv ∧ ∃ t, step (looping [quiet]) = .next t :=
  ⟨looping_inv _, _, rfl⟩

theorem witness_TheMicroprogramNeverStops : (looping []).Inv ∧ (looping []).source = .rom := ⟨looping_inv _, rfl⟩

theorem witness_EveryStepKeepsTheRingsInStep :
    (looping [quiet]).Inv ∧ (looping [quiet]).RingsInStep ∧ (looping [quiet]).NeverGlitched ∧
      ∃ t, step (looping [quiet]) = .next t :=
  ⟨looping_inv _, fun _ _ => ⟨rfl, by decide⟩, neverGlitched_of_plan _ (by decide), _, rfl⟩

/-- In the fallback loop. -/
def fallen : State := { looping [quiet] with upc := 8, mode := .fallback }

theorem witness_FallbackIsTerminal :
    fallen.Inv ∧ fallen.source = .rom ∧ fallen.mode = .fallback ∧
      ∃ t, runSteps 1 fallen = .next t ∧ fallen.NoReset (t.now - fallen.now) :=
  ⟨{ looping_inv [quiet] with upc := by decide, modeOfAddress := fun _ => by decide }, rfl, rfl, _, rfl,
    by decide +kernel⟩

theorem witness_OnlyCheckRaisesDeadlineMiss :
    ∃ t, exec .check atCheck = .next t ∧ atCheck.NoReset (t.now - atCheck.now) ∧ t.mode ≠ atCheck.mode :=
  ⟨_, rfl, by decide +kernel, by decide +kernel⟩

theorem witness_EachRegisterHasItsWriters :
    (bench [quiet]).NeverGlitched ∧
      ∃ t, exec .fbstep (bench [quiet]) = .next t ∧ (bench [quiet]).NoReset (t.now - (bench [quiet]).now) :=
  ⟨neverGlitched_of_plan _ (by decide), _, rfl, by decide +kernel⟩

theorem witness_OnlyThePortWritesLedStates :
    ∃ t, exec (.setoe true) (bench [quiet]) = .next t ∧ (bench [quiet]).NoReset (t.now - (bench [quiet]).now) ∧
      (bench [quiet]).NoLedWrite (t.now - (bench [quiet]).now) :=
  ⟨_, rfl, by decide +kernel, by decide +kernel⟩

theorem witness_ChainContentsNeverSteerTheBlock :
    (bench []).block = ({ bench [] with swr := 0xFFFE, ledr := 1, ledc := 0xFF }).block := rfl

theorem witness_OperationLevelAgreesWithCycleLevel : ∃ t, step (looping [quiet]) = .next t := ⟨_, rfl⟩

/-- A fresh tick at the start of a scan cycle, with the bus free and the driver ready at once: `L = 99`. -/
def freshTick : State := { looping (quietFor 99) with tickFlag := true }

/-- The same at row 5, with one cycle of `tx_busy` and a driver that answers in its second cycle: `L = 102`. -/
def freshTickSlow : State :=
  { looping ((List.range 102).map fun c => { quiet with txBusy := decide (c = 33), txReady := decide (c ≠ 99) }) with
      tickFlag := true, curRow := 5, ledr := 0b100000 }

theorem witness_DeadlineMissExactlyWhenTooLong :
    freshTick.Inv ∧ freshTick.source = .rom ∧ freshTick.upc = 2 ∧ freshTick.tickFlag = true ∧ freshTick.timerEn = true ∧
      freshTick.preCnt = 0 ∧ freshTick.tmrCnt = 0 ∧ 99 = 21 + 77 * benchParams.tPhase + 15 * benchParams.settle + 0 + 1 + 0 ∧
      freshTick.Calm 99 ∧ (freshTick.inputAt (1 + 2 + 29)).txBusy = false ∧
      (freshTick.inputAt (99 - 2)).txReady = true :=
  ⟨{ looping_inv (quietFor 99) with }, rfl, rfl, rfl, rfl, rfl, rfl, by decide, calm rfl rfl (by decide +kernel), by decide,
    by decide⟩

theorem witness_DeadlineMiss_slow :
    freshTickSlow.Inv ∧ freshTickSlow.curRow = 5 ∧ freshTickSlow.tickFlag = true ∧ freshTickSlow.tmrCnt = 0 ∧
      102 = 21 + 77 * benchParams.tPhase + 15 * benchParams.settle + 1 + 2 + 1 ∧ freshTickSlow.Calm 102 ∧
      (freshTickSlow.inputAt (1 + 3 + 29 + 0)).txBusy = true ∧ (freshTickSlow.inputAt (1 + 3 + 29 + 1)).txBusy = false ∧
      (freshTickSlow.inputAt (102 - 1 - 2)).txReady = false ∧ (freshTickSlow.inputAt (102 - 2)).txReady = true :=
  ⟨{ looping_inv [] with curRow := by decide }, rfl, rfl, rfl, by decide, calm_of_plan (by decide +kernel) rfl (by decide +kernel),
    by decide +kernel, by decide +kernel, by decide +kernel, by decide +kernel⟩

end Sys2Proof.Tests
end

section
/-! SUPPORT. The waits (00_scope.md R12, 70_reset_and_hazards.md R241): what one poll of a wait is. -/

namespace Sys2Proof.Machine

/-- A poll is one idle cycle: the micro-state holds no writes for it, and no move to a successor (R12). -/
theorem perform_pollCycle (s : State) : s.perform pollCycle = s.opStart.elapse 1 := rfl

/-- WAITTICK polls while there is no tick (R173). -/
theorem cyclesOf_waittick_of_noTick {s : State} (h : s.tickFlag = false) : cyclesOf .waittick s = .next pollCycle := by
  simp [cyclesOf, cyclesWaittick, h]

/-- SCAN polls while the transport is busy (R71, R141). -/
theorem cyclesOf_scan_of_busy {s : State} (h : s.input.txBusy = true) : cyclesOf .scan s = .next pollCycle := by
  simp [cyclesOf, cyclesScan, h]

/-- HANDOFF polls while the driver is not ready (R145). -/
theorem cyclesOf_handoff_of_notReady {s : State} (h : s.input.txReady = false) :
    cyclesOf .handoff s = .next pollCycle := by
  simp [cyclesOf, cyclesHandoff, h]

/-- An operation that only polls takes one idle cycle and is not over: `upc` and the list of words stay. -/
theorem exec_of_poll {i : Instr} {s : State} (h : cyclesOf i s = .next pollCycle) :
    exec i s = .next (s.opStart.elapse 1) := by
  rw [exec_eq, h, performed, perform_pollCycle]

/-- Settles O29: each of the three operations polls when its condition does not hold, and a poll is one idle cycle. The
premise on `rst_n` is not needed, since `elapse` meets a reset in its cycle as the operation does. -/
theorem waitsPollOneCycleAtATime : Obligations.WaitsPollOneCycleAtATime := by
  intro s _
  refine ⟨fun hTick => ?waittick, fun hBusy => ?scan, fun hReady => ?handoff⟩
  case waittick => exact exec_of_poll (cyclesOf_waittick_of_noTick hTick)
  case scan => exact exec_of_poll (cyclesOf_scan_of_busy hBusy)
  case handoff => exact exec_of_poll (cyclesOf_handoff_of_notReady hReady)

end Sys2Proof.Machine
end

section
/-! SUPPORT. How a step ends, with resets and glitches in it: the fetch, the operation's cycles, and the cycle with
`rst_n = 0` that cuts them short (43_scheduler.md R171, 70_reset_and_hazards.md R230). -/

namespace Sys2Proof.Machine

/-! ## Runs of cycles without a reset -/

/-- The cycles `ms` one after another, all with `rst_n = 1`. -/
def State.cycles (s : State) (ms : List Micro) : State := ms.foldl State.cycle s

@[simp] theorem cycles_nil (s : State) : s.cycles [] = s := rfl

@[simp] theorem cycles_cons (s : State) (m : Micro) (ms : List Micro) :
    s.cycles (m :: ms) = (s.cycle m).cycles ms := rfl

/-- A property that every cycle of a run keeps holds at its end. -/
theorem cycles_induction {C : State → Prop} {ms : List Micro} (hcycle : ∀ m ∈ ms, ∀ s, C s → C (s.cycle m))
    {s : State} (h : C s) : C (s.cycles ms) := by
  induction ms generalizing s with
  | nil => exact h
  | cons m ms ih => exact ih (fun m' hm => hcycle m' (by simp [hm])) (hcycle m (by simp) s h)

theorem cycles_keeps (s : State) (ms : List Micro) :
    (s.cycles ms).params = s.params ∧ (s.cycles ms).pending = s.pending ∧ (s.cycles ms).plan = s.plan ∧
      (s.cycles ms).now = s.now + ms.length := by
  induction ms generalizing s with
  | nil => simp
  | cons m ms ih =>
    obtain ⟨hparams, hpending, hplan, hnow⟩ := ih (s.cycle m)
    obtain ⟨kparams, kpending, kplan, know⟩ := cycle_keeps s m
    refine ⟨hparams.trans kparams, hpending.trans kpending, hplan.trans kplan, ?_⟩
    rw [cycles_cons, hnow, know, List.length_cons]
    omega

/-- A run either makes all its cycles, or ends in the first one with `rst_n = 0` (R230). -/
theorem runMicros_cases (s : State) (ms : List Micro) :
    s.runMicros ms = s.cycles ms ∨
      ∃ k < ms.length, (s.inputAt (s.now + k)).rstN = false ∧
        s.runMicros ms = (s.cycles (ms.take k)).resetCycle := by
  induction ms generalizing s with
  | nil => exact .inl rfl
  | cons m ms ih =>
    cases hr : s.input.rstN with
    | false => exact .inr ⟨0, by simp, hr, by simp [runMicros_reset hr]⟩
    | true =>
      obtain ⟨-, -, hplan, hnow⟩ := cycle_keeps s m
      rw [runMicros_cons hr]
      rcases ih (s.cycle m) with hall | ⟨k, hk, hrst, hend⟩
      · exact .inl hall
      · refine .inr ⟨k + 1, by simpa using hk, ?_, by simpa using hend⟩
        rw [inputAt_congr hplan, hnow] at hrst
        rwa [show s.now + (k + 1) = s.now + 1 + k by omega]

/-- Where no cycle of an operation has `rst_n = 0`, it makes all its cycles. -/
theorem perform_of_noReset {s : State} {ms : List Micro} (h : s.NoReset ((s.perform ms).now - s.now)) :
    s.perform ms = s.opStart.cycles ms := by
  rcases runMicros_cases s.opStart ms with hall | ⟨k, hk, hrst, hend⟩
  · exact hall
  · have hnow : (s.perform ms).now = s.now + k + 1 := by
      rw [State.perform, hend, (resetCycle_keeps _).2.2.2, (cycles_keeps _ _).2.2.2, List.length_take]
      simp only [opStart_keeps]
      omega
    have hone : (s.inputAt (s.now + k)).rstN = true := h k (by omega)
    exact absurd (hrst.symm.trans hone) (by decide)

/-! ## What a step can do -/

/-- An operation has a next state when its rule gives it cycles, and then it is the run of them. -/
theorem exec_next_iff {i : Instr} {s t : State} :
    exec i s = .next t ↔ ∃ ms, cyclesOf i s = .next ms ∧ t = s.perform ms := by
  rw [exec_eq]
  cases cyclesOf i s <;> simp [performed, eq_comm]

/-- An operation without a reset in its cycles makes all of them. -/
theorem exec_of_noReset {i : Instr} {s t : State} (h : exec i s = .next t) (hr : s.NoReset (t.now - s.now)) :
    ∃ ms, cyclesOf i s = .next ms ∧ t = s.opStart.cycles ms := by
  obtain ⟨ms, hms, rfl⟩ := exec_next_iff.mp h
  exact ⟨ms, hms, perform_of_noReset hr⟩

theorem step_of_reset {s : State} (h : s.input.rstN = false) : step s = .next s.resetCycle := by
  simp [step, h]

/-- With no operation in progress, a step that has a next state is a reset cycle, or the operation at the sequencer. -/
theorem step_next_cases {s t : State} (hstart : s.pending = []) (h : step s = .next t) :
    t = s.resetCycle ∨ ∃ i, s.currentOp = some i ∧ exec i s = .next t := by
  cases hr : s.input.rstN with
  | false =>
    rw [step_of_reset hr] at h
    injection h with h
    exact .inl h.symm
  | true =>
    simp only [step, hr, hstart, ↓reduceIte] at h
    cases hw : s.currentWord with
    | none =>
      simp only [hw, State.noWord] at h
      split at h <;> cases h
    | some w =>
      simp only [hw] at h
      cases hd : decode w with
      | reserved r => simp [hd] at h
      | op i => exact .inr ⟨i, by simp [State.currentOp, hw, hd], by simpa [hd] using h⟩

/-! ## What the ROM holds -/

/-- The operations of the microprogram, by address (43_scheduler.md R170). -/
def romOp (a : BitVec 4) : Option Instr :=
  [Instr.ringrst, .timeron, .waittick, .refresh, .scan, .handoff, .check, .fbenter, .waittick, .fbstep][a.toNat]?

theorem currentOp_of_rom {s : State} (h : s.source = .rom) : s.currentOp = romOp s.upc := by
  have hrom : ∀ a : BitVec 4, { State.reset with upc := a }.currentOp = romOp a := by decide
  rw [← hrom s.upc]
  simp only [State.currentOp, State.currentWord, h]
  rfl

/-- In the ROM, CHECK stands at address 6 only. -/
theorem romOp_eq_check {a : BitVec 4} : romOp a = some .check ↔ a = 6 := by
  revert a; decide

/-- In the ROM, HANDOFF stands at address 5 only. -/
theorem romOp_eq_handoff {a : BitVec 4} : romOp a = some .handoff ↔ a = 5 := by
  revert a; decide

theorem romWord_of_ge {a : BitVec 4} (h : 10 ≤ a.toNat) : romWord a = none :=
  List.getElem?_eq_none h

/-- Settles O38: `tx_valid` looks at `rst_n` and at the operation at the sequencer, and the ROM holds HANDOFF at
address 5 only. -/
theorem txValidExactlyInHandoff : Obligations.TxValidExactlyInHandoff := by
  intro s
  have hiff : s.txValid = true ↔ s.input.rstN = true ∧ s.currentOp = some .handoff := by
    simp [State.txValid]
  refine ⟨hiff, fun hrom => ?_⟩
  rw [hiff, currentOp_of_rom hrom, romOp_eq_handoff]

/-- Settles O11: each of the four stops, by the branch that names it. -/
theorem stopsByName : Obligations.StopsByName := by
  refine ⟨fun s hr hstart hrom hupc => ?offRom, fun s hr hstart hdirect => ?usedUp, fun s hrow => ?noRow,
    fun s => ?row15⟩
  case offRom => simp [step, hr, hstart, State.currentWord, State.noWord, hrom, romWord_of_ge hupc]
  case usedUp => simp [step, hr, hstart, State.currentWord, State.noWord, hdirect]
  case noRow =>
    have hout : ¬s.curRow.toNat < Space.size .leds := by simpa [Space.size] using hrow
    simp [exec_eq, cyclesOf, cyclesRefresh, hout, performed]
  case row15 => rfl

end Sys2Proof.Machine
end

section
/-! SUPPORT. The reset state and the state after a reset cycle (10_state.md R47, R230). -/

namespace Sys2Proof.Machine

/-- No pin rises in a reset cycle, so only a glitch changes a chain in it (R47). -/
theorem resetCycle_eq (s : State) :
    s.resetCycle = { s.resetBlock.disturb s.input.glitch with now := s.now + 1 } := by
  have hfall : State.edges s s.resetBlock = s.resetBlock := by
    apply State.ext <;> simp [State.resetBlock, rises]
  simp [State.resetCycle, hfall]

theorem memRead_of_nil {s : State} {sp : Space} (h : s.space sp = []) (a : Nat) :
    s.memRead sp a = sp.unlisted s.params a := by
  simp [State.memRead, h, Memory.read]

theorem unlisted_frame_row (p : Params) {i : Nat} (h : 1 ≤ i) : Space.unlisted p .frame i = 0xFF := by
  cases i with
  | zero => exact absurd h (by decide)
  | succ i => rfl

/-- The state as `resetBlock` leaves it holds the values of R47's table. -/
theorem resetBlock_blockAtReset (s : State) : s.resetBlock.BlockAtReset where
  upc := rfl
  mode := rfl
  tickFlag := rfl
  timerEn := rfl
  preCnt := rfl
  tmrCnt := rfl
  curRow := rfl
  fbCnt := rfl
  fbPos := rfl
  frameAddress := memRead_of_nil rfl 0
  frameRows _ hi _ := (memRead_of_nil rfl _).trans (unlisted_frame_row _ hi)
  ledState i _ := memRead_of_nil rfl i
  dataLines := ⟨rfl, rfl, rfl⟩
  clockLines := ⟨rfl, rfl, rfl⟩
  latchAndEnable := ⟨rfl, rfl⟩
  microState := rfl
  rom := rfl

/-- R47's table does not speak of the chains and of the cycle's number. -/
theorem blockAtReset_resetCycle (s : State) : s.resetCycle.BlockAtReset := by
  rw [resetCycle_eq]
  exact { resetBlock_blockAtReset s with }

theorem reset_blockAtReset : State.reset.BlockAtReset := { resetBlock_blockAtReset State.reset with }

/-- The sequencer is at RINGRST after reset, so `tx_valid` is 0. -/
theorem reset_txValid : State.reset.txValid = false := by
  have hop : State.reset.currentOp = some .ringrst := by decide
  simp [State.txValid, hop]

theorem txValid_of_reset {s : State} (h : s.input.rstN = false) : s.txValid = false := by
  simp [State.txValid, h]

/-- Settles O1: a reset cycle writes R47's values, and the pins only fall in it. -/
theorem resetLeavesTheResetValues : Obligations.ResetLeavesTheResetValues := by
  refine ⟨reset_blockAtReset, reset_txValid, rfl, fun s hr => ?_⟩
  obtain ⟨hparams, -, hplan, hnow⟩ := resetCycle_keeps s
  refine ⟨s.resetCycle, step_of_reset hr, blockAtReset_resetCycle s, txValid_of_reset hr, ?_, hparams, hplan, hnow, ?_⟩
  · simp [State.srHardReset, hparams]
  · intro hquiet
    simp [resetCycle_eq, hquiet, State.resetBlock]

end Sys2Proof.Machine
end

section
/-! SUPPORT. Which writes the cycles of an operation hold, part by part. -/

namespace Sys2Proof.Machine

/-- Every write in the cycles `ms` has the property `P`. -/
def AllWrites (P : Write → Prop) (ms : List Micro) : Prop := ∀ m ∈ ms, ∀ w ∈ m, P w

variable {P : Write → Prop}

@[simp] theorem allWrites_nil : AllWrites P [] := by simp [AllWrites]

@[simp] theorem allWrites_cons (m : Micro) (ms : List Micro) :
    AllWrites P (m :: ms) ↔ (∀ w ∈ m, P w) ∧ AllWrites P ms := by simp [AllWrites]

@[simp] theorem allWrites_append (a b : List Micro) : AllWrites P (a ++ b) ↔ AllWrites P a ∧ AllWrites P b := by
  simp only [AllWrites, List.mem_append]
  exact ⟨fun h => ⟨fun m hm => h m (.inl hm), fun m hm => h m (.inr hm)⟩, fun h m hm => hm.elim (h.1 m) (h.2 m)⟩

@[simp] theorem allWrites_idle (k : Nat) : AllWrites P (List.replicate k []) := by
  intro m hm
  simp [List.eq_of_mem_replicate hm]

@[simp] theorem allWrites_inFirst (w : Micro) (ms : List Micro) :
    AllWrites P (inFirst w ms) ↔ (∀ x ∈ w, P x) ∧ AllWrites P ms := by
  cases ms with
  | nil => simp [inFirst]
  | cons m ms =>
    simp only [inFirst, allWrites_cons, List.forall_mem_append]
    tauto

@[simp] theorem allWrites_inLast (w : Micro) (ms : List Micro) :
    AllWrites P (inLast w ms) ↔ (∀ x ∈ w, P x) ∧ AllWrites P ms := by
  induction ms with
  | nil => simp [inLast]
  | cons m ms ih =>
    cases ms with
    | nil =>
      simp only [inLast, allWrites_cons, List.forall_mem_append]
      tauto
    | cons m' ms =>
      rw [inLast, allWrites_cons, ih, allWrites_cons m (m' :: ms)]
      tauto

@[simp] theorem allWrites_whole (ms : List Micro) : AllWrites P (whole ms) ↔ P .retire ∧ AllWrites P ms := by
  simp [whole]

theorem allWrites_flatMap {α : Type} {l : List α} {f : α → List Micro} (h : ∀ a ∈ l, AllWrites P (f a)) :
    AllWrites P (l.flatMap f) := by
  intro m hm
  obtain ⟨a, ha, hma⟩ := List.mem_flatMap.mp hm
  exact h a ha m hma

@[simp] theorem allWrites_phase (t : Nat) (m : Micro) : AllWrites P (phase t m) ↔ ∀ w ∈ m, P w := by simp [phase]

@[simp] theorem allWrites_clockBit (t : Nat) (ch : Chain) (v : Bool) :
    AllWrites P (clockBit t ch v) ↔ P (.data ch v) ∧ P (.clk ch false) ∧ P (.clk ch true) := by
  simp [clockBit]

@[simp] theorem allWrites_setData (ch : Chain) (v : Bool) : AllWrites P (setDataCycles ch v) ↔ P (.data ch v) := by
  simp [setDataCycles]

@[simp] theorem allWrites_latchStrobe (t : Nat) :
    AllWrites P (latchStrobe t) ↔ P (.lat true) ∧ P (.lat false) := by simp [latchStrobe]

@[simp] theorem allWrites_setOe (v : Bool) : AllWrites P (setOeCycles v) ↔ P (.oe v) := by simp [setOeCycles]

@[simp] theorem allWrites_sample (k : Nat) (row : BitVec 4) :
    AllWrites P (sampleCycles k row) ↔ P (.capture row) := by simp [sampleCycles]

/-- Every write to the pins of one chain has the property `P`. -/
def AllPinWrites (P : Write → Prop) (ch : Chain) : Prop := ∀ v, P (.data ch v) ∧ P (.clk ch v)

theorem AllPinWrites.clockBit {ch : Chain} (h : AllPinWrites P ch) (t : Nat) (v : Bool) :
    AllWrites P (Machine.clockBit t ch v) := by
  simp [(h v).1, (h false).2, (h true).2]

theorem AllPinWrites.flush {ch : Chain} (h : AllPinWrites P ch) (t : Nat) : AllWrites P (flushCycles t ch) := by
  intro m hm
  obtain ⟨l, hl, hml⟩ := List.mem_flatten.mp hm
  rw [List.eq_of_mem_replicate hl] at hml
  exact h.clockBit t _ m hml

theorem AllPinWrites.seed {ch : Chain} (h : AllPinWrites P ch) (t : Nat) : AllWrites P (seedCycles t ch) := by
  rw [seedCycles, allWrites_append, allWrites_setData]
  exact ⟨h.clockBit t _, (h _).1⟩

theorem allWrites_ringReset (hpins : ∀ ch, AllPinWrites P ch) (hoe : P (.oe false)) (hrow : P (.curRow 0)) (t : Nat) :
    AllWrites P (ringReset t) := by
  simpa [ringReset, hoe, (hpins _).flush, (hpins _).seed] using hrow

theorem allWrites_columnWrite (hpins : AllPinWrites P .ledc) (t : Nat) (msbFirst : Bool) (b : Byte) :
    AllWrites P (columnWrite t msbFirst b) :=
  allWrites_flatMap fun _ _ => hpins.clockBit t _

theorem allWrites_rowAdvance (hpins : AllPinWrites P .ledr) {q : BitVec 3} (hzero : P (.curRow 0))
    (hnext : q ≠ 5 → P (.curRow (q + 1))) (t : Nat) : AllWrites P (rowAdvance t q) := by
  unfold rowAdvance
  split
  · rw [allWrites_inFirst]
    exact ⟨by simpa using hzero, hpins.seed t⟩
  · next h =>
    rw [allWrites_inFirst]
    exact ⟨by simpa using hnext h, hpins.clockBit t _⟩

theorem allWrites_refreshCycles (hledc : AllPinWrites P .ledc) (hledr : AllPinWrites P .ledr) (hoe : ∀ v, P (.oe v))
    (hlat : ∀ v, P (.lat v)) {q : BitVec 3} (hzero : P (.curRow 0)) (hnext : q ≠ 5 → P (.curRow (q + 1))) (p : Params)
    (b : Byte) : AllWrites P (refreshCycles p q b) := by
  simp [refreshCycles, hoe, hlat, allWrites_columnWrite hledc, allWrites_rowAdvance hledr hzero hnext]

theorem allWrites_scanCycles (hpins : AllPinWrites P .swr) (hheader : P .header) (hcapture : ∀ row, P (.capture row))
    (p : Params) : AllWrites P (scanCycles p) := by
  have hrow : ∀ r, AllWrites P (scanRow p r) := by
    intro r
    rw [scanRow, allWrites_append, allWrites_sample]
    exact ⟨hcapture _, hpins.clockBit _ _⟩
  simp only [scanCycles, allWrites_append]
  exact ⟨⟨by simpa using hheader, allWrites_flatMap fun r _ => hrow r⟩, hpins.seed _⟩

theorem allWrites_fbEnterCycles (hpins : ∀ ch, AllPinWrites P ch) (hoe : ∀ v, P (.oe v)) (hlat : ∀ v, P (.lat v))
    (hrow : P (.curRow 0)) (hcnt : P (.fbCnt 0)) (hpos : P (.fbPos 0)) (t : Nat) : AllWrites P (fbEnterCycles t) := by
  simpa [fbEnterCycles, allWrites_ringReset hpins (hoe _) hrow, hoe, hlat] using ⟨hcnt, hpos⟩

theorem allWrites_fbStepCycles (hpins : AllPinWrites P .ledc) {cnt : BitVec 6} (hpos : ∀ q, P (.fbPos q))
    (hzero : P (.fbCnt 0)) (hnext : cnt + 1 ≠ 40 → P (.fbCnt (cnt + 1))) (t : Nat) (pos : BitVec 3) :
    AllWrites P (fbStepCycles t cnt pos) := by
  unfold fbStepCycles
  split
  · rw [allWrites_append]
    exact ⟨by simpa [hpos] using hzero, hpins.clockBit t _⟩
  · next h => simpa using hnext h

theorem cyclesOf_sample_next {row : BitVec 4} {s : State} {ms : List Micro} (h : cyclesOf (.sample row) s = .next ms) :
    ms = whole (sampleCycles s.params.settle row) := by
  simp only [cyclesOf, cyclesSample] at h
  split at h <;> cases h
  rfl

theorem cyclesOf_refresh_next {s : State} {ms : List Micro} (h : cyclesOf .refresh s = .next ms) :
    s.curRow.toNat < 6 ∧ ms = whole (refreshCycles s.params s.curRow (s.memRead .leds s.curRow.toNat)) := by
  simp only [cyclesOf, cyclesRefresh] at h
  split at h <;> cases h
  exact ⟨‹_›, rfl⟩

end Sys2Proof.Machine
end

section
/-! SUPPORT. The columns "written by" of 10_state.md: which register a write goes to, and which operations hold such
writes. -/

namespace Sys2Proof.Machine

/-- The registers that the sequencer alone writes, but for `upc` and the list of words, which every operation moves on. -/
inductive Register where
  | timerEn
  | mode
  | curRow
  | fbCnt
  | fbPos
  | frame
  | oe
  | lat
  | data (ch : Chain)
  | clk (ch : Chain)
  deriving DecidableEq

/-- The register a write goes to. -/
@[simp] def Write.register : Write → Option Register
  | .data ch _ => some (.data ch)
  | .clk ch _ => some (.clk ch)
  | .lat _ => some .lat
  | .oe _ => some .oe
  | .capture _ => some .frame
  | .header => some .frame
  | .curRow _ => some .curRow
  | .fbCnt _ => some .fbCnt
  | .fbPos _ => some .fbPos
  | .timerStart => some .timerEn
  | .deadlineMiss => some .mode
  | .consume => none
  | .upc _ => none
  | .retire => none
  | .retireCheck => none

/-- The register holds the same in both states. -/
def Register.Same : Register → State → State → Prop
  | .timerEn, s, t => t.timerEn = s.timerEn
  | .mode, s, t => t.mode = s.mode
  | .curRow, s, t => t.curRow = s.curRow
  | .fbCnt, s, t => t.fbCnt = s.fbCnt
  | .fbPos, s, t => t.fbPos = s.fbPos
  | .frame, s, t => t.frame = s.frame
  | .oe, s, t => t.ledrOe = s.ledrOe
  | .lat, s, t => t.ledrLat = s.ledrLat
  | .data ch, s, t => (t.line ch).data = (s.line ch).data
  | .clk ch, s, t => (t.line ch).clk = (s.line ch).clk

/-- What changes on an edge of the register's pin only is the same in both states (R106, R107). -/
def Register.DrivenSame : Register → State → State → Prop
  | .clk .swr, s, t => t.swr = s.swr
  | .clk .ledr, s, t => t.ledr = s.ledr
  | .clk .ledc, s, t => t.ledc = s.ledc
  | .lat, s, t => t.ledrLatch = s.ledrLatch
  | _, _, _ => True

theorem Register.Same.refl (r : Register) (s : State) : r.Same s s := by cases r <;> rfl

theorem Register.Same.trans {r : Register} {s t u : State} (h : r.Same s t) (h' : r.Same t u) : r.Same s u := by
  cases r <;> exact Eq.trans h' h

theorem Register.DrivenSame.refl (r : Register) (s : State) : r.DrivenSame s s := by
  cases r with
  | clk ch => cases ch <;> rfl
  | lat => rfl
  | _ => trivial

theorem Register.DrivenSame.trans {r : Register} {s t u : State} (h : r.DrivenSame s t) (h' : r.DrivenSame t u) :
    r.DrivenSame s u := by
  cases r with
  | clk ch => cases ch <;> exact Eq.trans h' h
  | lat => exact Eq.trans h' h
  | _ => trivial

theorem Register.same_opStart (r : Register) (s : State) : r.Same s s.opStart := by cases r <;> rfl

theorem Register.drivenSame_opStart (r : Register) (s : State) : r.DrivenSame s s.opStart := by
  cases r with
  | clk ch => cases ch <;> rfl
  | lat => rfl
  | _ => trivial

/-- The operations that clock a chain (R36, R37, R39). -/
def Clocks (i : Instr) (ch : Chain) : Prop :=
  (∃ v, i = .clkbit ch v) ∨ i = .ringrst ∨ i = .fbenter ∨
    match ch with
    | .swr => i = .scan
    | .ledr => i = .refresh
    | .ledc => i = .refresh ∨ i = .fbstep

/-- 10_state.md, the columns "written by". -/
@[simp] def Register.WrittenBy : Register → Instr → Prop
  | .timerEn, i => i = .timeron
  | .mode, i => i = .check
  | .curRow, i => i = .ringrst ∨ i = .refresh ∨ i = .fbenter
  | .fbCnt, i => i = .fbenter ∨ i = .fbstep
  | .fbPos, i => i = .fbenter ∨ i = .fbstep
  | .frame, i => (∃ row, i = .sample row) ∨ i = .scan
  | .oe, i => (∃ v, i = .setoe v) ∨ i = .ringrst ∨ i = .refresh ∨ i = .fbenter
  | .lat, i => i = .latch ∨ i = .refresh ∨ i = .fbenter
  | .data ch, i => (∃ v, i = .setdata ch v) ∨ Clocks i ch
  | .clk ch, i => Clocks i ch

/-- The write goes to a register whose rule names the operation as a writer, or to none of them. -/
@[simp] def Write.AllowedIn (i : Instr) (w : Write) : Prop := ∀ r ∈ w.register, r.WrittenBy i

/-- An operation that clocks a chain may write its pins. -/
theorem allPinWrites_of_clocks {i : Instr} {ch : Chain} (h : Clocks i ch) : AllPinWrites (Write.AllowedIn i) ch := by
  intro v
  simp [h]

/-- Every write of an operation goes to a register whose rule names it as a writer. -/
theorem allWrites_allowed {i : Instr} {s : State} {ms : List Micro} (h : cyclesOf i s = .next ms) :
    AllWrites (Write.AllowedIn i) ms := by
  have hmove : Write.AllowedIn i .retire := by simp
  have hw : ∀ {l : List Micro}, AllWrites (Write.AllowedIn i) l → AllWrites (Write.AllowedIn i) (whole l) :=
    fun hl => (allWrites_whole _).mpr ⟨hmove, hl⟩
  cases i with
  | clkbit ch v => cases h; exact hw ((allPinWrites_of_clocks (.inl ⟨v, rfl⟩)).clockBit _ _)
  | setdata ch v => cases h; exact hw (by simp)
  | latch => cases h; exact hw (by simp)
  | setoe v => cases h; exact hw (by simp)
  | sample row =>
    rw [cyclesOf_sample_next h]
    exact hw (by simp)
  | ringrst =>
    cases h
    refine hw (allWrites_ringReset (fun ch => allPinWrites_of_clocks ?_) ?_ ?_ _) <;>
      simp [Clocks]
  | timeron => cases h; exact hw (by simp)
  | refresh =>
    rw [(cyclesOf_refresh_next h).2]
    refine hw (allWrites_refreshCycles (allPinWrites_of_clocks ?_) (allPinWrites_of_clocks ?_) ?_ ?_ ?_ ?_ _ _) <;>
      simp [Clocks]
  | scan =>
    cases h
    split
    · simp [pollCycle]
    · refine hw (allWrites_scanCycles (allPinWrites_of_clocks ?_) ?_ ?_ _) <;>
        simp [Clocks]
  | handoff => cases h; split <;> simp [pollCycle]
  | waittick => cases h; split <;> simp [pollCycle]
  | check => cases h; split <;> simp
  | fbenter =>
    cases h
    refine hw (allWrites_fbEnterCycles (fun ch => allPinWrites_of_clocks ?_) ?_ ?_ ?_ ?_ ?_ _) <;>
      simp [Clocks]
  | fbstep =>
    cases h
    refine hw (allWrites_fbStepCycles (allPinWrites_of_clocks ?_) ?_ ?_ ?_ _ _) <;>
      simp [Clocks]

/-! ## What a register that is not written keeps -/

theorem line_setLine (s : State) (ch ch' : Chain) (l : Line) :
    (s.setLine ch l).line ch' = if ch' = ch then l else s.line ch' := by
  cases ch <;> cases ch' <;> rfl

theorem write_same (inp : Input) (s : State) {w : Write} {r : Register} (h : w.register ≠ some r) :
    r.Same s (s.write inp w) := by
  cases w with
  | data ch v =>
    cases r with
    | data ch' =>
      have hne : ch' ≠ ch := by simpa [eq_comm] using h
      simp [Register.Same, State.write, State.setData, line_setLine, hne]
    | clk ch' =>
      simp only [Register.Same, State.write, State.setData, line_setLine]
      split <;> simp_all
    | _ => simp [Register.Same, State.write]
  | clk ch v =>
    cases r with
    | clk ch' =>
      have hne : ch' ≠ ch := by simpa [eq_comm] using h
      simp [Register.Same, State.write, State.setClk, line_setLine, hne]
    | data ch' =>
      simp only [Register.Same, State.write, State.setClk, line_setLine]
      split <;> simp_all
    | _ => simp [Register.Same, State.write]
  | _ =>
    cases r with
    | data ch => cases ch <;> simp [Register.Same, State.write]
    | clk ch => cases ch <;> simp [Register.Same, State.write]
    | _ => simp_all [Register.Same, State.write]

theorem foldl_write_same (inp : Input) {m : Micro} {r : Register} (h : ∀ w ∈ m, w.register ≠ some r) (s : State) :
    r.Same s (m.foldl (State.write inp) s) := by
  induction m generalizing s with
  | nil => exact .refl r s
  | cons w m ih => exact (write_same inp s (h w (by simp))).trans (ih (fun w' hw => h w' (by simp [hw])) _)

theorem background_same (r : Register) (s : State) (clr : Bool) : r.Same s (s.background clr) := by
  cases r with
  | data ch => cases ch <;> simp [Register.Same]
  | clk ch => cases ch <;> simp [Register.Same]
  | _ => simp [Register.Same]

/-- The chains' answer to a cycle and its glitch reach no register of the sequencer. -/
theorem edges_disturb_same (r : Register) (old s : State) (g : Glitch) :
    r.Same s ((State.edges old s).disturb g) := by
  cases r with
  | data ch => cases ch <;> simp [Register.Same]
  | clk ch => cases ch <;> simp [Register.Same]
  | _ => simp [Register.Same]

theorem cycle_same {m : Micro} {r : Register} (h : ∀ w ∈ m, w.register ≠ some r) (s : State) :
    r.Same s (s.cycle m) :=
  ((background_same r s _).trans (foldl_write_same _ h _)).trans (edges_disturb_same r _ _ _)

/-- The chains and the latch change in a cycle without a glitch only where a pin rises (R106, R107). -/
theorem cycle_chains {s : State} (hg : s.input.glitch = Glitch.none) (m : Micro) :
    (s.cycle m).swr = (if rises s.swrLine.clk (s.cycle m).swrLine.clk then shiftIn s.swr s.swrLine.data else s.swr) ∧
      (s.cycle m).ledr =
        (if rises s.ledrLine.clk (s.cycle m).ledrLine.clk then shiftIn s.ledr s.ledrLine.data else s.ledr) ∧
      (s.cycle m).ledc =
        (if rises s.ledcLine.clk (s.cycle m).ledcLine.clk then shiftIn s.ledc s.ledcLine.data else s.ledc) ∧
      (s.cycle m).ledrLatch = (if rises s.ledrLat (s.cycle m).ledrLat then s.ledr else s.ledrLatch) := by
  have hkept := foldl_write_keeps s.input m (s.background (m.any Write.clears))
  simp [State.cycle, hg, hkept]

theorem cycle_drivenSame {s : State} (hg : s.input.glitch = Glitch.none) {m : Micro} {r : Register}
    (h : r.Same s (s.cycle m)) : r.DrivenSame s (s.cycle m) := by
  obtain ⟨hswr, hledr, hledc, hlatch⟩ := cycle_chains hg m
  cases r with
  | clk ch =>
    cases ch with
    | swr => rw [show (s.cycle m).swrLine.clk = s.swrLine.clk from h, rises_self] at hswr; exact hswr
    | ledr => rw [show (s.cycle m).ledrLine.clk = s.ledrLine.clk from h, rises_self] at hledr; exact hledr
    | ledc => rw [show (s.cycle m).ledcLine.clk = s.ledcLine.clk from h, rises_self] at hledc; exact hledc
  | lat => rw [show (s.cycle m).ledrLat = s.ledrLat from h, rises_self] at hlatch; exact hlatch
  | _ => trivial

theorem cycles_same {ms : List Micro} {r : Register} (h : AllWrites (fun w => w.register ≠ some r) ms) (s : State) :
    r.Same s (s.cycles ms) :=
  cycles_induction (fun m hm _ hs => hs.trans (cycle_same (h m hm) _)) (.refl r s)

theorem cycles_drivenSame {ms : List Micro} {r : Register} (h : AllWrites (fun w => w.register ≠ some r) ms) {s : State}
    (hg : s.NeverGlitched) : r.DrivenSame s (s.cycles ms) := by
  refine (cycles_induction (C := fun t => t.plan = s.plan ∧ r.DrivenSame s t) ?_ ⟨rfl, .refl r s⟩).2
  intro m hm t ⟨hplan, hsame⟩
  have hquiet : t.input.glitch = Glitch.none := by
    rw [State.input, inputAt_congr hplan]
    exact hg _
  exact ⟨(cycle_keeps t m).2.2.1.trans hplan, hsame.trans (cycle_drivenSame hquiet (cycle_same (h m hm) t))⟩

/-- No write of an operation goes to a register whose rule does not name it as a writer. -/
theorem allWrites_ne_of_not_writtenBy {i : Instr} {s : State} {ms : List Micro} (h : cyclesOf i s = .next ms)
    {r : Register} (hr : ¬r.WrittenBy i) : AllWrites (fun w => w.register ≠ some r) ms :=
  fun m hm w hw hwr => hr (allWrites_allowed h m hm w hw r hwr)

section

variable {i : Instr} {s t : State} (h : exec i s = .next t) (hreset : s.NoReset (t.now - s.now)) {r : Register}
  (hr : ¬r.WrittenBy i)

include h hreset hr

/-- Without a reset, an operation that a register's rule does not name as a writer leaves it as it was. -/
theorem exec_same : r.Same s t := by
  obtain ⟨ms, hms, rfl⟩ := exec_of_noReset h hreset
  have hopen : r.Same s s.opStart := r.same_opStart s
  exact hopen.trans (cycles_same (allWrites_ne_of_not_writtenBy hms hr) _)

/-- And without a glitch, what the register's pin drives too. -/
theorem exec_drivenSame (hg : s.NeverGlitched) : r.DrivenSame s t := by
  obtain ⟨ms, hms, rfl⟩ := exec_of_noReset h hreset
  have hopen : r.DrivenSame s s.opStart := r.drivenSame_opStart s
  exact hopen.trans (cycles_drivenSame (allWrites_ne_of_not_writtenBy hms hr) hg)

end

theorem exec_keeps {i : Instr} {s t : State} (h : exec i s = .next t) (hreset : s.NoReset (t.now - s.now)) :
    t.params = s.params ∧ t.plan = s.plan := by
  obtain ⟨ms, -, rfl⟩ := exec_of_noReset h hreset
  obtain ⟨hparams, -, hplan, -⟩ := cycles_keeps s.opStart ms
  exact ⟨hparams, hplan⟩

theorem line_eq_of_same {s t : State} {ch : Chain} (hdata : (Register.data ch).Same s t)
    (hclk : (Register.clk ch).Same s t) : t.line ch = s.line ch := by
  cases hs : s.line ch
  cases ht : t.line ch
  simp_all [Register.Same]

/-- Settles O56: every write of an operation goes to a register whose rule names it (`allWrites_allowed`), a register
without writes keeps its value, and a chain or the latch whose pin is not written keeps its stages. -/
theorem eachRegisterHasItsWriters : Obligations.EachRegisterHasItsWriters := by
  intro i s t h hreset hg
  obtain ⟨hparams, hplan⟩ := exec_keeps h hreset
  have same : ∀ r : Register, ¬r.WrittenBy i → r.Same s t := fun r hr => exec_same h hreset hr
  have driven : ∀ r : Register, ¬r.WrittenBy i → r.DrivenSame s t := fun r hr => exec_drivenSame h hreset hr hg
  have pins : ∀ ch, ¬Clocks i ch → (∀ v, i ≠ .setdata ch v) → t.line ch = s.line ch := fun ch hclk hdata =>
    line_eq_of_same (same (.data ch) (by simp [hclk, hdata])) (same (.clk ch) hclk)
  refine ⟨hparams, hplan, fun h1 => same .timerEn h1, fun h1 h2 h3 => same .curRow (by simp [*]),
    fun h1 h2 => ⟨same .fbCnt (by simp [*]), same .fbPos (by simp [*])⟩,
    fun h1 h2 a => memRead_congr .frame hparams (same .frame (by simp [*])) a,
    fun h1 h2 h3 h4 => same .oe (by simp [*]), fun h1 h2 h3 => ?lat, fun h1 h2 h3 h4 => ?swr,
    fun h1 h2 h3 h4 => ?ledr, fun h1 h2 h3 h4 h5 => ?ledc⟩
  case lat =>
    have hr : ¬Register.lat.WrittenBy i := by simp [*]
    exact ⟨same .lat hr, driven .lat hr⟩
  case swr =>
    have hr : ¬Clocks i .swr := by simp [Clocks, *]
    exact ⟨driven (.clk .swr) hr, pins .swr hr⟩
  case ledr =>
    have hr : ¬Clocks i .ledr := by simp [Clocks, *]
    exact ⟨driven (.clk .ledr) hr, pins .ledr hr⟩
  case ledc =>
    have hr : ¬Clocks i .ledc := by simp [Clocks, *]
    exact ⟨driven (.clk .ledc) hr, pins .ledc hr⟩

/-! ## CHECK -/

/-- The cycles of CHECK: one, with the exception entry in it exactly where the tick flag is set (R174). -/
theorem cyclesOf_check (s : State) :
    cyclesOf .check s = .next (if s.tickFlag then [[.deadlineMiss, .retireCheck]] else [[.upc 2, .retireCheck]]) := rfl

/-- CHECK's cycle with the flag clear leaves the mode (R174). -/
theorem cycle_checkPass_mode (s : State) : (s.cycle [.upc 2, .retireCheck]).mode = s.mode := by
  simp [State.cycle, State.write]

/-- CHECK's cycle with the flag set: DeadlineMiss (R209). -/
theorem cycle_deadlineMiss_mode (s : State) : (s.cycle [.deadlineMiss, .retireCheck]).mode = .fallback := by
  simp [State.cycle, State.write]

/-- Settles O55: `mode` has CHECK as its only writer, and of CHECK's two cycles only DeadlineMiss writes it. -/
theorem onlyCheckRaisesDeadlineMiss : Obligations.OnlyCheckRaisesDeadlineMiss := by
  intro i s t h hreset hmode
  have hcheck : i = .check := by
    by_contra hne
    exact hmode (exec_same (r := .mode) h hreset hne)
  subst hcheck
  obtain ⟨ms, hms, rfl⟩ := exec_of_noReset h hreset
  rw [cyclesOf_check] at hms
  cases hflag : s.tickFlag with
  | true =>
    simp only [hflag, ↓reduceIte, Host.Outcome.next.injEq] at hms
    subst hms
    exact ⟨rfl, rfl, cycle_deadlineMiss_mode _⟩
  | false =>
    simp only [hflag, Bool.false_eq_true, ↓reduceIte, Host.Outcome.next.injEq] at hms
    subst hms
    exact absurd (cycle_checkPass_mode s.opStart) hmode

end Sys2Proof.Machine
end

section
/-! SUPPORT. The invariant of the machine, cycle by cycle: inside an operation all of it but the low strobe holds. -/

namespace Sys2Proof.Machine

/-- What `State.Inv` says of every cycle: all but the strobe, which LATCH raises for a phase (R102). -/
structure State.MidInv (s : State) : Prop where
  params : s.params.Legal
  upc : s.upc.toNat ≤ 9
  curRow : s.curRow.toNat ≤ 5
  preCnt : s.preCnt < s.params.prescaler
  tmrCnt : s.tmrCnt ≤ s.params.top
  fbCnt : s.fbCnt.toNat < 40
  memory : ∀ sp, Memory.wf (Space.size sp) (Space.unlisted s.params sp) (s.space sp) = true
  atStart : s.pending = []
  modeOfAddress : s.source = .rom → (s.mode = .fallback ↔ 7 ≤ s.upc.toNat)

theorem inv_iff_midInv (s : State) : s.Inv ↔ s.MidInv ∧ s.ledrLat = false where
  mp h := ⟨{ h with memory := fun sp => by cases sp; exacts [h.frame, h.leds] }, h.strobe⟩
  mpr h := { h.1 with frame := h.1.memory .frame, leds := h.1.memory .leds, strobe := h.2 }

/-- The block registers at reset meet the invariant, for legal parameters and empty storage. -/
theorem State.BlockAtReset.inv {s : State} (h : s.BlockAtReset) (hp : s.params.Legal) (hf : s.frame = [])
    (hl : s.leds = []) : s.Inv where
  params := hp
  upc := by simp [h.upc]
  curRow := by simp [h.curRow]
  preCnt := by rw [h.preCnt]; exact hp.prescaler_pos
  tmrCnt := by simp [h.tmrCnt]
  fbCnt := by simp [h.fbCnt]
  frame := by rw [hf]; rfl
  leds := by rw [hl]; rfl
  atStart := h.microState
  strobe := h.latchAndEnable.1
  modeOfAddress _ := by simp [h.mode, h.upc]

theorem resetCycle_inv {s : State} (hp : s.params.Legal) : s.resetCycle.Inv := by
  refine (blockAtReset_resetCycle s).inv ?_ ?_ ?_
  · rwa [(resetCycle_keeps s).1]
  · simp [State.resetCycle, State.resetBlock]
  · simp [State.resetCycle, State.resetBlock]

/-- The parameters of the reset state are legal, whatever the OPEN ones are (R8). -/
theorem config_params_legal : Config.params.Legal where
  prescaler_pos := Nat.le_add_left 1 _
  top_fits := Nat.mod_lt _ (Nat.two_pow_pos _)
  tPhase_pos := le_rfl

/-- Settles O50: the reset values are in range, storage is empty, and address 0 makes no claim on the rings. -/
theorem resetMeetsTheInvariant : Obligations.ResetMeetsTheInvariant :=
  ⟨reset_blockAtReset.inv config_params_legal rfl rfl, fun _ hupc => absurd hupc (by decide)⟩

/-! ## The timer and the LED write port -/

theorem nextPre_lt {s : State} (h : s.preCnt < s.params.prescaler) : s.nextPre < s.params.prescaler := by
  unfold State.nextPre
  split
  · next hen =>
    split
    · omega
    · next hstep =>
      have hne : s.preCnt ≠ s.params.prescaler - 1 := by simpa [State.tstep, hen] using hstep
      have hmod := Nat.mod_le (s.preCnt + 1) (2 ^ preWidth s.params)
      omega
  · exact h

theorem nextTmr_le {s : State} (h : s.tmrCnt ≤ s.params.top) : s.nextTmr ≤ s.params.top := by
  unfold State.nextTmr
  split
  · next hstep =>
    split
    · exact Nat.zero_le _
    · next hovf =>
      have hne : s.tmrCnt ≠ s.params.top := by simpa [State.ovf, hstep] using hovf
      have hmod := Nat.mod_le (s.tmrCnt + 1) (2 ^ s.params.timerWidth)
      omega
  · exact h

theorem ledPort_wf {s : State} (inp : Input)
    (h : Memory.wf (Space.size .leds) (Space.unlisted s.params .leds) s.leds = true) :
    Memory.wf (Space.size .leds) (Space.unlisted s.params .leds) (s.ledPort inp).leds = true := by
  unfold State.ledPort
  split
  · exact memWrite_wf s .leds .leds _ _ h
  · exact h

/-- The invariant passes on to a state with the same registers, whose counters and storage meet it. -/
theorem State.MidInv.transfer {s t : State} (h : s.MidInv)
    (hsame : t.params = s.params ∧ t.upc = s.upc ∧ t.source = s.source ∧ t.pending = s.pending ∧ t.mode = s.mode ∧
      t.curRow = s.curRow ∧ t.fbCnt = s.fbCnt)
    (hpre : t.preCnt < s.params.prescaler) (htmr : t.tmrCnt ≤ s.params.top)
    (hmem : ∀ sp, Memory.wf (Space.size sp) (Space.unlisted s.params sp) (t.space sp) = true) : t.MidInv := by
  obtain ⟨hparams, hupc, hsource, hpending, hmode, hrow, hcnt⟩ := hsame
  constructor
  case params => exact hparams ▸ h.params
  case upc => exact hupc ▸ h.upc
  case curRow => exact hrow ▸ h.curRow
  case preCnt => rwa [hparams]
  case tmrCnt => rwa [hparams]
  case fbCnt => exact hcnt ▸ h.fbCnt
  case memory => rwa [hparams]
  case atStart => exact hpending.trans h.atStart
  case modeOfAddress => rw [hsource, hmode, hupc]; exact h.modeOfAddress

theorem background_midInv {s : State} (h : s.MidInv) (clr : Bool) : (s.background clr).MidInv := by
  refine h.transfer (by simp) (by simpa using nextPre_lt h.preCnt) (by simpa using nextTmr_le h.tmrCnt) fun sp => ?_
  cases sp with
  | frame => simpa [State.space] using h.memory .frame
  | leds => simpa [State.space] using ledPort_wf s.input (h.memory .leds)

/-! ## The writes of the sequencer -/

/-- The writes that keep the invariant from every state. CHECK's write of `upc` does so in NORMAL only. -/
@[simp] def Write.Fits : Write → Prop
  | .curRow r => r.toNat ≤ 5
  | .fbCnt n => n.toNat < 40
  | .upc _ => False
  | _ => True

/-- The ROM's successors stay in the ROM, and on their side of address 7 (R170, R212). -/
theorem romNext_range {a : BitVec 4} (h : a.toNat ≤ 9) :
    (romNext a).toNat ≤ 9 ∧ (7 ≤ (romNext a).toNat ↔ 7 ≤ a.toNat) := by
  revert a; decide

theorem retire_midInv {s : State} (h : s.MidInv) : s.retire.MidInv := by
  unfold State.retire
  obtain ⟨hle, hside⟩ := romNext_range h.upc
  split
  · next hrom => exact { h with upc := hle, modeOfAddress := fun _ => (h.modeOfAddress hrom).trans hside.symm }
  · exact { h with modeOfAddress := nofun }

theorem memWrite_midInv {s : State} (h : s.MidInv) (i : Nat) (v : Byte) : (s.memWrite .frame i v).MidInv :=
  h.transfer (by simp) (by simpa using h.preCnt) (by simpa using h.tmrCnt)
    fun sp => memWrite_wf s .frame sp i v (h.memory sp)

theorem drop_eq_rom {q : Source} : q.drop = .rom ↔ q = .rom := by cases q <;> simp [Source.drop]

theorem write_midInv {s : State} (h : s.MidInv) (inp : Input) {w : Write} (hw : w.Fits) : (s.write inp w).MidInv := by
  cases w with
  | data ch v => cases ch <;> exact { h with }
  | clk ch v => cases ch <;> exact { h with }
  | lat v => exact { h with }
  | oe v => exact { h with }
  | capture row => exact memWrite_midInv h _ _
  | header => exact memWrite_midInv h _ _
  | curRow r => exact { h with curRow := hw }
  | fbCnt n => exact { h with fbCnt := hw }
  | fbPos p => exact { h with }
  | timerStart => exact { h with preCnt := h.params.prescaler_pos, tmrCnt := Nat.zero_le _ }
  | consume => exact h
  | deadlineMiss => exact { h with upc := by simp [State.write], modeOfAddress := fun _ => by simp [State.write] }
  | upc a => exact absurd hw id
  | retire => exact retire_midInv h
  | retireCheck => exact { h with modeOfAddress := fun hrom => h.modeOfAddress (drop_eq_rom.mp hrom) }

theorem foldl_write_midInv {s : State} (h : s.MidInv) (inp : Input) {m : Micro} (hm : ∀ w ∈ m, w.Fits) :
    (m.foldl (State.write inp) s).MidInv := by
  induction m generalizing s with
  | nil => exact h
  | cons w m ih => exact ih (write_midInv h inp (hm w (by simp))) fun w' hw => hm w' (by simp [hw])

theorem edges_disturb_midInv {s : State} (h : s.MidInv) (old : State) (g : Glitch) :
    ((State.edges old s).disturb g).MidInv :=
  h.transfer (by simp) (by simpa using h.preCnt) (by simpa using h.tmrCnt)
    fun sp => by cases sp <;> simpa [State.space] using h.memory _

theorem cycle_midInv {s : State} (h : s.MidInv) {m : Micro} (hm : ∀ w ∈ m, w.Fits) : (s.cycle m).MidInv :=
  edges_disturb_midInv (foldl_write_midInv (background_midInv h _) _ hm) _ _

theorem cycles_midInv {s : State} (h : s.MidInv) {ms : List Micro} (hms : AllWrites Write.Fits ms) :
    (s.cycles ms).MidInv :=
  cycles_induction (C := State.MidInv) (fun m hm _ hs => cycle_midInv hs (hms m hm)) h

/-- From a state that meets the invariant, every operation but CHECK writes values in range only. -/
theorem allWrites_fits {i : Instr} {s : State} {ms : List Micro} (h : cyclesOf i s = .next ms) (hs : s.MidInv)
    (hi : i ≠ .check) : AllWrites Write.Fits ms := by
  have hw : ∀ {l : List Micro}, AllWrites Write.Fits l → AllWrites Write.Fits (whole l) :=
    fun hl => (allWrites_whole _).mpr ⟨trivial, hl⟩
  have hpins : ∀ ch, AllPinWrites Write.Fits ch := fun _ _ => ⟨trivial, trivial⟩
  cases i with
  | clkbit ch v => cases h; exact hw ((hpins ch).clockBit _ _)
  | setdata ch v => cases h; exact hw (by simp)
  | latch => cases h; exact hw (by simp)
  | setoe v => cases h; exact hw (by simp)
  | sample row => rw [cyclesOf_sample_next h]; exact hw (by simp)
  | ringrst => cases h; exact hw (allWrites_ringReset hpins trivial (by simp) _)
  | timeron => cases h; exact hw (by simp)
  | refresh =>
    have hrow : s.curRow ≠ 5 → (s.curRow + 1).toNat ≤ 5 := by
      have := hs.curRow
      intro hne
      bv_omega
    rw [(cyclesOf_refresh_next h).2]
    exact hw (allWrites_refreshCycles (hpins _) (hpins _) (fun _ => trivial) (fun _ => trivial) (by simp) hrow _ _)
  | scan =>
    cases h
    split
    · simp [pollCycle]
    · exact hw (allWrites_scanCycles (hpins _) trivial (fun _ => trivial) _)
  | handoff => cases h; split <;> simp [pollCycle]
  | waittick => cases h; split <;> simp [pollCycle]
  | check => exact absurd rfl hi
  | fbenter =>
    cases h
    exact hw (allWrites_fbEnterCycles hpins (fun _ => trivial) (fun _ => trivial) (by simp) (by simp) trivial _)
  | fbstep =>
    have hcnt : s.fbCnt + 1 ≠ 40 → (s.fbCnt + 1).toNat < 40 := by
      have := hs.fbCnt
      intro hne
      bv_omega
    cases h
    exact hw (allWrites_fbStepCycles (hpins _) (fun _ => trivial) (by simp) hcnt _ _)

/-- In the ROM, CHECK runs in NORMAL mode: it stands at address 6 (R212). -/
theorem mode_of_check {s : State} (h : s.MidInv) (hop : s.currentOp = some .check) (hrom : s.source = .rom) :
    s.mode ≠ .fallback := by
  intro hfb
  rw [currentOp_of_rom hrom, romOp_eq_check] at hop
  have hhigh := (h.modeOfAddress hrom).mp hfb
  rw [hop] at hhigh
  exact absurd hhigh (by decide)

/-- CHECK's write of `upc` 2 keeps the invariant in NORMAL mode, and in direct execution (R174, R212). -/
theorem cycle_checkPass_midInv {s : State} (h : s.MidInv) (hmode : s.source = .rom → s.mode ≠ .fallback) :
    (s.cycle [.upc 2, .retireCheck]).MidInv := by
  have hback := background_midInv h false
  have hupc : ((s.background false).write s.input (.upc 2)).MidInv :=
    { hback with
      upc := by simp [State.write]
      modeOfAddress := by simpa [State.write] using hmode }
  exact edges_disturb_midInv (write_midInv hupc s.input (w := .retireCheck) trivial) _ _

/-- From a state that meets the invariant, the cycles of the operation at the sequencer keep all of it but the strobe. -/
theorem currentOp_cycles_midInv {s : State} (h : s.MidInv) {i : Instr} (hop : s.currentOp = some i) {ms : List Micro}
    (hms : cyclesOf i s = .next ms) : (s.cycles ms).MidInv := by
  by_cases hi : i = .check
  · subst hi
    rw [cyclesOf_check] at hms
    split at hms <;> cases hms
    · exact cycles_midInv h (by simp)
    · exact cycle_checkPass_midInv h (mode_of_check h hop)
  · exact cycles_midInv h (allWrites_fits hms h hi)

/-! ## The strobe -/

/-- What a write leaves on the strobe's pin depends on what the pin was. -/
theorem write_ledrLat_congr (inp inp' : Input) {s t : State} (h : s.ledrLat = t.ledrLat) (w : Write) :
    (s.write inp w).ledrLat = (t.write inp' w).ledrLat := by
  cases w <;> simp [State.write, h]

theorem foldl_write_ledrLat_congr (inp inp' : Input) {s t : State} (h : s.ledrLat = t.ledrLat) (m : Micro) :
    (m.foldl (State.write inp) s).ledrLat = (m.foldl (State.write inp') t).ledrLat := by
  induction m generalizing s t with
  | nil => exact h
  | cons w m ih => exact ih (write_ledrLat_congr inp inp' h w)

/-- The strobe's pin after a run, with glitches in it or not, is as the sequencer's part of the run leaves it. -/
theorem cycles_ledrLat (ms : List Micro) {s t : State} (h : s.ledrLat = t.ledrLat) (n : Nat) :
    (s.cycles ms).ledrLat = (t.seqRun ms n).ledrLat := by
  induction ms generalizing s t n with
  | nil => exact h
  | cons m ms ih =>
    have hback : (s.background (m.any Write.clears)).ledrLat = t.ledrLat := by simp [h]
    refine ih ?_ (n + 1)
    simpa [State.cycle, State.seqCycle] using foldl_write_ledrLat_congr s.input (t.inputAt n) hback m

/-- Every operation leaves the strobe low again (R102). -/
theorem cycles_strobe_low {i : Instr} {s : State} {ms : List Micro} (h : cyclesOf i s = .next ms)
    (hs : s.ledrLat = false) : (s.cycles ms).ledrLat = false := by
  by_cases hi : Register.lat.WrittenBy i
  · rw [cycles_ledrLat ms rfl 0]
    rcases hi with rfl | rfl | rfl
    · cases h
      rw [seqRun_whole (by simp [latchStrobe, phase]), seqRun_latchStrobe _ _ hs]
      simpa using hs
    · rw [(cyclesOf_refresh_next h).2, seqRun_whole (by simp [refreshCycles, setOeCycles]),
        seqRun_refreshCycles _ _ _ _ hs]
      simpa using hs
    · cases h
      rw [seqRun_whole (by simp [fbEnterCycles, latchStrobe, phase]), seqRun_fbEnterCycles _ _ hs]
      simpa using hs
  · have hsame : Register.lat.Same s (s.cycles ms) := cycles_same (allWrites_ne_of_not_writtenBy h hi) s
    exact Eq.trans hsame hs

/-! ## Every step -/

/-- An operation that a state which meets the invariant has at its sequencer leads to such a state, reset or not. -/
theorem exec_inv {i : Instr} {s t : State} (hs : s.Inv) (hop : s.currentOp = some i) (h : exec i s = .next t) :
    t.Inv := by
  obtain ⟨ms, hms, rfl⟩ := exec_next_iff.mp h
  obtain ⟨hmid, hlow⟩ := (inv_iff_midInv s).mp hs
  have hopen : s.opStart = s := by simp [State.opStart, ← hs.atStart]
  rw [State.perform, hopen]
  rcases runMicros_cases s ms with hall | ⟨k, -, -, hend⟩
  · rw [hall, inv_iff_midInv]
    exact ⟨currentOp_cycles_midInv hmid hop hms, cycles_strobe_low hms hlow⟩
  · rw [hend]
    exact resetCycle_inv (by rw [(cycles_keeps s _).1]; exact hs.params)

/-- Settles O51: a step is a reset cycle, which writes the reset values, or the operation at the sequencer, whose cycles
keep the invariant one by one and end with the strobe low. -/
theorem everyStepKeepsTheInvariant : Obligations.EveryStepKeepsTheInvariant := by
  intro s t hs h
  rcases step_next_cases hs.atStart h with rfl | ⟨i, hop, hexec⟩
  · exact resetCycle_inv hs.params
  · exact exec_inv hs hop hexec

end Sys2Proof.Machine
end

section
/-! SUPPORT. The storage spaces as a cycle and the bus see them (20_memory.md): LEDS and its write port (R62, R68, R69),
the cycles without the sequencer (R73), and the order of the frame's bytes (R64). -/

namespace Sys2Proof.Machine

/-! ## The LED write port -/

/-- An index that the space does not have is not written (R60). -/
theorem memWrite_of_size_le {s : State} {sp : Space} {i : Nat} (h : sp.size ≤ i) (v : Byte) : s.memWrite sp i v = s :=
  if_neg (Nat.not_lt.mpr h)

theorem ledPort_of_strobe {inp : Input} (h : inp.ledWrEn = true) (s : State) :
    (s.ledPort inp).leds = (s.memWrite .leds inp.ledWrAddr.toNat inp.ledWrData).leds := by
  simp [State.ledPort, h]

theorem ledPort_of_noStrobe {inp : Input} (h : inp.ledWrEn = false) (s : State) : (s.ledPort inp).leds = s.leds := by
  simp [State.ledPort, h]

/-- The port has no row 6 or 7 (R68). -/
theorem ledPort_of_noRow {inp : Input} (h : 6 ≤ inp.ledWrAddr.toNat) (s : State) : (s.ledPort inp).leds = s.leds := by
  cases hen : inp.ledWrEn with
  | false => exact ledPort_of_noStrobe hen s
  | true => rw [ledPort_of_strobe hen, memWrite_of_size_le h]

theorem memRead_ledPort (s : State) (inp : Input) {i : Nat} (hi : i < 6) :
    (s.ledPort inp).memRead .leds i =
      if inp.ledWrEn = true ∧ inp.ledWrAddr.toNat = i then inp.ledWrData else s.memRead .leds i := by
  have hparams : (s.ledPort inp).params = s.params := by simp
  cases hen : inp.ledWrEn with
  | false => simpa using memRead_congr .leds hparams (ledPort_of_noStrobe hen s) i
  | true =>
    by_cases hrow : inp.ledWrAddr.toNat < Space.size .leds
    · have hwrite := memRead_congr .leds (t := s.ledPort inp)
        (s := s.memWrite .leds inp.ledWrAddr.toNat inp.ledWrData) (by simp) (ledPort_of_strobe hen s) i
      simpa [eq_comm] using hwrite.trans (memRead_memWrite s .leds hrow _ i)
    · have hout : 6 ≤ inp.ledWrAddr.toNat := Nat.not_lt.mp hrow
      have hne : inp.ledWrAddr.toNat ≠ i := by omega
      simpa [hne] using memRead_congr .leds hparams (ledPort_of_noRow hout s) i

/-- Whatever the sequencer writes in a cycle, LEDS after it is as the port leaves it (R62, R69). -/
theorem cycle_leds (s : State) (m : Micro) : (s.cycle m).leds = (s.ledPort s.input).leds := by
  simp [State.cycle, foldl_write_keeps]

/-- Settles O49: the port alone writes LEDS in a cycle (`cycle_leds`), and a reset cycle writes the reset values. -/
theorem ledPortWritesTheAddressedRow : Obligations.LedPortWritesTheAddressedRow := by
  intro s m i hi
  refine ⟨?written, fun hout => (cycle_leds s m).trans (ledPort_of_noRow hout s),
    (blockAtReset_resetCycle s).ledState i hi⟩
  have hparams : (s.cycle m).params = (s.ledPort s.input).params := by simp [cycle_keeps]
  exact (memRead_congr .leds hparams (cycle_leds s m) i).trans (memRead_ledPort s s.input hi)

/-! ## Runs of cycles -/

theorem noLedWrite_first {s : State} {n : Nat} (h : s.NoLedWrite (n + 1)) : s.input.ledWrEn = false :=
  h 0 n.succ_pos

theorem noLedWrite_cycle {s : State} {n : Nat} (h : s.NoLedWrite (n + 1)) (m : Micro) : (s.cycle m).NoLedWrite n := by
  obtain ⟨-, -, hplan, hnow⟩ := cycle_keeps s m
  intro k hk
  rw [inputAt_congr hplan, hnow, Nat.add_right_comm]
  exact h (k + 1) (by omega)

/-- No run of cycles writes LEDS where the port is not strobed (R62). -/
theorem cycles_leds_of_noLedWrite {s : State} {ms : List Micro} (h : s.NoLedWrite ms.length) :
    (s.cycles ms).leds = s.leds := by
  induction ms generalizing s with
  | nil => rfl
  | cons m ms ih =>
    calc ((s.cycle m).cycles ms).leds = (s.cycle m).leds := ih (noLedWrite_cycle h m)
      _ = (s.ledPort s.input).leds := cycle_leds s m
      _ = s.leds := ledPort_of_noStrobe (noLedWrite_first h) s

/-- Settles O57: an operation without a reset is a run of cycles, and no such run writes LEDS. -/
theorem onlyThePortWritesLedStates : Obligations.OnlyThePortWritesLedStates := by
  intro i s t h hreset hport
  obtain ⟨ms, -, rfl⟩ := exec_of_noReset h hreset
  obtain ⟨hparams, -, -, hnow⟩ := cycles_keeps s.opStart ms
  have hlength : (s.opStart.cycles ms).now - s.now = ms.length := by simp [hnow]
  rw [hlength] at hport
  have hleds : (s.opStart.cycles ms).leds = s.opStart.leds := cycles_leds_of_noLedWrite hport
  exact memRead_congr .leds hparams hleds

/-! ## The cycles without the sequencer -/

theorem elapse_of_noReset {s : State} {n : Nat} (h : s.NoReset n) : s.elapse n = s.cycles (List.replicate n []) := by
  rcases runMicros_cases s (List.replicate n []) with hall | ⟨k, hk, hrst, -⟩
  · exact hall
  · have hone : (s.inputAt (s.now + k)).rstN = true := h k (by simpa using hk)
    exact absurd (hrst.symm.trans hone) (by decide)

/-- With the timer off, what goes by in a cycle leaves the counters and the flag (R200, R201, R203). -/
theorem background_timer_off {s : State} (h : s.timerEn = false) :
    (s.background false).timerEn = false ∧ (s.background false).preCnt = s.preCnt ∧
      (s.background false).tmrCnt = s.tmrCnt ∧ (s.background false).tickFlag = s.tickFlag := by
  have hstep : s.tstep = false := by simp [State.tstep, h]
  have hovf : s.ovf = false := by simp [State.ovf, hstep]
  simp [State.nextPre, State.nextTmr, tickNext, hstep, hovf, h]

/-- So does the whole cycle, where the sequencer writes none of them. -/
theorem cycle_timer_off {s : State} (h : s.timerEn = false) {m : Micro} (hm : Plain m) :
    (s.cycle m).timerEn = false ∧ (s.cycle m).preCnt = s.preCnt ∧ (s.cycle m).tmrCnt = s.tmrCnt ∧
      (s.cycle m).tickFlag = s.tickFlag := by
  have hclr : m.any Write.clears = false := hm
  have hcycle : (s.cycle m).timerEn = (s.background false).timerEn ∧
      (s.cycle m).preCnt = (s.background false).preCnt ∧ (s.cycle m).tmrCnt = (s.background false).tmrCnt ∧
        (s.cycle m).tickFlag = (s.background false).tickFlag := by
    simp only [State.cycle, disturb_keeps, edges_keeps, hclr, foldl_write_timer s.input hm, foldl_write_keeps, and_self]
  simpa only [hcycle] using background_timer_off h

theorem cycles_timer_off {s : State} (h : s.timerEn = false) {ms : List Micro} (hms : ∀ m ∈ ms, Plain m) :
    (s.cycles ms).timerEn = false ∧ (s.cycles ms).preCnt = s.preCnt ∧ (s.cycles ms).tmrCnt = s.tmrCnt ∧
      (s.cycles ms).tickFlag = s.tickFlag := by
  refine cycles_induction (C := fun t => t.timerEn = false ∧ t.preCnt = s.preCnt ∧ t.tmrCnt = s.tmrCnt ∧
    t.tickFlag = s.tickFlag) (fun m hm t ⟨hoff, hpre, htmr, hflag⟩ => ?_) ⟨h, rfl, rfl, rfl⟩
  obtain ⟨koff, kpre, ktmr, kflag⟩ := cycle_timer_off hoff (hms m hm)
  exact ⟨koff, kpre.trans hpre, ktmr.trans htmr, kflag.trans hflag⟩

/-- Settles O12: idle calm cycles change the fields of `withClock` only (`elapse_eq`), and of these LEDS where the port
is strobed, and the counters and the flag where the timer is on. -/
theorem idleCyclesChangeOnlyTimerAndPort : Obligations.IdleCyclesChangeOnlyTimerAndPort := by
  intro s n hcalm
  have hrun : s.elapse n = s.cycles (List.replicate n []) := elapse_of_noReset fun k hk => (hcalm k hk).1
  refine ⟨?frame, fun hport => ?leds, fun hoff => ?timer⟩
  case frame => simpa only [State.withClock, elapse_now hcalm] using elapse_eq hcalm
  case leds =>
    rw [hrun]
    exact memRead_congr .leds (cycles_keeps s _).1 (cycles_leds_of_noLedWrite (by simpa using hport))
  case timer =>
    rw [hrun]
    exact (cycles_timer_off hoff fun m hm => by rw [List.eq_of_mem_replicate hm]; rfl).2

/-! ## The order of the frame's bytes -/

/-- The first `n` bytes of the frame as they stand in `tx_frame` (R64). -/
def State.txBytes (s : State) (n : Nat) : BitVec 128 :=
  (List.range n).foldl (fun acc i => acc ||| ((s.memRead .frame i).setWidth 128 <<< (8 * i))) 0

theorem txFrame_eq_txBytes (s : State) : s.txFrame = s.txBytes 16 := rfl

theorem txBytes_succ (s : State) (n : Nat) :
    s.txBytes (n + 1) = s.txBytes n ||| ((s.memRead .frame n).setWidth 128 <<< (8 * n)) := by
  simp [State.txBytes, List.range_succ]

/-- Bit `j` of the packed bytes is bit `j % 8` of byte `j / 8`. -/
theorem txBytes_bit (s : State) (n : Nat) {j : Nat} (hj : j < 128) :
    (s.txBytes n).getLsbD j = (decide (j < 8 * n) && (s.memRead .frame (j / 8)).getLsbD (j % 8)) := by
  induction n with
  | zero => simp [State.txBytes]
  | succ n ih =>
    rw [txBytes_succ, BitVec.getLsbD_or, ih, BitVec.getLsbD_shiftLeft, BitVec.getLsbD_setWidth]
    rcases Nat.lt_or_ge j (8 * n) with hbelow | hge
    · simp [hbelow, show j < 8 * (n + 1) by omega]
    · rcases Nat.lt_or_ge j (8 * (n + 1)) with hin | habove
      · have hbyte : j / 8 = n := by omega
        have hbit : j % 8 = j - 8 * n := by omega
        simp [hj, hin, hbyte, hbit, Nat.not_lt.mpr hge, show j - 8 * n < 128 by omega]
      · have hnone : (s.memRead .frame n).getLsbD (j - 8 * n) = false := BitVec.getLsbD_of_ge _ _ (by omega)
        simp [hnone, Nat.not_lt.mpr hge, Nat.not_lt.mpr habove]

theorem txFrame_byte (s : State) {i : Nat} (hi : i < 16) : s.txFrame.extractLsb' (8 * i) 8 = s.memRead .frame i := by
  apply BitVec.eq_of_getLsbD_eq
  intro k hk
  have hbyte : (8 * i + k) / 8 = i := by omega
  have hbit : (8 * i + k) % 8 = k := by omega
  rw [BitVec.getLsbD_extractLsb', txFrame_eq_txBytes, txBytes_bit s 16 (by omega), hbyte, hbit]
  simp [hk, show 8 * i + k < 128 by omega]

/-- Settles O37: the packing bit by bit (`txBytes_bit`); the bus order is the order of the indices. -/
theorem txFrameCarriesTheFrameBytes : Obligations.TxFrameCarriesTheFrameBytes := by
  intro s
  refine ⟨fun i hi => txFrame_byte s hi, by simp [State.busBytes], fun i hi => ?_⟩
  simp [State.busBytes, hi]

end Sys2Proof.Machine
end

section
/-! SUPPORT. The encoding (30_encoding.md R80 to R87): the fields of a word, what the decoder does with a word of each format,
and the decoder row by row of the opcode map. -/

namespace Sys2Proof

/-! ## The fields of a word (R80, R81) -/

@[simp] theorem majorOf_append (maj low : BitVec 4) : majorOf (maj ++ low) = maj :=
  BitVec.extractLsb'_append_eq_left

@[simp] theorem minorOf_append (maj low : BitVec 4) : minorOf (maj ++ low) = low :=
  BitVec.extractLsb'_append_eq_right

theorem majorOf_append_minorOf (w : Byte) : majorOf w ++ minorOf w = w := by
  ext i hi
  grind [majorOf, minorOf]

theorem eq_append_iff {w : Byte} {maj low : BitVec 4} : w = maj ++ low ↔ majorOf w = maj ∧ minorOf w = low := by
  constructor
  · rintro rfl
    exact ⟨majorOf_append maj low, minorOf_append maj low⟩
  · rintro ⟨rfl, rfl⟩
    exact (majorOf_append_minorOf w).symm

theorem chainOf_eq_some_iff {code : BitVec 2} {ch : Chain} : chainOf code = some ch ↔ code = chainCode ch := by
  revert code; cases ch <;> decide

theorem chainOf_eq_none_iff {code : BitVec 2} : chainOf code = none ↔ code = 0b11#2 := by
  revert code; decide

@[simp] theorem majorOf_encodeCD (maj : BitVec 4) (ch : Chain) (v : Bool) : majorOf (encodeCD maj ch v) = maj := by
  revert maj; cases ch <;> cases v <;> decide

theorem encodeCD_fields (maj : BitVec 4) (ch : Chain) (v : Bool) :
    (encodeCD maj ch v).extractLsb' 2 2 = chainCode ch ∧ (encodeCD maj ch v).getLsbD 1 = v ∧
      (encodeCD maj ch v).getLsbD 0 = false := by
  revert maj; cases ch <;> cases v <;> decide

/-- The word is its fields put together, where they are those of format CD. -/
theorem encodeCD_of_fields {w : Byte} {ch : Chain} (hch : w.extractLsb' 2 2 = chainCode ch)
    (hlow : w.getLsbD 0 = false) : encodeCD (majorOf w) ch (w.getLsbD 1) = w := by
  rw [encodeCD, ← hch]
  ext i hi
  grind [majorOf]

theorem formatV_of_fields {w : Byte} (hmid : w.extractLsb' 1 3 = 0#3) :
    majorOf w ++ 0#3 ++ BitVec.ofBool (w.getLsbD 0) = w := by
  rw [← hmid]
  ext i hi
  grind [majorOf]

/-! ## What the decoder makes of a word, format by format -/

theorem decodeCD_of_op {w : Byte} {ch : Chain} (hch : w.extractLsb' 2 2 = chainCode ch) (hlow : w.getLsbD 0 = false)
    (mk : Chain → Bool → Instr) : decodeCD mk w = .op (mk ch (w.getLsbD 1)) := by
  simp only [decodeCD, chainOf_eq_some_iff.mpr hch, hlow, Bool.false_eq_true, ↓reduceIte]

theorem decodeCD_of_reserved {w : Byte} (h : w.extractLsb' 2 2 = 0b11 ∨ w.getLsbD 0 = true)
    (mk : Chain → Bool → Instr) : decodeCD mk w = .reserved w := by
  cases hch : chainOf (w.extractLsb' 2 2) with
  | none => simp only [decodeCD, hch]
  | some ch =>
    have hcode : w.extractLsb' 2 2 ≠ 0b11 := fun h3 => by simp [chainOf_eq_none_iff.mpr h3] at hch
    simp only [decodeCD, hch, h.resolve_left hcode, ↓reduceIte]

/-- A word of the rows of format CD is reserved, or it names a chain and its bit 0 is zero (R85). -/
theorem formatCD_cases (w : Byte) :
    (w.extractLsb' 2 2 = 0b11 ∨ w.getLsbD 0 = true) ∨
      ∃ ch, w.extractLsb' 2 2 = chainCode ch ∧ w.getLsbD 0 = false := by
  cases hch : chainOf (w.extractLsb' 2 2) with
  | none => exact .inl (.inl (chainOf_eq_none_iff.mp hch))
  | some ch =>
    cases hlow : w.getLsbD 0 with
    | true => exact .inl (.inr rfl)
    | false => exact .inr ⟨ch, chainOf_eq_some_iff.mp hch, rfl⟩

theorem decodeCD_encodeCD (mk : Chain → Bool → Instr) (maj : BitVec 4) (ch : Chain) (v : Bool) :
    decodeCD mk (encodeCD maj ch v) = .op (mk ch v) := by
  obtain ⟨hch, hv, hlow⟩ := encodeCD_fields maj ch v
  rw [decodeCD_of_op hch hlow, hv]

theorem decodeR_append (mk : BitVec 4 → Instr) (maj : BitVec 4) {row : BitVec 4} (h : row ≠ 15#4) :
    decodeR mk (maj ++ row) = .op (mk row) := by
  simp [decodeR, h]

theorem decodeN_append (i : Instr) (maj : BitVec 4) : decodeN i (maj ++ 0#4) = .op i := by
  simp [decodeN]

/-- R84, R87: the decoder inverts the encoder. -/
theorem decode_encode {i : Instr} (h : i.wellFormed = true) : decode (encode i) = .op i := by
  cases i with
  | clkbit ch v =>
    rw [encode, decode, majorOf_encodeCD]
    exact decodeCD_encodeCD .clkbit _ ch v
  | setdata ch v =>
    rw [encode, decode, majorOf_encodeCD]
    exact decodeCD_encodeCD .setdata _ ch v
  | setoe v => cases v <;> rfl
  | sample row =>
    have hrow : row ≠ 15#4 := by
      rintro rfl
      exact absurd h (by decide)
    rw [encode, decode, majorOf_append]
    exact decodeR_append .sample _ hrow
  | _ => exact decodeN_append _ _

/-- Settles O9: the cases of `decode_encode` are the formats of the opcode map. -/
theorem decodeAfterEncode : Obligations.DecodeAfterEncode := fun _ => decode_encode

/-! ## The opcode map, row by row (R84)

Both the way back from a decoded word to the word and the list of the reserved words go over the rows of the map. The rows
are told apart once, in `decode_mapRow`. -/

/-- The major codes of the operations without operands (R80, format N). -/
abbrev FormatN (maj : BitVec 4) : Prop := maj = 0x3 ∨ 0x6 ≤ maj.toNat ∧ maj.toNat ≤ 0xE

theorem FormatN.otherRows {maj : BitVec 4} (h : FormatN maj) :
    maj ≠ 0x0 ∧ maj ≠ 0x1 ∧ maj ≠ 0x2 ∧ maj ≠ 0x4 ∧ maj ≠ 0x5 ∧ maj ≠ 0xF := by
  revert maj; decide

/-- An operation with such a code has no operand: its word is the code and a low nibble of zeroes. -/
theorem encode_of_formatN {i : Instr} (h : FormatN (BitVec.ofNat 4 i.major)) :
    i.wellFormed = true ∧ encode i = BitVec.ofNat 4 i.major ++ 0#4 := by
  cases i with
  | clkbit | setdata | setoe | sample => simp [FormatN, Instr.major] at h
  | _ => exact ⟨rfl, rfl⟩

/-- `d` is what the row of `w`'s major code makes of `w`. -/
inductive MapRow (w : Byte) : Decoded → Prop
  | unassigned (hmaj : majorOf w = 0x0 ∨ majorOf w = 0xF) : MapRow w (.reserved w)
  | clkbit (hmaj : majorOf w = 0x1) : MapRow w (decodeCD .clkbit w)
  | setdata (hmaj : majorOf w = 0x2) : MapRow w (decodeCD .setdata w)
  | setoe (hmaj : majorOf w = 0x4) : MapRow w (decodeV .setoe w)
  | sample (hmaj : majorOf w = 0x5) : MapRow w (decodeR .sample w)
  | noOperand (i : Instr) (hmaj : majorOf w = BitVec.ofNat 4 i.major) (hN : FormatN (BitVec.ofNat 4 i.major)) :
      MapRow w (decodeN i w)

theorem decode_mapRow (w : Byte) : MapRow w (decode w) := by
  have hcode {m : BitVec 4} (h : (majorOf w).toNat = m.toNat) : majorOf w = m := BitVec.eq_of_toNat_eq h
  unfold decode
  split
  case h_1 h => exact .clkbit (hcode h)
  case h_2 h => exact .setdata (hcode h)
  case h_4 h => exact .setoe (hcode h)
  case h_5 h => exact .sample (hcode h)
  case h_15 =>
    have hlt : (majorOf w).toNat < 16 := (majorOf w).isLt
    have hout : (majorOf w).toNat = 0 ∨ (majorOf w).toNat = 15 := by grind
    exact .unassigned (hout.imp hcode hcode)
  all_goals exact .noOperand _ (hcode ‹_›) (by decide)

/-! ## Back to the word (R85, R87) -/

/-- What the decoder may make of a word: the well-formed operation whose word it is, or the word itself as reserved. -/
def Decoded.Faithful (w : Byte) : Decoded → Prop
  | .op i => i.wellFormed = true ∧ encode i = w
  | .reserved r => r = w

theorem decodeCD_faithful {mk : Chain → Bool → Instr} {w : Byte}
    (henc : ∀ ch v, (mk ch v).wellFormed = true ∧ encode (mk ch v) = encodeCD (majorOf w) ch v) :
    (decodeCD mk w).Faithful w := by
  rcases formatCD_cases w with hres | ⟨ch, hch, hlow⟩
  · rw [decodeCD_of_reserved hres]
    rfl
  · rw [decodeCD_of_op hch hlow]
    exact (henc ch _).imp_right (·.trans (encodeCD_of_fields hch hlow))

theorem decodeV_faithful {w : Byte} (hmaj : majorOf w = 0x4) : (decodeV .setoe w).Faithful w := by
  unfold decodeV
  split
  · next hmid =>
    have hword := formatV_of_fields hmid
    rw [hmaj] at hword
    exact ⟨rfl, hword⟩
  · rfl

theorem decodeR_faithful {w : Byte} (hmaj : majorOf w = 0x5) : (decodeR .sample w).Faithful w := by
  unfold decodeR
  split
  · rfl
  · next hrow =>
    have hlt : (minorOf w).toNat < 15 := by bv_omega
    exact ⟨by simpa [Instr.wellFormed] using hlt, (eq_append_iff.mpr ⟨hmaj, rfl⟩).symm⟩

theorem decodeN_faithful {w : Byte} {i : Instr} (hmaj : majorOf w = BitVec.ofNat 4 i.major)
    (hN : FormatN (BitVec.ofNat 4 i.major)) : (decodeN i w).Faithful w := by
  obtain ⟨hwf, henc⟩ := encode_of_formatN hN
  unfold decodeN
  split
  · next hlow => exact ⟨hwf, henc.trans (eq_append_iff.mpr ⟨hmaj, hlow⟩).symm⟩
  · rfl

theorem MapRow.faithful {w : Byte} {d : Decoded} (h : MapRow w d) : d.Faithful w := by
  cases h with
  | unassigned => rfl
  | clkbit hmaj => exact decodeCD_faithful fun _ _ => ⟨rfl, by rw [hmaj]; rfl⟩
  | setdata hmaj => exact decodeCD_faithful fun _ _ => ⟨rfl, by rw [hmaj]; rfl⟩
  | setoe hmaj => exact decodeV_faithful hmaj
  | sample hmaj => exact decodeR_faithful hmaj
  | noOperand i hmaj hN => exact decodeN_faithful hmaj hN

/-- Settles O10: whatever row of the map a word is in, what the decoder makes of it is faithful to it. -/
theorem encodeAfterDecode : Obligations.EncodeAfterDecode := by
  intro w
  have hfaithful := (decode_mapRow w).faithful
  refine ⟨fun i hop => ?op, fun r hres => ?reserved⟩
  case op => rwa [hop] at hfaithful
  case reserved => rwa [hres] at hfaithful

/-! ## The reserved words (R85) -/

/-- `w` stands in R85's list of reserved words: a row without an operation, a chain code or bits that its row's format does
not have, or SAMPLE's row 15. -/
def InReservedList (w : Byte) : Prop :=
  (majorOf w = 0x0 ∨ majorOf w = 0xF) ∨
    ((majorOf w = 0x1 ∨ majorOf w = 0x2) ∧ (w.extractLsb' 2 2 = 0b11 ∨ w.getLsbD 0 = true)) ∨
    (majorOf w = 0x4 ∧ w.extractLsb' 1 3 ≠ 0) ∨ w = 0x5F ∨
    ((majorOf w = 0x3 ∨ (0x6 ≤ (majorOf w).toNat ∧ (majorOf w).toNat ≤ 0xE)) ∧ minorOf w ≠ 0)

theorem decodeCD_eq_reserved_iff {mk : Chain → Bool → Instr} {w : Byte} :
    decodeCD mk w = .reserved w ↔ w.extractLsb' 2 2 = 0b11 ∨ w.getLsbD 0 = true := by
  refine ⟨fun h => ?_, fun h => decodeCD_of_reserved h mk⟩
  rcases formatCD_cases w with hres | ⟨ch, hch, hlow⟩
  · exact hres
  · simp [decodeCD_of_op hch hlow] at h

theorem decodeV_eq_reserved_iff {mk : Bool → Instr} {w : Byte} :
    decodeV mk w = .reserved w ↔ w.extractLsb' 1 3 ≠ 0 := by
  unfold decodeV
  split <;> simp [*]

theorem decodeR_eq_reserved_iff {mk : BitVec 4 → Instr} {w : Byte} :
    decodeR mk w = .reserved w ↔ minorOf w = 15 := by
  unfold decodeR
  split <;> simp [*]

theorem decodeN_eq_reserved_iff {i : Instr} {w : Byte} : decodeN i w = .reserved w ↔ minorOf w ≠ 0 := by
  unfold decodeN
  split <;> simp [*]

theorem eq_5F_iff {w : Byte} : w = 0x5F ↔ majorOf w = 5 ∧ minorOf w = 15 := eq_append_iff (maj := 5) (low := 15)

theorem MapRow.eq_reserved_iff {w : Byte} {d : Decoded} (h : MapRow w d) : d = .reserved w ↔ InReservedList w := by
  unfold InReservedList
  rw [eq_5F_iff]
  cases h with
  | unassigned hmaj => exact iff_of_true rfl (.inl hmaj)
  | clkbit hmaj => simp [hmaj, decodeCD_eq_reserved_iff]
  | setdata hmaj => simp [hmaj, decodeCD_eq_reserved_iff]
  | setoe hmaj => simp [hmaj, decodeV_eq_reserved_iff]
  | sample hmaj => simp [hmaj, decodeR_eq_reserved_iff]
  | noOperand i hmaj hN =>
    rw [← hmaj] at hN
    simp only [decodeN_eq_reserved_iff, hN, hN.otherRows, or_self, false_or, false_and, true_and]

end Sys2Proof

namespace Sys2Proof.Machine

/-! ## The words of the ROM (43_scheduler.md R170), and a step at a reserved word -/

theorem romWord_eq (a : BitVec 4) : romWord a = (romOp a).map encode := by
  revert a; decide

theorem romOp_wellFormed {a : BitVec 4} {i : Instr} (h : romOp a = some i) : i.wellFormed = true := by
  have hall : ∀ a, (romOp a).all Instr.wellFormed = true := by decide
  simpa [h] using hall a

theorem decode_romWord {a : BitVec 4} {w : Byte} (h : romWord a = some w) : ∃ i, decode w = .op i := by
  rw [romWord_eq, Option.map_eq_some_iff] at h
  obtain ⟨i, hi, rfl⟩ := h
  exact ⟨i, decode_encode (romOp_wellFormed hi)⟩

theorem step_of_reserved {s : State} {w : Byte} (hr : s.input.rstN = true) (hstart : s.pending = [])
    (hw : s.currentWord = some w) (hres : decode w = .reserved w) : step s = .refused (.reservedWord w) := by
  simp [step, hr, hstart, hw, hres]

/-- How many words R85's list has. -/
theorem length_reservedWords :
    ((List.range 256).filter fun w => decide (decode (BitVec.ofNat 8 w) = .reserved (BitVec.ofNat 8 w))).length =
      217 := by
  decide +kernel

/-- Settles O5: the list by the rows of the map, the ROM by the operations whose words it holds. -/
theorem reservedWordsAreRefused : Obligations.ReservedWordsAreRefused :=
  ⟨fun w => (decode_mapRow w).eq_reserved_iff, length_reservedWords, fun _ _ => decode_romWord,
    fun _ _ => step_of_reserved⟩

/-- Settles O8: the decoder evaluated at the seventeen words. -/
theorem specWordsDecodeToTheirOperations : Obligations.SpecWordsDecodeToTheirOperations := by
  unfold Obligations.SpecWordsDecodeToTheirOperations
  decide

end Sys2Proof.Machine
end

section
/-! SUPPORT. A column write as eight CLKBITs (30_encoding.md R89), and the runs of operations it is made of. -/

namespace Sys2Proof.Machine

/-! ## Lists of operations -/

theorem execAll_cons {i : Instr} {is : List Instr} {s t : State} (h : exec i s = .next t) :
    execAll (i :: is) s = execAll is t := by
  simp [execAll, h]

theorem execAll_append {is js : List Instr} {s t : State} (h : execAll is s = .next t) :
    execAll (is ++ js) s = execAll js t := by
  induction is generalizing s with
  | nil =>
    cases h
    rfl
  | cons i is ih =>
    cases hi : exec i s with
    | next u =>
      rw [execAll_cons hi] at h
      rw [List.cons_append, execAll_cons hi, ih h]
    | fault f => simp [execAll, hi] at h
    | refused r => simp [execAll, hi] at h

/-! ## What goes by, beside what an operation does -/

theorem setLine_withClock (s c : State) (ch : Chain) (l : Line) :
    (s.withClock c).setLine ch l = (s.setLine ch l).withClock c := by cases ch <;> rfl

theorem shift_withClock (s c : State) (ch : Chain) (v : Bool) :
    (s.withClock c).shift ch v = (s.shift ch v).withClock c := by cases ch <;> rfl

theorem retire_withClock (s c : State) : (s.withClock c).retire = s.retire.withClock c := by
  unfold State.retire
  cases hsrc : s.source <;> simp [State.withClock, hsrc]

/-- Idle calm cycles keep the chains, the latch and the output enable, and only count on. -/
theorem elapse_keeps {s : State} {n : Nat} (h : s.Calm n) :
    (s.elapse n).params = s.params ∧ (s.elapse n).plan = s.plan ∧ (s.elapse n).now = s.now + n ∧
      (s.elapse n).swr = s.swr ∧ (s.elapse n).ledr = s.ledr ∧ (s.elapse n).ledc = s.ledc ∧
      (s.elapse n).ledrLatch = s.ledrLatch ∧ (s.elapse n).ledrOe = s.ledrOe := by
  have hnow := elapse_now h
  rw [elapse_eq h] at hnow ⊢
  exact ⟨rfl, rfl, hnow, rfl, rfl, rfl, rfl, rfl⟩

/-! ## CLKBIT -/

theorem clockBit_ne_nil (t : Nat) (ch : Chain) (v : Bool) : clockBit t ch v ≠ [] := by simp [clockBit, phase]

/-- CLKBIT in calm cycles (R100). -/
theorem exec_clkbit {s : State} (hp : s.params.Legal) (hc : s.Calm (3 * s.params.tPhase)) (ch : Chain) (v : Bool) :
    exec (.clkbit ch v) s =
      .next ((((s.opStart.elapse (3 * s.params.tPhase)).setLine ch ⟨v, true⟩).shift ch v).retire) := by
  have hlen := length_clockBit hp.tPhase_pos ch v
  have hrun := perform_whole (clockBit_ne_nil s.params.tPhase ch v) (plain_clockBit _ ch v) (hlen.symm ▸ hc)
  have hidle := elapse_eq (calm_congr (t := s.opStart) rfl rfl hc)
  rw [seqRun_clockBit, hlen] at hrun
  rw [hidle, setLine_withClock, shift_withClock, retire_withClock]
  exact congrArg Host.Outcome.next hrun

/-! ## The column write -/

/-- What `t` is, compared with `s`, after the first `k` bit clocks of a column write of `b` from `s`: its chains, its latch
and output enable, and what the rest of the write needs. -/
structure ColumnClocked (msbFirst : Bool) (b : Byte) (k : Nat) (s t : State) : Prop where
  params : t.params = s.params
  plan : t.plan = s.plan
  now : t.now = s.now + k * (3 * s.params.tPhase)
  ledc : t.ledc = colRun msbFirst b s.ledc k
  swr : t.swr = s.swr
  ledr : t.ledr = s.ledr
  ledrLatch : t.ledrLatch = s.ledrLatch
  ledrOe : t.ledrOe = s.ledrOe

/-- One more bit clock. -/
theorem ColumnClocked.succ {msbFirst : Bool} {b : Byte} {k : Nat} {s t : State} (h : ColumnClocked msbFirst b k s t)
    (hp : s.params.Legal) (hc : s.Calm ((k + 1) * (3 * s.params.tPhase))) :
    ∃ u, exec (.clkbit .ledc (colBit msbFirst b k)) t = .next u ∧ ColumnClocked msbFirst b (k + 1) s u := by
  have hcalm : t.Calm (3 * t.params.tPhase) := by
    rw [Nat.succ_mul] at hc
    rw [h.params]
    exact ((calm_add s _ _).mp hc).2 t h.plan h.now
  refine ⟨_, exec_clkbit (h.params ▸ hp) hcalm _ _, ?_⟩
  have hidle := elapse_keeps (calm_congr (t := t.opStart) rfl rfl hcalm)
  generalize t.opStart.elapse (3 * t.params.tPhase) = c at hidle ⊢
  simp only [opStart_keeps, h.params, h.plan, h.now, h.ledc, h.swr, h.ledr, h.ledrLatch, h.ledrOe] at hidle
  constructor <;> simp [hidle, colRun, Nat.succ_mul, Nat.add_assoc]

/-- The first `k` bit clocks of a column write, one CLKBIT each. -/
theorem execAll_columnPart {s : State} (hp : s.params.Legal) (msbFirst : Bool) (b : Byte) {k : Nat}
    (hc : s.Calm (k * (3 * s.params.tPhase))) :
    ∃ t, execAll ((List.range k).map fun j => .clkbit .ledc (colBit msbFirst b j)) s = .next t ∧
      ColumnClocked msbFirst b k s t := by
  induction k with
  | zero => exact ⟨s, rfl, by constructor <;> simp [colRun]⟩
  | succ k ih =>
    obtain ⟨t, hrun, ht⟩ := ih (calm_mono hc (Nat.mul_le_mul_right _ k.le_succ))
    obtain ⟨u, hclk, hu⟩ := ht.succ hp hc
    refine ⟨u, ?_, hu⟩
    rw [List.range_succ, List.map_append, execAll_append hrun]
    exact execAll_cons hclk

theorem columnWritten_stage (msbFirst : Bool) (b x : Byte) {c : Nat} (hc : c < 8) :
    (colRun msbFirst b x 8).getLsbD c = b.getLsbD (if msbFirst then c else 7 - c) := by
  rw [colRun_eight]
  cases msbFirst with
  | true => rfl
  | false =>
    rw [if_neg Bool.false_ne_true, BitVec.getLsbD_reverse]
    simp [BitVec.getMsbD, hc]

/-- Settles O19: by induction on the bit clocks, each of which shifts one bit of the byte in and keeps the rest
(`ColumnClocked.succ`). -/
theorem columnWriteFillsTheColumnChain : Obligations.ColumnWriteFillsTheColumnChain := by
  intro s msbFirst b hp hc
  have hlen : 24 * s.params.tPhase = 8 * (3 * s.params.tPhase) := by omega
  rw [hlen] at hc ⊢
  obtain ⟨t, hrun, ht⟩ := execAll_columnPart hp msbFirst b hc
  refine ⟨t, hrun, ht.now, fun c hcol => ?_, ht.swr, ht.ledr, ht.ledrLatch, ht.ledrOe⟩
  rw [ht.ledc, columnWritten_stage msbFirst b s.ledc hcol]

end Sys2Proof.Machine
end

section
/-! SUPPORT. The Shift-Register Link (40_shift_register_link.md R100 to R104): the four primitive operations as a whole,
and the two pins of a chain from edge to edge of a bit clock. -/

namespace Sys2Proof.Machine

/-! ## The operations -/

/-- An operation of calm cycles that do not clear the flag: the sequencer's part beside what goes by, then the move to the
successor. -/
theorem exec_of_whole {i : Instr} {s : State} {ms : List Micro} {n : Nat} (hms : cyclesOf i s = .next (whole ms))
    (hne : ms ≠ []) (hp : ∀ m ∈ ms, Plain m) (hlen : ms.length = n) (hc : s.Calm n) :
    exec i s = .next ((s.opStart.seqRun ms s.now).withClock (s.opStart.elapse n)).retire := by
  subst hlen
  rw [exec_eq, hms, performed, perform_whole hne hp hc, retire_withClock]

theorem withClock_elapse_opStart {s : State} {n : Nat} (hc : s.Calm n) :
    s.opStart.withClock (s.opStart.elapse n) = s.opStart.elapse n :=
  (elapse_eq (calm_congr (t := s.opStart) rfl rfl hc)).symm

theorem line_opStart (s : State) (ch : Chain) : s.opStart.line ch = s.line ch := by cases ch <;> rfl

theorem withClock_setData (s c : State) (ch : Chain) (v : Bool) :
    (s.setData ch v).withClock c = (s.withClock c).setLine ch ⟨v, (s.line ch).clk⟩ :=
  (setLine_withClock s c ch _).symm

/-- Settles O13: CLKBIT in calm cycles is `exec_clkbit`. -/
theorem clkbitShiftsItsChainOnce : Obligations.ClkbitShiftsItsChainOnce :=
  fun _ ch v hp hc => exec_clkbit hp hc ch v

/-- Settles O15: the one write of SETDATA drives the data pin, and the clock pin keeps its level. -/
theorem setdataDrivesWithoutClocking : Obligations.SetdataDrivesWithoutClocking := by
  intro s ch v hc
  have hrun := exec_of_whole (i := .setdata ch v) (n := 1) rfl (List.cons_ne_nil _ _) (plain_setData ch v) rfl hc
  rw [hrun, seqRun_setData, withClock_setData, withClock_elapse_opStart hc, line_opStart]

/-- Settles O16: the strobe, low before, rises once and falls again (`seqRun_latchStrobe`). -/
theorem latchCommitsTheLedRow : Obligations.LatchCommitsTheLedRow := by
  intro s hp hlow hc
  have hrun := exec_of_whole (i := .latch) rfl (by simp [latchStrobe, phase]) (plain_latchStrobe _)
    (length_latchStrobe hp.tPhase_pos) hc
  rw [hrun, seqRun_latchStrobe _ s.opStart hlow, ← withClock_elapse_opStart hc]
  simp [State.withClock, hlow]

/-- Settles O17: SETOE writes the output enable only, and a lit LED needs it high (R42). -/
theorem setoeSwitchesTheLedRows : Obligations.SetoeSwitchesTheLedRows := by
  intro s v hc
  have hrun := exec_of_whole (i := .setoe v) (n := 1) rfl (List.cons_ne_nil _ _) (plain_setOe v) rfl hc
  rw [seqRun_setOe] at hrun
  refine ⟨_, hrun, ?next, fun r c => ?lit⟩
  case next => rw [← withClock_elapse_opStart hc]; rfl
  case lit => cases v <;> simp [State.lit, State.withClock]

/-! ## The pins through a bit clock (R104) -/

theorem line_withClock (s c : State) (ch : Chain) : (s.withClock c).line ch = s.line ch := by cases ch <;> rfl

theorem line_retire (s : State) (ch : Chain) : s.retire.line ch = s.line ch := by cases ch <;> simp

theorem line_seqCycle (inp : Input) (s : State) (m : Micro) (ch : Chain) :
    (State.seqCycle inp s m).line ch = (m.foldl (State.write inp) s).line ch := by
  cases ch <;> simp [State.seqCycle]

@[simp] theorem line_seqCycle_data (inp : Input) (s : State) (ch : Chain) (v : Bool) :
    (State.seqCycle inp s [.data ch v]).line ch = ⟨v, (s.line ch).clk⟩ := by
  simp [line_seqCycle, State.write, State.setData, line_setLine]

@[simp] theorem line_seqCycle_clk (inp : Input) (s : State) (ch : Chain) (v : Bool) :
    (State.seqCycle inp s [.clk ch v]).line ch = ⟨(s.line ch).data, v⟩ := by
  simp [line_seqCycle, State.write, State.setClk, line_setLine]

/-- A phase makes its writes in its first cycle, so any part of it but the empty one makes them all. -/
theorem seqRun_take_phase (k t : Nat) (m : Micro) (s : State) (n : Nat) :
    s.seqRun ((phase t m).take k) n = if k = 0 then s else State.seqCycle (s.inputAt n) s m := by
  cases k <;> simp [phase, State.seqRun, List.take_replicate, seqRun_idle]

/-- The pins of the chain after the first `k` cycles of its bit clock, by the phase that cycle `k` is in. -/
theorem line_seqRun_take_clockBit {t k : Nat} (ht : 1 ≤ t) (hk : 1 ≤ k) (ch : Chain) (v : Bool) (s : State) (n : Nat) :
    (s.seqRun ((clockBit t ch v).take k) n).line ch =
      ⟨v, if k ≤ t then (s.line ch).clk else decide (2 * t < k)⟩ := by
  have hzero : k ≠ 0 := by omega
  simp only [clockBit, List.take_append, List.length_append, length_phase ht, seqRun_append, seqRun_take_phase, hzero,
    if_false]
  rcases Nat.lt_or_ge t k with hclock | hdata
  · have hlowPart : k - t ≠ 0 := by omega
    rcases Nat.lt_or_ge (2 * t) k with hhigh | hlow
    · have hhighPart : k - (t + t) ≠ 0 := by omega
      simp [hlowPart, hhighPart, hhigh, hclock.not_ge]
    · have hhighPart : k - (t + t) = 0 := by omega
      simp [hlowPart, hhighPart, hlow.not_gt, hclock.not_ge]
  · have hlowPart : k - t = 0 := by omega
    have hhighPart : k - (t + t) = 0 := by omega
    simp [hlowPart, hhighPart, hdata]

theorem take_inLast {ms : List Micro} {k : Nat} (h : k < ms.length) (w : Micro) : (inLast w ms).take k = ms.take k := by
  induction ms generalizing k with
  | nil => exact absurd h (Nat.not_lt_zero k)
  | cons m ms ih =>
    cases k with
    | zero => rfl
    | succ k =>
      have hk : k < ms.length := Nat.lt_of_succ_lt_succ h
      cases ms with
      | nil => exact absurd hk (Nat.not_lt_zero k)
      | cons m' ms => exact congrArg (m :: ·) (ih hk)

/-- The move to the successor in an operation's last cycle is not seen at the pins. -/
theorem line_seqRun_take_whole {ms : List Micro} (h : ms ≠ []) (k : Nat) (s : State) (n : Nat) (ch : Chain) :
    (s.seqRun ((whole ms).take k) n).line ch = (s.seqRun (ms.take k) n).line ch := by
  rcases Nat.lt_or_ge k ms.length with hpart | hall
  · rw [whole, take_inLast hpart]
  · have hlen : (whole ms).length = ms.length := length_inLast _ h
    rw [List.take_of_length_le hall, List.take_of_length_le (hlen.trans_le hall), seqRun_whole h, line_retire]

theorem plain_whole {ms : List Micro} (h : ∀ m ∈ ms, Plain m) : ∀ m ∈ whole ms, Plain m := plain_inLast rfl h

/-- Settles O14: the pins after `k` calm cycles are as the sequencer's part of them leaves them. -/
theorem bitClockPhases : Obligations.BitClockPhases := by
  intro s ch v k hp hc hk hk3
  have hlen : ((whole (clockBit s.params.tPhase ch v)).take k).length = k := by
    rw [List.length_take, whole, length_inLast _ (clockBit_ne_nil _ _ _), length_clockBit hp.tPhase_pos]
    omega
  have hplain : ∀ m ∈ (whole (clockBit s.params.tPhase ch v)).take k, Plain m :=
    fun m hm => plain_whole (plain_clockBit _ _ _) m (List.mem_of_mem_take hm)
  rw [run_split hplain (calm_mono hc (hlen.trans_le hk3)), line_withClock,
    line_seqRun_take_whole (clockBit_ne_nil _ _ _), line_seqRun_take_clockBit hp.tPhase_pos hk]

end Sys2Proof.Machine
end

section
/-! SUPPORT. The chains never steer the sequencer (41_row_select_ring.md R127): the block state after a cycle, a run or an
operation is that of the block state before it. -/

namespace Sys2Proof.Machine

/-! ## One cycle -/

/-- No write of the sequencer reads a chain, or writes one. -/
theorem write_block (inp : Input) (s : State) (w : Write) : (s.write inp w).block = s.block.write inp w := by
  cases w with
  | data ch v => cases ch <;> rfl
  | clk ch v => cases ch <;> rfl
  | capture row => simp only [State.write, State.memWrite]; split <;> rfl
  | header => simp only [State.write, State.memWrite]; split <;> rfl
  | retire => simp only [State.write, State.retire, show s.block.source = s.source from rfl]; split <;> rfl
  | _ => rfl

theorem foldl_write_block (inp : Input) (m : Micro) (s : State) :
    (m.foldl (State.write inp) s).block = m.foldl (State.write inp) s.block := by
  induction m generalizing s with
  | nil => rfl
  | cons w m ih => rw [List.foldl_cons, ih, write_block, List.foldl_cons]

/-- The LED write port reads no chain. -/
theorem ledPort_leds_block (inp : Input) (s : State) : (s.block.ledPort inp).leds = (s.ledPort inp).leds := by
  cases hen : inp.ledWrEn with
  | false => rw [ledPort_of_noStrobe hen, ledPort_of_noStrobe hen]; rfl
  | true =>
    rw [ledPort_of_strobe hen, ledPort_of_strobe hen]
    simp only [State.memWrite]
    split <;> rfl

theorem background_block (s : State) (clr : Bool) : (s.background clr).block = s.block.background clr := by
  apply State.ext
  case leds =>
    have hport := ledPort_leds_block s.input s
    calc (s.background clr).leds = (s.ledPort s.input).leds := by simp
      _ = (s.block.ledPort s.block.input).leds := hport.symm
      _ = (s.block.background clr).leds := by simp
  all_goals rfl

/-- The chains' answer to a cycle and its glitch reach the chains only. -/
theorem edges_disturb_block (old s : State) (g : Glitch) : ((State.edges old s).disturb g).block = s.block := by
  apply State.ext <;> simp [State.block]

theorem cycle_block (s : State) (m : Micro) :
    (s.cycle m).block = m.foldl (State.write s.block.input) (s.block.background (m.any Write.clears)) := by
  rw [State.cycle, edges_disturb_block, foldl_write_block, background_block]
  rfl

theorem resetCycle_block (s : State) : s.resetCycle.block = { s.block.resetBlock with now := s.block.now + 1 } := by
  rw [resetCycle_eq]
  rfl

/-! ## Runs and operations -/

/-- Runs of the same cycles from equal block states end in equal block states, reset or not. -/
theorem runMicros_block_congr (ms : List Micro) {s s' : State} (h : s.block = s'.block) :
    (s.runMicros ms).block = (s'.runMicros ms).block := by
  induction ms generalizing s s' with
  | nil => exact h
  | cons m ms ih =>
    have hinput : s.input = s'.input := (congrArg State.input h :)
    cases hr : s.input.rstN with
    | true =>
      rw [runMicros_cons hr, runMicros_cons (hinput ▸ hr)]
      exact ih (by rw [cycle_block, cycle_block, h])
    | false =>
      rw [runMicros_reset hr, runMicros_reset (hinput ▸ hr), resetCycle_block, resetCycle_block, h]

theorem perform_block_congr (ms : List Micro) {s s' : State} (h : s.block = s'.block) :
    (s.perform ms).block = (s'.perform ms).block :=
  runMicros_block_congr ms (congrArg State.opStart h)

/-- Which cycles an operation has depends on the block state only. -/
theorem cyclesOf_block (i : Instr) (s : State) : cyclesOf i s.block = cyclesOf i s := by cases i <;> rfl

theorem sameBlock_refl (o : Host.Outcome State Fault Refusal) : sameBlock o o := by cases o <;> rfl

theorem exec_sameBlock (i : Instr) {s s' : State} (h : s.block = s'.block) : sameBlock (exec i s) (exec i s') := by
  have hcycles : cyclesOf i s = cyclesOf i s' := by rw [← cyclesOf_block i s, h, cyclesOf_block]
  rw [exec_eq, exec_eq, hcycles]
  cases cyclesOf i s' with
  | next ms => exact perform_block_congr ms h
  | fault f => rfl
  | refused r => rfl

/-- Settles O58: a step chooses what to do by the inputs, the micro-state and the word at the sequencer, all in the block
state, and whatever it does keeps equal block states equal. -/
theorem chainContentsNeverSteerTheBlock : Obligations.ChainContentsNeverSteerTheBlock := by
  intro s s' h
  have hinput : s.input = s'.input := (congrArg State.input h :)
  have hpending : s.pending = s'.pending := (congrArg State.pending h :)
  have hword : s.currentWord = s'.currentWord := (congrArg State.currentWord h :)
  have hnone : s.noWord = s'.noWord := (congrArg State.noWord h :)
  cases hr : s'.input.rstN with
  | false =>
    rw [step_of_reset (hinput ▸ hr), step_of_reset hr]
    simp only [sameBlock, resetCycle_block, h]
  | true =>
    simp only [step, hinput, hpending, hword, hr, ↓reduceIte]
    cases s'.pending with
    | cons m ms => exact perform_block_congr (m :: ms) h
    | nil =>
      cases s'.currentWord with
      | none => exact hnone ▸ sameBlock_refl _
      | some w =>
        dsimp only
        cases decode w with
        | op i => exact exec_sameBlock i h
        | reserved r => rfl

end Sys2Proof.Machine
end

section
/-! SUPPORT. The composite operations as a whole in calm cycles (41_row_select_ring.md R122, 42_scan_refresh.md R141, R143,
43_scheduler.md R175). -/

namespace Sys2Proof.Machine

/-- An operation in calm cycles, where the sequencer's part of them is given: that part beside what goes by, then the move to
the successor. -/
theorem exec_of_seqRun {i : Instr} {s x : State} {ms : List Micro} {n : Nat} (hms : cyclesOf i s = .next (whole ms))
    (hne : ms ≠ []) (hp : ∀ m ∈ ms, Plain m) (hlen : ms.length = n) (hc : s.Calm n)
    (hrun : s.opStart.seqRun ms s.now = x) : exec i s = .next (x.withClock (s.opStart.elapse n)).retire := by
  rw [exec_of_whole hms hne hp hlen hc, hrun]

theorem ringReset_ne_nil (t : Nat) : ringReset t ≠ [] := by simp [ringReset, setOeCycles]

theorem refreshCycles_ne_nil (p : Params) (q : BitVec 3) (b : Byte) : refreshCycles p q b ≠ [] := by
  simp [refreshCycles, setOeCycles]

theorem scanCycles_ne_nil (p : Params) : scanCycles p ≠ [] := by simp [scanCycles]

theorem fbEnterCycles_ne_nil (t : Nat) : fbEnterCycles t ≠ [] := by simp [fbEnterCycles, ringReset, setOeCycles]

/-- Settles O20: the sequencer's part of RINGRST is `seqRun_ringReset`. -/
theorem ringrstSeedsBothRings : Obligations.RingrstSeedsBothRings := by
  intro s hp hc
  have hlen := length_ringReset hp.tPhase_pos
  rw [exec_of_seqRun rfl (ringReset_ne_nil _) (plain_ringReset _) hlen hc (seqRun_ringReset _ _ _),
    ← withClock_elapse_opStart hc]
  rfl

/-- `t` is `n` clk cycles after `s`, with the same parameters and the same inputs to come. -/
structure Later (n : Nat) (s t : State) : Prop where
  params : t.params = s.params
  plan : t.plan = s.plan
  now : t.now = s.now + n

theorem Later.legal {n : Nat} {s t : State} (h : Later n s t) (hp : s.params.Legal) : t.params.Legal := h.params ▸ hp

theorem Later.calm {n m : Nat} {s t : State} (h : Later n s t) (hc : s.Calm (n + m)) : t.Calm m :=
  ((calm_add s n m).mp hc).2 t h.plan h.now

/-- A calm operation ends as many cycles later as it has. -/
theorem exec_later {i : Instr} {s t : State} {ms : List Micro} (hms : cyclesOf i s = .next ms) (hc : s.Calm ms.length)
    (h : exec i s = .next t) : Later ms.length s t := by
  rw [exec_eq, hms, performed] at h
  cases h
  obtain ⟨hparams, hplan, hnow, -⟩ := runMicros_keeps (s := s.opStart) hc
  exact ⟨hparams, hplan, hnow⟩

theorem length_whole {ms : List Micro} (h : ms ≠ []) : (whole ms).length = ms.length := length_inLast _ h

/-- What RINGRST leaves on the chains, the pins, the output enable and `cur_row` (R122). -/
structure RingsSeeded (s t : State) : Prop where
  swr : t.swr = 0xFFFE
  ledr : t.ledr = 0b000001
  ledc : t.ledc = 0xFF
  ledrLatch : t.ledrLatch = s.ledrLatch
  swrLine : t.swrLine = ⟨true, true⟩
  ledrLine : t.ledrLine = ⟨false, true⟩
  ledcLine : t.ledcLine = ⟨true, true⟩
  ledrOe : t.ledrOe = false
  curRow : t.curRow = 0

theorem exec_ringrst {s : State} (hp : s.params.Legal) (hc : s.Calm (3 + 150 * s.params.tPhase)) :
    ∃ t, exec .ringrst s = .next t ∧ Later (3 + 150 * s.params.tPhase) s t ∧ RingsSeeded s t := by
  have hlen := (length_whole (ringReset_ne_nil _)).trans (length_ringReset hp.tPhase_pos)
  have hexec := ringrstSeedsBothRings s hp hc
  have hlater := exec_later (i := .ringrst) rfl (hlen.symm ▸ hc) hexec
  rw [hlen] at hlater
  refine ⟨_, hexec, hlater, ?_⟩
  have hlatch : (s.opStart.elapse (3 + 150 * s.params.tPhase)).ledrLatch = s.ledrLatch := by
    obtain ⟨-, -, -, -, -, -, hlatch, -⟩ := elapse_keeps (calm_congr (t := s.opStart) rfl rfl hc)
    exact hlatch
  constructor <;> simp [hlatch]

/-- Settles O21: what RINGRST leaves on the chains, the pins and `cur_row` does not depend on what they were. -/
theorem ringrstTwiceIsRingrstOnce : Obligations.RingrstTwiceIsRingrstOnce := by
  intro s hp hc
  have hsplit : 6 + 300 * s.params.tPhase = (3 + 150 * s.params.tPhase) + (3 + 150 * s.params.tPhase) := by omega
  rw [hsplit] at hc
  obtain ⟨t, ht, hlater, once⟩ := exec_ringrst hp (calm_mono hc (Nat.le_add_right _ _))
  have hrest := hlater.calm hc
  rw [← hlater.params] at hrest
  obtain ⟨u, hu, -, twice⟩ := exec_ringrst (hlater.legal hp) hrest
  refine ⟨t, u, ht, hu, by rw [once.swr]; decide, by rw [once.ledr]; decide, twice.swr.trans once.swr.symm,
    twice.ledr.trans once.ledr.symm, twice.ledc.trans once.ledc.symm, twice.ledrLatch,
    twice.swrLine.trans once.swrLine.symm, twice.ledrLine.trans once.ledrLine.symm,
    twice.ledcLine.trans once.ledcLine.symm, twice.ledrOe.trans once.ledrOe.symm,
    twice.curRow.trans once.curRow.symm⟩

theorem cyclesOf_refresh {s : State} (hrow : s.curRow.toNat ≤ 5) :
    cyclesOf .refresh s = .next (whole (refreshCycles s.params s.curRow (s.memRead .leds s.curRow.toNat))) :=
  if_pos (Nat.lt_succ_of_le hrow)

/-- REFRESH in calm cycles from a low strobe (R143). -/
theorem exec_refresh {s : State} (hp : s.params.Legal) (hrow : s.curRow.toNat ≤ 5) (hlow : s.ledrLat = false)
    (hc : s.Calm ((if s.curRow = 5 then 3 else 2) + 29 * s.params.tPhase)) :
    exec .refresh s =
      .next ({ s.opStart.elapse ((if s.curRow = 5 then 3 else 2) + 29 * s.params.tPhase) with
                ledc := if s.params.colMsbFirst then s.memRead .leds s.curRow.toNat
                  else (s.memRead .leds s.curRow.toNat).reverse
                ledrLatch := s.ledr
                ledrOe := true
                ledr := shiftIn s.ledr (decide (s.curRow = 5))
                curRow := if s.curRow = 5 then 0 else s.curRow + 1
                ledrLine := ⟨false, true⟩
                ledcLine := ⟨colBit s.params.colMsbFirst (s.memRead .leds s.curRow.toNat) 7, true⟩ }.retire) := by
  rw [exec_of_seqRun (cyclesOf_refresh hrow) (refreshCycles_ne_nil _ _ _) (plain_refreshCycles _ _ _)
    (length_refreshCycles hp.tPhase_pos _ _) hc (seqRun_refreshCycles _ _ _ s.opStart hlow _),
    ← withClock_elapse_opStart hc]
  rfl

end Sys2Proof.Machine
end

section
/-! SUPPORT. The logical position of a ring (41_row_select_ring.md R120 to R126), stage by stage: what one shift does to it,
for both rings at once. -/

namespace Sys2Proof.Machine

/-! ## The position that stages stand for -/

/-- The position of a ring of `n` rows of which `active` are selected (R120, R121). -/
def ringPosition (n : Nat) (active : Nat → Bool) : Position := Position.ofRows ((List.range n).filter active)

theorem posSw_eq (swr : BitVec 16) : posSw swr = ringPosition 15 fun r => !swr.getLsbD r := rfl

theorem posLed_eq (ledr : BitVec 6) : posLed ledr = ringPosition 6 fun r => ledr.getLsbD r := rfl

theorem ofRows_eq_row_iff {rows : List Nat} {r : Nat} : Position.ofRows rows = .row r ↔ rows = [r] := by
  rcases rows with _ | ⟨a, _ | ⟨b, l⟩⟩ <;> simp [Position.ofRows]

theorem ofRows_eq_empty_iff {rows : List Nat} : Position.ofRows rows = .empty ↔ rows = [] := by
  rcases rows with _ | ⟨a, _ | ⟨b, l⟩⟩ <;> simp [Position.ofRows]

variable {n : Nat} {active : Nat → Bool}

theorem ringPosition_eq_empty_iff : ringPosition n active = .empty ↔ ∀ i < n, active i = false := by
  simp [ringPosition, ofRows_eq_empty_iff]

/-- A ring is at a row when that row is selected and no other. -/
theorem ringPosition_eq_row_iff {r : Nat} :
    ringPosition n active = .row r ↔ r < n ∧ ∀ i < n, active i = decide (i = r) := by
  have hnodup : ((List.range n).filter active).Nodup := List.nodup_range.filter _
  rw [ringPosition, ofRows_eq_row_iff]
  constructor
  · intro h
    have hmem : ∀ i, i ∈ (List.range n).filter active ↔ i = r := by simp [h]
    simp only [List.mem_filter, List.mem_range] at hmem
    have hr := (hmem r).mpr rfl
    refine ⟨hr.1, fun i hi => ?_⟩
    rw [Bool.eq_iff_iff, decide_eq_true_iff, ← hmem i]
    exact (and_iff_right hi).symm
  · rintro ⟨hr, hall⟩
    refine List.perm_singleton.mp ((List.perm_ext_iff_of_nodup hnodup (List.nodup_singleton r)).mpr fun i => ?_)
    simp only [List.mem_filter, List.mem_range, List.mem_singleton]
    constructor
    · rintro ⟨hi, hact⟩
      simpa [hall i hi] using hact
    · rintro rfl
      exact ⟨hr, by simp [hall i hr]⟩

/-- A ring with two rows selected is at no position (R120). -/
theorem ringPosition_eq_invalid {i j : Nat} (hij : i ≠ j) (hi : i < n) (hj : j < n) (hai : active i = true)
    (haj : active j = true) : ringPosition n active = .invalid := by
  cases h : ringPosition n active with
  | empty => simp [ringPosition_eq_empty_iff.mp h i hi] at hai
  | row r =>
    obtain ⟨-, hall⟩ := ringPosition_eq_row_iff.mp h
    have hir : i = r := by simpa [hai] using hall i hi
    have hjr : j = r := by simpa [haj] using hall j hj
    exact absurd (hir.trans hjr.symm) hij
  | invalid => rfl

/-! ## One shift -/

/-- The rows selected after a shift: row 0 as the new bit says, every other as the one before it was. -/
def shiftedRows (new : Bool) (active : Nat → Bool) : Nat → Bool
  | 0 => new
  | r + 1 => active r

theorem ringPosition_congr {active' : Nat → Bool} (h : ∀ i < n, active i = active' i) :
    ringPosition n active = ringPosition n active' := by
  rw [ringPosition, ringPosition, List.filter_congr fun i hi => h i (List.mem_range.mp hi)]

theorem swRow_shiftIn (swr : BitVec 16) (v : Bool) {i : Nat} (hi : i < 15) :
    (!(shiftIn swr v).getLsbD i) = shiftedRows (!v) (fun r => !swr.getLsbD r) i := by
  rw [shiftIn_stage]
  cases i with
  | zero => simp [shiftedRows]
  | succ i => simp [shiftedRows, show i + 1 < 16 by omega]

theorem ledRow_shiftIn (ledr : BitVec 6) (v : Bool) {i : Nat} (hi : i < 6) :
    (shiftIn ledr v).getLsbD i = shiftedRows v (fun r => ledr.getLsbD r) i := by
  rw [shiftIn_stage]
  cases i with
  | zero => simp [shiftedRows]
  | succ i => simp [shiftedRows, hi]

theorem posSw_shiftIn (swr : BitVec 16) (v : Bool) :
    posSw (shiftIn swr v) = ringPosition 15 (shiftedRows (!v) fun r => !swr.getLsbD r) :=
  (posSw_eq _).trans (ringPosition_congr fun _ => swRow_shiftIn swr v)

theorem posLed_shiftIn (ledr : BitVec 6) (v : Bool) :
    posLed (shiftIn ledr v) = ringPosition 6 (shiftedRows v fun r => ledr.getLsbD r) :=
  (posLed_eq _).trans (ringPosition_congr fun _ => ledRow_shiftIn ledr v)

/-- An inactive bit moves the ring one row on, past the last row to empty (R124). -/
theorem ringPosition_advance {r : Nat} (h : ringPosition n active = .row r) :
    ringPosition n (shiftedRows false active) = if r + 1 < n then .row (r + 1) else .empty := by
  obtain ⟨hr, hall⟩ := ringPosition_eq_row_iff.mp h
  have hshift : ∀ i < n, shiftedRows false active i = decide (i = r + 1) := by
    intro i hi
    cases i with
    | zero => rfl
    | succ i => simp [shiftedRows, hall i (by omega)]
  split
  · next hnext => exact ringPosition_eq_row_iff.mpr ⟨hnext, hshift⟩
  · next hlast =>
    refine ringPosition_eq_empty_iff.mpr fun i hi => ?_
    rw [hshift i hi, decide_eq_false_iff_not]
    omega

/-- Without an active bit, an empty ring stays empty. -/
theorem ringPosition_advance_empty (h : ringPosition n active = .empty) :
    ringPosition n (shiftedRows false active) = .empty := by
  refine ringPosition_eq_empty_iff.mpr fun i hi => ?_
  cases i with
  | zero => rfl
  | succ i => exact ringPosition_eq_empty_iff.mp h i (by omega)

/-- An active bit puts the ring at row 0 exactly when no selected row moves on to a row (R125). -/
theorem ringPosition_reseed_iff :
    ringPosition (n + 1) (shiftedRows true active) = .row 0 ↔ ∀ i < n, active i = false := by
  rw [ringPosition_eq_row_iff]
  constructor
  · rintro ⟨-, hall⟩ i hi
    simpa [shiftedRows] using hall (i + 1) (by omega)
  · intro h
    refine ⟨n.succ_pos, fun i hi => ?_⟩
    cases i with
    | zero => rfl
    | succ i => simp [shiftedRows, h i (by omega)]

theorem ringPosition_reseed_empty (h : ringPosition (n + 1) active = .empty) :
    ringPosition (n + 1) (shiftedRows true active) = .row 0 :=
  ringPosition_reseed_iff.mpr fun i hi => ringPosition_eq_empty_iff.mp h i (by omega)

theorem ringPosition_reseed_last (h : ringPosition (n + 1) active = .row n) :
    ringPosition (n + 1) (shiftedRows true active) = .row 0 := by
  obtain ⟨-, hall⟩ := ringPosition_eq_row_iff.mp h
  refine ringPosition_reseed_iff.mpr fun i hi => ?_
  rw [hall i (by omega), decide_eq_false_iff_not]
  omega

/-- Too early, the old row stays selected beside row 0 (R125). -/
theorem shiftedRows_reseed_early {r : Nat} (h : ringPosition n active = .row r) :
    ∀ i < n, shiftedRows true active i = decide (i = 0 ∨ i = r + 1) := by
  obtain ⟨-, hall⟩ := ringPosition_eq_row_iff.mp h
  intro i hi
  cases i with
  | zero => simp [shiftedRows]
  | succ i => simp [shiftedRows, hall i (by omega)]

theorem ringPosition_reseed_early {r : Nat} (h : ringPosition n active = .row r) (hr : r + 1 < n) :
    ringPosition n (shiftedRows true active) = .invalid := by
  have hrows := shiftedRows_reseed_early h
  refine ringPosition_eq_invalid (i := 0) (j := r + 1) (by omega) (by omega) hr ?_ ?_
  · simp [hrows 0 (by omega)]
  · simp [hrows (r + 1) hr]

end Sys2Proof.Machine
end

section
/-! SUPPORT. A list of primitive operations in calm cycles is the run of all their cycles, but for `upc` and the word list,
which move once for each word (30_encoding.md R89, 43_scheduler.md R171). -/

namespace Sys2Proof.Machine

/-! ## The word the sequencer is at -/

/-- `s` with the sequencer at another word. -/
def State.atWord (s : State) (upc : BitVec 4) (source : Source) : State := { s with upc := upc, source := source }

theorem retire_eq_atWord (s : State) : s.retire = s.atWord s.retire.upc s.retire.source := by
  unfold State.retire State.atWord
  split <;> rfl

/-- The write leaves the sequencer at its word. -/
@[simp] def Write.Stays : Write → Prop
  | .deadlineMiss => False
  | .upc _ => False
  | .retire => False
  | .retireCheck => False
  | _ => True

theorem write_atWord (inp : Input) (s : State) (a : BitVec 4) (q : Source) {w : Write} (hw : w.Stays) :
    (s.atWord a q).write inp w = (s.write inp w).atWord a q := by
  cases w with
  | data ch v => cases ch <;> rfl
  | clk ch v => cases ch <;> rfl
  | capture row => simp only [State.write, State.memWrite, State.atWord]; split <;> rfl
  | header => simp only [State.write, State.memWrite, State.atWord]; split <;> rfl
  | deadlineMiss => exact absurd hw id
  | upc a => exact absurd hw id
  | retire => exact absurd hw id
  | retireCheck => exact absurd hw id
  | _ => rfl

theorem foldl_write_atWord (inp : Input) (s : State) (a : BitVec 4) (q : Source) {m : Micro} (hm : ∀ w ∈ m, w.Stays) :
    m.foldl (State.write inp) (s.atWord a q) = (m.foldl (State.write inp) s).atWord a q := by
  induction m generalizing s with
  | nil => rfl
  | cons w m ih =>
    rw [List.foldl_cons, write_atWord inp s a q (hm w (by simp)), ih _ fun w' hw => hm w' (by simp [hw]), List.foldl_cons]

theorem edges_atWord (old s : State) (a : BitVec 4) (q : Source) :
    State.edges (old.atWord a q) (s.atWord a q) = (State.edges old s).atWord a q := by
  apply State.ext <;> simp [State.atWord]

/-- The sequencer's part of a run reads neither `upc` nor the word list. -/
theorem seqRun_atWord {ms : List Micro} (hms : AllWrites Write.Stays ms) (s : State) (a : BitVec 4) (q : Source) (n : Nat) :
    (s.atWord a q).seqRun ms n = (s.seqRun ms n).atWord a q := by
  induction ms generalizing s n with
  | nil => rfl
  | cons m ms ih =>
    obtain ⟨hm, hrest⟩ := (allWrites_cons m ms).mp hms
    simp only [State.seqRun, State.seqCycle, foldl_write_atWord _ s a q hm, edges_atWord]
    exact ih hrest _ _

/-- Nor does the run as a whole, with what goes by. -/
theorem runMicros_atWord {ms : List Micro} (hms : AllWrites Write.Stays ms) (hp : ∀ m ∈ ms, Plain m) {s : State}
    (hc : s.Calm ms.length) (a : BitVec 4) (q : Source) :
    (s.atWord a q).runMicros ms = (s.runMicros ms).atWord a q := by
  have hclock : ClockEq (s.atWord a q) s := ⟨rfl, rfl, rfl, rfl, rfl, rfl, rfl, rfl⟩
  have hidle := elapse_clockEq hclock hc
  rw [run_split hp (s := s.atWord a q) hc, run_split hp hc, seqRun_atWord hms, withClock_congr _ hidle]
  rfl

/-! ## Primitive operations -/

/-- The operations that the others expand into (R89). -/
def isPrimitive : Instr → Bool
  | .clkbit _ _ => true
  | .setdata _ _ => true
  | .latch => true
  | .setoe _ => true
  | .sample row => decide (row ≠ 15)
  | _ => false

/-- The cycles of a primitive operation without the move to the next word; none for the other operations. -/
def primitiveCycles (p : Params) : Instr → List Micro
  | .clkbit ch v => clockBit p.tPhase ch v
  | .setdata ch v => setDataCycles ch v
  | .latch => latchStrobe p.tPhase
  | .setoe v => setOeCycles v
  | .sample row => sampleCycles p.settle row
  | _ => []

/-- The cycles of a list of primitive operations, one after another. -/
def wordCycles (p : Params) (is : List Instr) : List Micro := is.flatMap (primitiveCycles p)

section

variable {i : Instr} (hi : isPrimitive i = true)

include hi

theorem cyclesOf_primitive (s : State) : cyclesOf i s = .next (whole (primitiveCycles s.params i)) := by
  cases i with
  | sample row => exact if_neg (by simpa [isPrimitive] using hi)
  | clkbit | setdata | latch | setoe => rfl
  | _ => cases hi

theorem primitiveCycles_ne_nil (p : Params) : primitiveCycles p i ≠ [] := by
  cases i with
  | clkbit | setdata | latch | setoe | sample =>
    simp [primitiveCycles, clockBit, phase, setDataCycles, latchStrobe, setOeCycles, sampleCycles]
  | _ => cases hi

end

theorem plain_primitiveCycles (p : Params) (i : Instr) : ∀ m ∈ primitiveCycles p i, Plain m := by
  cases i with
  | clkbit ch v => exact plain_clockBit _ ch v
  | setdata ch v => exact plain_setData ch v
  | latch => exact plain_latchStrobe _
  | setoe v => exact plain_setOe v
  | sample row => exact plain_sample _ row
  | _ => exact fun m hm => absurd hm List.not_mem_nil

theorem stays_primitiveCycles (p : Params) (i : Instr) : AllWrites Write.Stays (primitiveCycles p i) := by
  cases i <;> simp [primitiveCycles]

theorem plain_wordCycles (p : Params) (is : List Instr) : ∀ m ∈ wordCycles p is, Plain m := by
  intro m hm
  obtain ⟨i, -, hmi⟩ := List.mem_flatMap.mp hm
  exact plain_primitiveCycles p i m hmi

theorem stays_wordCycles (p : Params) (is : List Instr) : AllWrites Write.Stays (wordCycles p is) :=
  allWrites_flatMap fun i _ => stays_primitiveCycles p i

/-- An operation of calm cycles that do not clear the flag is the run of its cycles, then the move to the next word. -/
theorem exec_of_run {i : Instr} {s : State} {ms : List Micro} (hms : cyclesOf i s = .next (whole ms)) (hne : ms ≠ [])
    (hp : ∀ m ∈ ms, Plain m) (hc : s.Calm ms.length) : exec i s = .next (s.opStart.runMicros ms).retire := by
  rw [exec_of_whole hms hne hp rfl hc, run_split hp (s := s.opStart) hc]
  rfl

theorem exec_primitive {i : Instr} (hi : isPrimitive i = true) {s : State}
    (hc : s.Calm (primitiveCycles s.params i).length) :
    exec i s = .next (s.opStart.runMicros (primitiveCycles s.params i)).retire :=
  exec_of_run (cyclesOf_primitive hi s) (primitiveCycles_ne_nil hi s.params) (plain_primitiveCycles _ i) hc

/-- Primitive operations one after another, from the start of an operation. -/
theorem execAll_of_start {is : List Instr} (his : ∀ i ∈ is, isPrimitive i = true) {s : State} (hstart : s.pending = [])
    (hc : s.Calm (wordCycles s.params is).length) :
    ∃ a q, execAll is s = .next ((s.runMicros (wordCycles s.params is)).atWord a q) := by
  induction is generalizing s with
  | nil => exact ⟨s.upc, s.source, rfl⟩
  | cons i is ih =>
    have hwords : wordCycles s.params (i :: is) = primitiveCycles s.params i ++ wordCycles s.params is := rfl
    rw [hwords] at hc ⊢
    rw [List.length_append] at hc
    obtain ⟨hfirst, hrest⟩ := (calm_add s _ _).mp hc
    obtain ⟨hparams, hplan, hnow, hpending⟩ := runMicros_keeps hfirst
    have hopen : s.opStart = s := by simp [State.opStart, ← hstart]
    have hexec := exec_primitive (his i (by simp)) hfirst
    rw [hopen, retire_eq_atWord] at hexec
    rw [execAll_cons hexec, runMicros_append hfirst]
    generalize s.runMicros (primitiveCycles s.params i) = t at *
    obtain ⟨a, q, hrun⟩ := ih (s := t.atWord t.retire.upc t.retire.source) (fun j hj => his j (by simp [hj]))
      (hpending.trans hstart) (hparams.symm ▸ hrest _ hplan hnow)
    refine ⟨a, q, hrun.trans ?_⟩
    have hwordParams : (t.atWord t.retire.upc t.retire.source).params = s.params := hparams
    rw [hwordParams, runMicros_atWord (stays_wordCycles _ _) (plain_wordCycles _ _) (hrest t hplan hnow)]
    rfl

theorem exec_opStart (i : Instr) (s : State) : exec i s.opStart = exec i s := by cases i <;> rfl

/-- Primitive operations one after another: the sequencer's part of their cycles beside what goes by, at some word. -/
theorem execAll_words {is : List Instr} (hne : is ≠ []) (his : ∀ i ∈ is, isPrimitive i = true) {s : State} {n : Nat}
    (hlen : (wordCycles s.params is).length = n) (hc : s.Calm n) :
    ∃ a q, execAll is s =
      .next (((s.opStart.seqRun (wordCycles s.params is) s.now).withClock (s.opStart.elapse n)).atWord a q) := by
  subst hlen
  have hopen : execAll is s = execAll is s.opStart := by
    cases is with
    | nil => exact absurd rfl hne
    | cons i is => simp only [execAll, exec_opStart]
  obtain ⟨a, q, hrun⟩ := execAll_of_start his (s := s.opStart) rfl hc
  have hsplit := run_split (plain_wordCycles s.params is) (s := s.opStart) hc
  exact ⟨a, q, hopen.trans (hrun.trans (congrArg (fun t => Host.Outcome.next (State.atWord t a q)) hsplit))⟩

end Sys2Proof.Machine
end

section
/-! SUPPORT. The composite operations against their expansions in words (41_row_select_ring.md R122, 42_scan_refresh.md R141,
R143, 43_scheduler.md R175). -/

namespace Sys2Proof.Machine

/-! ## The cycles of the expansions -/

theorem wordCycles_append (p : Params) (is js : List Instr) :
    wordCycles p (is ++ js) = wordCycles p is ++ wordCycles p js := List.flatMap_append

theorem wordCycles_flush (p : Params) (ch : Chain) : wordCycles p (flush ch) = flushCycles p.tPhase ch :=
  List.flatMap_replicate

theorem wordCycles_swseed (p : Params) : wordCycles p swseed = seedCycles p.tPhase .swr := rfl

theorem wordCycles_ledseed (p : Params) : wordCycles p ledseed = seedCycles p.tPhase .ledr := rfl

theorem wordCycles_ledadv (p : Params) : wordCycles p ledadv = clockBit p.tPhase .ledr false := List.append_nil _

theorem wordCycles_colwr (p : Params) (msbFirst : Bool) (b : Byte) :
    wordCycles p (colwr msbFirst b) = columnWrite p.tPhase msbFirst b := by
  rw [wordCycles, colwr, List.flatMap_map]
  rfl

theorem wordCycles_setoe (p : Params) (v : Bool) : wordCycles p [.setoe v] = setOeCycles v := rfl

theorem wordCycles_latch_setoe (p : Params) (v : Bool) :
    wordCycles p [.latch, .setoe v] = latchStrobe p.tPhase ++ setOeCycles v := rfl

theorem wordCycles_ringrst (p : Params) :
    wordCycles p ringrstExpansion =
      setOeCycles false ++ flushCycles p.tPhase .swr ++ flushCycles p.tPhase .ledr ++ flushCycles p.tPhase .ledc ++
        seedCycles p.tPhase .swr ++ seedCycles p.tPhase .ledr := by
  simp only [ringrstExpansion, wordCycles_append, wordCycles_setoe, wordCycles_flush, wordCycles_swseed,
    wordCycles_ledseed]

theorem wordCycles_fbenter (p : Params) :
    wordCycles p fbenterExpansion = wordCycles p ringrstExpansion ++ (latchStrobe p.tPhase ++ setOeCycles true) := by
  rw [fbenterExpansion, wordCycles_append, wordCycles_latch_setoe]

theorem wordCycles_refresh (p : Params) (msbFirst : Bool) (b : Byte) (last : Bool) :
    wordCycles p (refreshExpansion msbFirst b last) =
      setOeCycles false ++ columnWrite p.tPhase msbFirst b ++ (latchStrobe p.tPhase ++ setOeCycles true) ++
        if last then seedCycles p.tPhase .ledr else clockBit p.tPhase .ledr false := by
  cases last <;>
    simp only [refreshExpansion, wordCycles_append, wordCycles_setoe, wordCycles_colwr, wordCycles_latch_setoe,
      wordCycles_ledseed, wordCycles_ledadv, ↓reduceIte, Bool.false_eq_true]

theorem wordCycles_scan (p : Params) :
    wordCycles p scanExpansion = (List.range 15).flatMap (scanRow p) ++ seedCycles p.tPhase .swr := by
  have hrow : ∀ r, wordCycles p (.sample (BitVec.ofNat 4 r) :: swadv) = scanRow p r := fun r =>
    congrArg (sampleCycles p.settle (BitVec.ofNat 4 r) ++ ·) (List.append_nil _)
  have hrows : wordCycles p ((List.range 15).flatMap fun r => .sample (BitVec.ofNat 4 r) :: swadv) =
      (List.range 15).flatMap (scanRow p) := by
    rw [wordCycles, List.flatMap_assoc]
    exact congrArg (fun f => (List.range 15).flatMap f) (funext hrow)
  rw [scanExpansion, wordCycles_append, hrows, wordCycles_swseed]

/-! ## What they do -/

/-- The words of RINGRST leave the chains and the pins as RINGRST does, and `cur_row` as it was (R122). -/
theorem seqRun_ringrstWords (p : Params) (s : State) (n : Nat) :
    s.seqRun (wordCycles p ringrstExpansion) n =
      { s with swr := 0xFFFE, ledr := 0b000001, ledc := 0xFF, swrLine := ⟨true, true⟩, ledrLine := ⟨false, true⟩,
               ledcLine := ⟨true, true⟩, ledrOe := false } := by
  have hrow : (s.seqRun (wordCycles p ringrstExpansion) n).curRow = s.curRow := by
    simp [wordCycles_ringrst, seqRun_append, seqRun_flush, seqRun_seed, State.onChain]
  have hreset : { s.seqRun (wordCycles p ringrstExpansion) n with curRow := 0 } = s.seqRun (ringReset p.tPhase) n := by
    simp only [wordCycles_ringrst, ringReset, seqRun_append, seqRun_seed_curRow, seqRun_seed]
    rfl
  rw [seqRun_ringReset] at hreset
  generalize s.seqRun (wordCycles p ringrstExpansion) n = t at hrow hreset ⊢
  calc t = { { t with curRow := 0 } with curRow := s.curRow } := by rw [← hrow]
    _ = _ := by rw [hreset]

theorem seqRun_fbenterWords (p : Params) (s : State) (h : s.ledrLat = false) (n : Nat) :
    s.seqRun (wordCycles p fbenterExpansion) n =
      { s with swr := 0xFFFE, ledr := 0b000001, ledrLatch := 0b000001, ledc := 0xFF, swrLine := ⟨true, true⟩,
               ledrLine := ⟨false, true⟩, ledcLine := ⟨true, true⟩, ledrOe := true } := by
  simp only [wordCycles_fbenter, seqRun_append, seqRun_ringrstWords, seqRun_setOe]
  rw [seqRun_latchStrobe _ _ (by simpa using h)]

theorem seqRun_refreshWords (p : Params) (b : Byte) (last : Bool) (s : State) (h : s.ledrLat = false) (n : Nat) :
    s.seqRun (wordCycles p (refreshExpansion p.colMsbFirst b last)) n =
      { s with ledc := if p.colMsbFirst then b else b.reverse, ledrLatch := s.ledr, ledrOe := true,
               ledr := shiftIn s.ledr last, ledrLine := ⟨false, true⟩, ledcLine := ⟨colBit p.colMsbFirst b 7, true⟩ } := by
  simp only [wordCycles_refresh, seqRun_append, seqRun_setOe, seqRun_columnWrite]
  rw [seqRun_latchStrobe _ _ (by simpa using h)]
  cases last with
  | true => exact seqRun_seed _ _ _ _
  | false => exact seqRun_clockBit _ _ _ _ _

/-! ## The words are primitive, and how many cycles they take -/

theorem isPrimitive_ringrst : ∀ i ∈ ringrstExpansion, isPrimitive i = true := by decide

theorem isPrimitive_fbenter : ∀ i ∈ fbenterExpansion, isPrimitive i = true := by decide

theorem isPrimitive_scan : ∀ i ∈ scanExpansion, isPrimitive i = true := by decide

theorem isPrimitive_colwr (msbFirst : Bool) (b : Byte) : ∀ i ∈ colwr msbFirst b, isPrimitive i = true := by
  intro i hi
  obtain ⟨k, -, rfl⟩ := List.mem_map.mp hi
  rfl

theorem isPrimitive_refresh (msbFirst : Bool) (b : Byte) (last : Bool) :
    ∀ i ∈ refreshExpansion msbFirst b last, isPrimitive i = true := by
  have hadvance : ∀ i ∈ if last then ledseed else ledadv, isPrimitive i = true := by cases last <;> decide
  simp only [refreshExpansion, List.forall_mem_append]
  exact ⟨⟨⟨by decide, isPrimitive_colwr msbFirst b⟩, by decide⟩, hadvance⟩

section

variable {p : Params} (ht : 1 ≤ p.tPhase)

include ht

theorem length_ringrstWords : (wordCycles p ringrstExpansion).length = 3 + 150 * p.tPhase := by
  simp only [wordCycles_ringrst, List.length_append, length_flush ht, length_seed ht, setOeCycles, List.length_singleton]
  omega

theorem length_fbenterWords : (wordCycles p fbenterExpansion).length = 4 + 152 * p.tPhase := by
  simp only [wordCycles_fbenter, List.length_append, length_ringrstWords ht, length_latchStrobe ht, setOeCycles,
    List.length_singleton]
  omega

theorem length_refreshWords (msbFirst : Bool) (b : Byte) (last : Bool) :
    (wordCycles p (refreshExpansion msbFirst b last)).length = (if last then 3 else 2) + 29 * p.tPhase := by
  cases last <;>
    simp only [wordCycles_refresh, List.length_append, length_columnWrite ht, length_latchStrobe ht, length_seed ht,
      length_clockBit ht, setOeCycles, List.length_singleton, ↓reduceIte, Bool.false_eq_true] <;>
    omega

end

/-! ## Equal but for the registers written beside the words -/

theorem ringrst_eq_words {s : State} (hp : s.params.Legal) (hc : s.Calm (3 + 150 * s.params.tPhase)) :
    ∃ t u, exec .ringrst s = .next t ∧ execAll ringrstExpansion s = .next u ∧
      u = { t with source := u.source, upc := u.upc, curRow := s.curRow } := by
  have ht := exec_of_seqRun (i := .ringrst) rfl (ringReset_ne_nil _) (plain_ringReset _)
    (length_ringReset hp.tPhase_pos) hc (seqRun_ringReset _ _ _)
  obtain ⟨a, q, hu⟩ := execAll_words (by decide) isPrimitive_ringrst (length_ringrstWords hp.tPhase_pos) hc
  rw [retire_eq_atWord] at ht
  rw [seqRun_ringrstWords] at hu
  exact ⟨_, _, ht, hu, rfl⟩

theorem fbenter_eq_words {s : State} (hp : s.params.Legal) (hlow : s.ledrLat = false)
    (hc : s.Calm (4 + 152 * s.params.tPhase)) :
    ∃ t u, exec .fbenter s = .next t ∧ execAll fbenterExpansion s = .next u ∧
      u = { t with source := u.source, upc := u.upc, curRow := s.curRow, fbCnt := s.fbCnt, fbPos := s.fbPos } := by
  have ht := exec_of_seqRun (i := .fbenter) rfl (fbEnterCycles_ne_nil _) (plain_fbEnterCycles _)
    (length_fbEnterCycles hp.tPhase_pos) hc (seqRun_fbEnterCycles _ s.opStart hlow _)
  obtain ⟨a, q, hu⟩ := execAll_words (by decide) isPrimitive_fbenter (length_fbenterWords hp.tPhase_pos) hc
  rw [retire_eq_atWord] at ht
  rw [seqRun_fbenterWords _ s.opStart hlow] at hu
  exact ⟨_, _, ht, hu, rfl⟩

theorem refresh_eq_words {s : State} (hp : s.params.Legal) (hlow : s.ledrLat = false)
    (hc : s.Calm (3 + 29 * s.params.tPhase)) (hrow : s.curRow.toNat ≤ 5) :
    ∃ t u, exec .refresh s = .next t ∧
      execAll (refreshExpansion s.params.colMsbFirst (s.memRead .leds s.curRow.toNat) (decide (s.curRow = 5))) s =
        .next u ∧
      u = { t with source := u.source, upc := u.upc, curRow := s.curRow } := by
  have hms := cyclesOf_refresh hrow
  have hcalm : s.Calm ((if s.curRow = 5 then 3 else 2) + 29 * s.params.tPhase) :=
    calm_mono hc (by split <;> omega)
  have hlen := length_refreshWords hp.tPhase_pos s.params.colMsbFirst (s.memRead .leds s.curRow.toNat)
    (decide (s.curRow = 5))
  simp only [decide_eq_true_iff] at hlen
  have ht := exec_of_seqRun hms (refreshCycles_ne_nil _ _ _) (plain_refreshCycles _ _ _)
    (length_refreshCycles hp.tPhase_pos _ _) hcalm (seqRun_refreshCycles _ _ _ s.opStart hlow _)
  obtain ⟨a, q, hu⟩ := execAll_words (by simp [refreshExpansion]) (isPrimitive_refresh _ _ _) hlen hcalm
  rw [retire_eq_atWord] at ht
  rw [seqRun_refreshWords _ _ _ s.opStart hlow] at hu
  exact ⟨_, _, ht, hu, rfl⟩

/-- SCAN's first cycle writes the address byte, the others are those of the words (R141). -/
theorem scanCycles_eq (p : Params) : scanCycles p = [.header] :: wordCycles p scanExpansion := by
  rw [wordCycles_scan]
  exact List.append_assoc _ _ _

theorem cyclesOf_scan_of_idle {s : State} (h : s.input.txBusy = false) :
    cyclesOf .scan s = .next (whole (scanCycles s.params)) := by
  simp [cyclesOf, cyclesScan, h]

theorem scan_eq_words {s : State} (hp : s.params.Legal)
    (hc : s.Calm (17 + 15 * s.params.settle + 48 * s.params.tPhase)) (hidle : s.input.txBusy = false) :
    ∃ t u, exec .scan s = .next t ∧ execAll scanExpansion (s.opStart.cycle [.header]) = .next u ∧
      u = { t with source := u.source, upc := u.upc } := by
  have hlen := length_scanCycles hp.tPhase_pos
  rw [← hlen] at hc
  have ht := exec_of_run (cyclesOf_scan_of_idle hidle) (scanCycles_ne_nil _) (plain_scanCycles _) hc
  rw [scanCycles_eq] at ht hc
  have hfirst : s.opStart.input.rstN = true := (calm_first hc).1
  rw [runMicros_cons hfirst, retire_eq_atWord] at ht
  obtain ⟨hparams, hpending, -, -⟩ := cycle_keeps s.opStart [.header]
  have hrest : (s.opStart.cycle [.header]).Calm (wordCycles s.params scanExpansion).length :=
    calm_cycle (s := s.opStart) hc
  obtain ⟨a, q, hu⟩ := execAll_of_start isPrimitive_scan hpending (hparams.symm ▸ hrest)
  rw [hparams] at hu
  exact ⟨_, _, ht, hu, rfl⟩

/-- Settles O25: each composite has the cycles of its words and, in some of them, the writes of its registers. -/
theorem compositesAreTheirExpansions : Obligations.CompositesAreTheirExpansions := fun _ hp hlow =>
  ⟨ringrst_eq_words hp, fbenter_eq_words hp hlow, refresh_eq_words hp hlow, scan_eq_words hp⟩

end Sys2Proof.Machine
end

section
/-! SUPPORT. The rings under their pseudo-operations (41_row_select_ring.md R124 to R126, 30_encoding.md R89). -/

namespace Sys2Proof.Machine

/-! ## The advances -/

theorem wordCycles_replicate (p : Params) (k : Nat) (i : Instr) :
    wordCycles p (List.replicate k i) = times k (primitiveCycles p i) := List.flatMap_replicate

/-- Any number of CLKBITs of one chain and one level: what their bit clocks do beside what goes by. -/
theorem execAll_clkbits {s : State} (hp : s.params.Legal) (ch : Chain) (v : Bool) (k : Nat)
    (hc : s.Calm (3 * (k + 1) * s.params.tPhase)) :
    ∃ a q, execAll (List.replicate (k + 1) (.clkbit ch v)) s =
      .next ((((s.opStart.setLine ch ⟨v, true⟩).onChain ch fun x => shiftRun x v (k + 1)).withClock
        (s.opStart.elapse (3 * (k + 1) * s.params.tPhase))).atWord a q) := by
  have hcycles : wordCycles s.params (List.replicate (k + 1) (.clkbit ch v)) =
      times (k + 1) (clockBit s.params.tPhase ch v) := wordCycles_replicate _ _ _
  have hprim : ∀ i ∈ List.replicate (k + 1) (Instr.clkbit ch v), isPrimitive i = true := fun i hi => by
    rw [List.eq_of_mem_replicate hi]
    rfl
  have hlen : (times (k + 1) (clockBit s.params.tPhase ch v)).length = 3 * (k + 1) * s.params.tPhase := by
    rw [length_times, length_clockBit hp.tPhase_pos]
    ring
  have hrun := execAll_words (by simp) hprim (hcycles ▸ hlen) hc
  rwa [hcycles, seqRun_times_clockBit] at hrun

theorem execAll_swadv {s : State} (hp : s.params.Legal) (hc : s.Calm (3 * s.params.tPhase)) :
    ∃ t, execAll swadv s = .next t ∧ t.swr = shiftIn s.swr true := by
  obtain ⟨a, q, hrun⟩ := execAll_clkbits hp .swr true 0 hc
  exact ⟨_, hrun, rfl⟩

theorem execAll_ledadv {s : State} (hp : s.params.Legal) (hc : s.Calm (3 * s.params.tPhase)) :
    ∃ t, execAll ledadv s = .next t ∧ t.ledr = shiftIn s.ledr false := by
  obtain ⟨a, q, hrun⟩ := execAll_clkbits hp .ledr false 0 hc
  exact ⟨_, hrun, rfl⟩

/-- Settles O22: both advances shift an inactive bit in, so `ringPosition_advance` speaks of both rings. -/
theorem advanceMovesTheRingOneRow : Obligations.AdvanceMovesTheRingOneRow := by
  intro s hp hc
  obtain ⟨t, ht, hswr⟩ := execAll_swadv hp hc
  obtain ⟨u, hu, hledr⟩ := execAll_ledadv hp hc
  refine ⟨⟨t, ht, fun r hrow => ?swRow, fun hempty => ?swEmpty⟩, u, hu, fun r hrow => ?ledRow, fun hempty => ?ledEmpty⟩
  case swRow => simpa [hswr, posSw_shiftIn, Nat.lt_succ_iff] using ringPosition_advance hrow
  case swEmpty => simpa [hswr, posSw_shiftIn] using ringPosition_advance_empty hempty
  case ledRow => simpa [hledr, posLed_shiftIn, Nat.lt_succ_iff] using ringPosition_advance hrow
  case ledEmpty => simpa [hledr, posLed_shiftIn] using ringPosition_advance_empty hempty

/-! ## The re-seed -/

theorem execAll_swseed {s : State} (hp : s.params.Legal) (hc : s.Calm (3 * s.params.tPhase + 1)) :
    ∃ t, execAll swseed s = .next t ∧ t.swrLine.data = true ∧ t.swr = shiftIn s.swr false := by
  obtain ⟨a, q, hrun⟩ := execAll_words (is := swseed) (by decide) (by decide) (length_seed hp.tPhase_pos .swr) hc
  rw [wordCycles_swseed, seqRun_seed] at hrun
  exact ⟨_, hrun, rfl, rfl⟩

theorem execAll_ledseed {s : State} (hp : s.params.Legal) (hc : s.Calm (3 * s.params.tPhase + 1)) :
    ∃ t, execAll ledseed s = .next t ∧ t.ledrLine.data = false ∧ t.ledr = shiftIn s.ledr true := by
  obtain ⟨a, q, hrun⟩ := execAll_words (is := ledseed) (by decide) (by decide) (length_seed hp.tPhase_pos .ledr) hc
  rw [wordCycles_ledseed, seqRun_seed] at hrun
  exact ⟨_, hrun, rfl, rfl⟩

/-- Settles O23: both re-seeds shift an active bit in, so the lemmas `ringPosition_reseed_…` speak of both rings. -/
theorem reseedReachesRowZeroExactlyAtTheEnd : Obligations.ReseedReachesRowZeroExactlyAtTheEnd := by
  intro s hp hc
  obtain ⟨t, ht, htdata, hswr⟩ := execAll_swseed hp hc
  obtain ⟨u, hu, hudata, hledr⟩ := execAll_ledseed hp hc
  have hposSw : posSw t.swr = ringPosition 15 (shiftedRows true fun r => !s.swr.getLsbD r) := by
    rw [hswr, posSw_shiftIn, Bool.not_false]
  have hposLed : posLed u.ledr = ringPosition 6 (shiftedRows true fun r => s.ledr.getLsbD r) := by
    rw [hledr, posLed_shiftIn]
  refine ⟨⟨t, ht, htdata, ?sw⟩, u, hu, hudata, ?led⟩
  case sw =>
    rw [hposSw]
    refine ⟨?_, ringPosition_reseed_empty, ringPosition_reseed_last, fun r hr hrow =>
      ⟨ringPosition_reseed_early hrow (by omega), fun q hq => ?_⟩⟩
    · simpa using ringPosition_reseed_iff (n := 14) (active := fun r => !s.swr.getLsbD r)
    · have hselected := (swRow_shiftIn s.swr false hq).trans (shiftedRows_reseed_early hrow q hq)
      simpa [State.rowSelected, hq, hswr] using hselected
  case led =>
    rw [hposLed]
    exact ⟨ringPosition_reseed_iff, ringPosition_reseed_empty, ringPosition_reseed_last, fun r hr hrow =>
      ringPosition_reseed_early hrow (by omega)⟩

/-! ## From the ring reset -/

theorem shiftIn_shiftRun {n : Nat} (x : BitVec n) (v : Bool) (k : Nat) :
    shiftIn (shiftRun x v k) v = shiftRun x v (k + 1) := by
  induction k generalizing x with
  | zero => rfl
  | succ k ih => exact ih (shiftIn x v)

/-- The switch ring `r` advances after row 0, without a wrap past the last row (R124, R126). -/
theorem posSw_shiftRun_row0 (r : Nat) : posSw (shiftRun 0xFFFE true r) = if r ≤ 14 then .row r else .empty := by
  induction r with
  | zero => decide
  | succ r ih =>
    rw [← shiftIn_shiftRun, posSw_shiftIn]
    by_cases hrow : r ≤ 14
    · rw [if_pos hrow] at ih
      simpa [Nat.lt_succ_iff] using ringPosition_advance ih
    · rw [if_neg hrow] at ih
      rw [if_neg (by omega)]
      exact ringPosition_advance_empty ih

theorem execAll_swAdvances {s : State} (hp : s.params.Legal) (r : Nat) (hc : s.Calm (3 * r * s.params.tPhase)) :
    ∃ t, execAll (List.replicate r (.clkbit .swr true)) s = .next t ∧ t.swr = shiftRun s.swr true r := by
  cases r with
  | zero => exact ⟨s, rfl, rfl⟩
  | succ k =>
    obtain ⟨a, q, hrun⟩ := execAll_clkbits hp .swr true k hc
    exact ⟨_, hrun, rfl⟩

/-- Settles O24: RINGRST puts the ring at row 0, and `r` advances shift `r` inactive bits in. -/
theorem advancesAfterResetSelectRowAfterRow : Obligations.AdvancesAfterResetSelectRowAfterRow := by
  intro s r hp hc
  obtain ⟨t, ht, hlater, hseeded⟩ := exec_ringrst hp (calm_mono hc (Nat.le_add_right _ _))
  have hrest := hlater.calm hc
  rw [← hlater.params] at hrest
  obtain ⟨u, hu, hswr⟩ := execAll_swAdvances (hlater.legal hp) r hrest
  refine ⟨u, (execAll_cons ht).trans hu, ?_⟩
  rw [hswr, hseeded.swr, posSw_shiftRun_row0]

end Sys2Proof.Machine
end

section
/-! SUPPORT. The LED ring over refreshes (41_row_select_ring.md R128), and both rings in step with their registers in every
step of the ROM (R123, 42_scan_refresh.md R142, R143). -/

namespace Sys2Proof.Machine

/-! ## REFRESH, seen by the LED ring -/

theorem exec_refresh_ring {s : State} (hp : s.params.Legal) (hrow : s.curRow.toNat ≤ 5) (hlow : s.ledrLat = false)
    (hc : s.Calm ((if s.curRow = 5 then 3 else 2) + 29 * s.params.tPhase)) :
    ∃ t, exec .refresh s = .next t ∧ Later ((if s.curRow = 5 then 3 else 2) + 29 * s.params.tPhase) s t ∧
      t.ledrLat = false ∧ t.ledr = shiftIn s.ledr (decide (s.curRow = 5)) ∧
      t.curRow = if s.curRow = 5 then 0 else s.curRow + 1 := by
  have hlen := (length_whole (refreshCycles_ne_nil s.params s.curRow (s.memRead .leds s.curRow.toNat))).trans
    (length_refreshCycles hp.tPhase_pos _ _)
  have hexec := exec_refresh hp hrow hlow hc
  have hlater := exec_later (cyclesOf_refresh hrow) (hlen.symm ▸ hc) hexec
  rw [hlen] at hlater
  have hlat : (s.opStart.elapse ((if s.curRow = 5 then 3 else 2) + 29 * s.params.tPhase)).ledrLat = false :=
    (congrArg State.ledrLat (withClock_elapse_opStart hc)).symm.trans hlow
  exact ⟨_, hexec, hlater, by simpa using hlat, by simp, by simp⟩

/-- `t` is `k` refreshes after `s`, none of them of row 5, from row 0. -/
structure RowsRefreshed (k : Nat) (s t : State) : Prop where
  later : Later (k * (2 + 29 * s.params.tPhase)) s t
  ledrLat : t.ledrLat = false
  ledr : t.ledr = shiftRun s.ledr false k
  curRow : t.curRow.toNat = k

theorem RowsRefreshed.succ {k : Nat} {s t : State} (h : RowsRefreshed k s t) (hk : k < 5) (hp : s.params.Legal)
    (hc : s.Calm ((k + 1) * (2 + 29 * s.params.tPhase))) :
    ∃ u, exec .refresh t = .next u ∧ RowsRefreshed (k + 1) s u := by
  have hcurRow := h.curRow
  have hne : t.curRow ≠ 5 := by
    intro h5
    rw [h5] at hcurRow
    exact absurd hcurRow (by simpa using hk.ne')
  have hcalm : t.Calm (2 + 29 * s.params.tPhase) := h.later.calm (by rwa [← Nat.succ_mul])
  rw [← h.later.params] at hcalm
  obtain ⟨u, hu, hlater, hlat, hledr, hrow⟩ :=
    exec_refresh_ring (h.later.legal hp) (by omega) h.ledrLat (by rwa [if_neg hne])
  rw [if_neg hne] at hlater hrow
  refine ⟨u, hu, ⟨?_, ?_, ?_⟩, hlat, ?_, ?_⟩
  · exact hlater.params.trans h.later.params
  · exact hlater.plan.trans h.later.plan
  · rw [hlater.now, h.later.now, h.later.params]
    ring
  · rw [hledr, h.ledr, decide_eq_false hne, shiftIn_shiftRun]
  · rw [hrow]
    bv_omega

theorem execAll_refreshes {s : State} (hp : s.params.Legal) (hrow : s.curRow = 0) (hlow : s.ledrLat = false) {k : Nat}
    (hk : k ≤ 5) (hc : s.Calm (k * (2 + 29 * s.params.tPhase))) :
    ∃ t, execAll (List.replicate k .refresh) s = .next t ∧ RowsRefreshed k s t := by
  induction k with
  | zero => exact ⟨s, rfl, ⟨rfl, rfl, by simp⟩, hlow, rfl, by simp [hrow]⟩
  | succ k ih =>
    obtain ⟨t, hrun, ht⟩ := ih (by omega) (calm_mono hc (Nat.mul_le_mul_right _ k.le_succ))
    obtain ⟨u, hexec, hu⟩ := ht.succ hk hp hc
    refine ⟨u, ?_, hu⟩
    rw [List.replicate_succ', execAll_append hrun]
    exact execAll_cons hexec

/-- Five inactive bits and an active one leave row 0, whatever the chain held. -/
theorem shiftIn_shiftRun_five (x : BitVec 6) : shiftIn (shiftRun x false 5) true = 0b000001 := by
  apply BitVec.eq_of_getLsbD_eq
  intro i hi
  rw [shiftIn_stage, shiftRun_stage]
  have hone : ∀ i < 6, (0b000001 : BitVec 6).getLsbD i = decide (i = 0) := by decide
  rw [hone i hi]
  by_cases h0 : i = 0
  · simp [h0]
  · simp [h0, show i - 1 < 5 by omega]

/-- Settles O34: the first five refreshes shift the chain's contents out of all stages but the last, the sixth seeds the
ring. -/
theorem ledRingHealsAfterSixRefreshes : Obligations.LedRingHealsAfterSixRefreshes := by
  intro s hp hrow hlow hc
  have hsplit : 13 + 174 * s.params.tPhase = 5 * (2 + 29 * s.params.tPhase) + (3 + 29 * s.params.tPhase) := by omega
  rw [hsplit] at hc
  obtain ⟨t, hrun, ht⟩ := execAll_refreshes hp hrow hlow (k := 5) le_rfl (calm_mono hc (Nat.le_add_right _ _))
  have h5 : t.curRow = 5 := BitVec.eq_of_toNat_eq ht.curRow
  have hcalm := ht.later.calm hc
  rw [← ht.later.params] at hcalm
  obtain ⟨u, hexec, -, -, hledr, hcurRow⟩ :=
    exec_refresh_ring (ht.later.legal hp) (by simp [h5]) ht.ledrLat (by rwa [if_pos h5])
  rw [if_pos h5] at hcurRow
  rw [ht.ledr, decide_eq_true h5, shiftIn_shiftRun_five] at hledr
  exact ⟨u, (execAll_append (is := List.replicate 5 .refresh) (js := [.refresh]) hrun).trans (execAll_cons hexec),
    hledr, hcurRow⟩

/-! ## A step without glitches -/

/-- Without glitches, a run either is calm or ends in a reset cycle. -/
theorem calm_or_resetCycle (ms : List Micro) {s : State} (hg : s.NeverGlitched) :
    s.Calm ms.length ∨ ∃ u : State, s.runMicros ms = u.resetCycle := by
  induction ms generalizing s with
  | nil => exact .inl (calm_zero s)
  | cons m ms ih =>
    cases hr : s.input.rstN with
    | false => exact .inr ⟨s, runMicros_reset hr⟩
    | true =>
      obtain ⟨-, -, hplan, hnow⟩ := cycle_keeps s m
      rw [runMicros_cons hr]
      refine (ih (s := s.cycle m) fun c => by rw [inputAt_congr hplan]; exact hg c).imp_left fun hrest => ?_
      rw [List.length_cons, Nat.add_comm, calm_add]
      refine ⟨fun k hk => ?_, fun t hp hn => calm_congr (hp.trans hplan.symm) (hn.trans hnow.symm) hrest⟩
      rw [Nat.lt_one_iff.mp hk]
      exact ⟨hr, hg _⟩

theorem resetCycle_ringsInStep (s : State) : s.resetCycle.RingsInStep := fun _ hupc => by
  rw [(blockAtReset_resetCycle s).upc] at hupc
  exact absurd hupc (by decide)

/-- Without a reset, direct execution does not turn into the ROM (R171). -/
theorem write_source_eq_rom (inp : Input) (s : State) (w : Write) : (s.write inp w).source = .rom ↔ s.source = .rom := by
  cases w <;> simp [State.write, drop_eq_rom]

theorem foldl_write_source_eq_rom (inp : Input) (m : Micro) (s : State) :
    (m.foldl (State.write inp) s).source = .rom ↔ s.source = .rom := by
  induction m generalizing s with
  | nil => rfl
  | cons w m ih => exact (ih _).trans (write_source_eq_rom inp s w)

theorem cycle_source_eq_rom (s : State) (m : Micro) : (s.cycle m).source = .rom ↔ s.source = .rom := by
  simp [State.cycle, foldl_write_source_eq_rom]

theorem cycles_source_eq_rom (s : State) (ms : List Micro) : (s.cycles ms).source = .rom ↔ s.source = .rom := by
  induction ms generalizing s with
  | nil => rfl
  | cons m ms ih => exact (ih _).trans (cycle_source_eq_rom s m)

/-! ## The operations of the ROM, by what they do to the rings -/

/-- After RINGRST at address 0, the ROM's operations are three that clock a ring and five that do not (R170). -/
theorem romOp_rings {a : BitVec 4} {i : Instr} (h : romOp a = some i) :
    i = .ringrst ∨ 1 ≤ a.toNat ∧
      (i = .refresh ∨ i = .scan ∨ i = .fbenter ∨ i ∈ [.timeron, .waittick, .handoff, .check, .fbstep]) := by
  have hall : ∀ a, ∀ i ∈ romOp a, i = .ringrst ∨ 1 ≤ a.toNat ∧
      (i = .refresh ∨ i = .scan ∨ i = .fbenter ∨ i ∈ [Instr.timeron, .waittick, .handoff, .check, .fbstep]) := by
    decide
  exact hall a i h

/-- One refresh moves the LED ring from row to row with `cur_row`, and from row 5 to row 0 (R143). -/
theorem shiftIn_row {q : BitVec 3} (h : q.toNat ≤ 5) :
    shiftIn (1#6 <<< q.toNat) (decide (q = 5)) = 1#6 <<< (if q = 5 then 0 else q + 1).toNat := by
  revert q; decide

theorem exec_fbenter_rings {s : State} (hp : s.params.Legal) (hlow : s.ledrLat = false)
    (hc : s.Calm (4 + 152 * s.params.tPhase)) :
    ∃ t, exec .fbenter s = .next t ∧ t.swr = 0xFFFE ∧ t.ledr = 0b000001 ∧ t.curRow = 0 := by
  have hexec := exec_of_seqRun (i := .fbenter) rfl (fbEnterCycles_ne_nil _) (plain_fbEnterCycles _)
    (length_fbEnterCycles hp.tPhase_pos) hc (seqRun_fbEnterCycles _ s.opStart hlow _)
  exact ⟨_, hexec, by simp [State.withClock], by simp [State.withClock], by simp [State.withClock]⟩

/-- SCAN leaves the switch ring at row 0, or, where it only polls, as it was (R142). -/
theorem exec_scan_ring {s : State} {ms : List Micro} (hp : s.params.Legal) (hms : cyclesOf .scan s = .next ms)
    (hc : s.Calm ms.length) (hring : s.swr = 0xFFFE) : ∃ t, exec .scan s = .next t ∧ t.swr = 0xFFFE := by
  cases hbusy : s.input.txBusy with
  | true =>
    have hpoll := cyclesOf_scan_of_busy hbusy
    obtain rfl : ms = pollCycle := Host.Outcome.next.inj (hms.symm.trans hpoll)
    obtain ⟨-, -, -, hswr, -⟩ := elapse_keeps (calm_congr (t := s.opStart) rfl rfl hc)
    exact ⟨_, exec_of_poll hpoll, hswr.trans hring⟩
  | false =>
    have hscan := cyclesOf_scan_of_idle hbusy
    obtain rfl : ms = whole (scanCycles s.params) := Host.Outcome.next.inj (hms.symm.trans hscan)
    rw [length_whole (scanCycles_ne_nil _)] at hc
    have hexec := exec_of_seqRun hscan (scanCycles_ne_nil _) (plain_scanCycles _) rfl hc
      (seqRun_scanCycles hp.tPhase_pos s.opStart _)
    exact ⟨_, hexec, by simp [State.withClock]⟩

theorem noReset_of_calm {i : Instr} {s t : State} {ms : List Micro} (hms : cyclesOf i s = .next ms)
    (hc : s.Calm ms.length) (h : exec i s = .next t) : s.NoReset (t.now - s.now) := by
  rw [(exec_later hms hc h).now, Nat.add_sub_cancel_left]
  exact fun k hk => (hc k hk).1

/-- An operation of the ROM in calm cycles leaves both rings in step. -/
theorem exec_keeps_rings {i : Instr} {s t : State} {ms : List Micro} (hs : s.Inv) (hrings : s.RingsInStep)
    (hg : s.NeverGlitched) (hrom : s.source = .rom) (hop : s.currentOp = some i) (hms : cyclesOf i s = .next ms)
    (hc : s.Calm ms.length) (h : exec i s = .next t) : t.swr = 0xFFFE ∧ t.ledr = 1#6 <<< t.curRow.toNat := by
  have hp := hs.params
  have hreset := noReset_of_calm hms hc h
  have swr_kept (hr : ¬Clocks i .swr) : t.swr = s.swr := exec_drivenSame (r := .clk .swr) h hreset hr hg
  have ledr_kept (hr : ¬Clocks i .ledr) : t.ledr = s.ledr := exec_drivenSame (r := .clk .ledr) h hreset hr hg
  have row_kept (hr : ¬Register.curRow.WrittenBy i) : t.curRow = s.curRow := exec_same h hreset hr
  have is_t {u : State} (hu : exec i s = .next u) : u = t := Host.Outcome.next.inj (hu.symm.trans h)
  rw [currentOp_of_rom hrom] at hop
  rcases romOp_rings hop with rfl | ⟨hupc, hi⟩
  · obtain rfl : whole (ringReset s.params.tPhase) = ms := Host.Outcome.next.inj hms
    rw [length_whole (ringReset_ne_nil _), length_ringReset hp.tPhase_pos] at hc
    obtain ⟨u, hu, -, hseeded⟩ := exec_ringrst hp hc
    rw [← is_t hu, hseeded.swr, hseeded.ledr, hseeded.curRow]
    exact ⟨rfl, by decide⟩
  · obtain ⟨hswr, hledr⟩ := hrings hrom hupc
    rcases hi with rfl | rfl | rfl | hi
    · obtain ⟨-, rfl⟩ := cyclesOf_refresh_next hms
      rw [length_whole (refreshCycles_ne_nil _ _ _), length_refreshCycles hp.tPhase_pos] at hc
      obtain ⟨u, hu, -, -, huledr, hurow⟩ := exec_refresh_ring hp hs.curRow hs.strobe hc
      refine ⟨(swr_kept (by simp [Clocks])).trans hswr, ?_⟩
      rw [← is_t hu, huledr, hurow, hledr, shiftIn_row hs.curRow]
    · obtain ⟨u, hu, huswr⟩ := exec_scan_ring hp hms hc hswr
      refine ⟨(congrArg State.swr (is_t hu)).symm.trans huswr, ?_⟩
      rw [ledr_kept (by simp [Clocks]), row_kept (by simp), hledr]
    · obtain rfl : whole (fbEnterCycles s.params.tPhase) = ms := Host.Outcome.next.inj hms
      rw [length_whole (fbEnterCycles_ne_nil _), length_fbEnterCycles hp.tPhase_pos] at hc
      obtain ⟨u, hu, huswr, huledr, hurow⟩ := exec_fbenter_rings hp hs.strobe hc
      rw [← is_t hu, huswr, huledr, hurow]
      exact ⟨rfl, by decide⟩
    · have hclocks : ¬Clocks i .swr ∧ ¬Clocks i .ledr ∧ ¬Register.curRow.WrittenBy i := by
        fin_cases hi <;> simp [Clocks]
      obtain ⟨hnswr, hnledr, hnrow⟩ := hclocks
      rw [swr_kept hnswr, ledr_kept hnledr, row_kept hnrow]
      exact ⟨hswr, hledr⟩

/-- Settles O53: a step is a reset cycle, which makes no claim on the rings, or an operation; that one ends in a reset cycle
too, or is calm, and then the ROM's operations keep the rings one by one. -/
theorem everyStepKeepsTheRingsInStep : Obligations.EveryStepKeepsTheRingsInStep := by
  intro s t hs hrings hg h
  rcases step_next_cases hs.atStart h with rfl | ⟨i, hop, hexec⟩
  · exact resetCycle_ringsInStep s
  · obtain ⟨ms, hms, hperform⟩ := exec_next_iff.mp hexec
    rcases calm_or_resetCycle ms (s := s.opStart) hg with hcalm | ⟨u, hreset⟩
    · intro hrom _
      have hc : s.Calm ms.length := hcalm
      obtain ⟨ms', -, hcycles⟩ := exec_of_noReset hexec (noReset_of_calm hms hc hexec)
      rw [hcycles, cycles_source_eq_rom] at hrom
      exact exec_keeps_rings hs hrings hg hrom hop hms hc hexec
    · rw [hperform, State.perform, hreset]
      exact resetCycle_ringsInStep u

end Sys2Proof.Machine
end

section
/-! SUPPORT. Transport Handoff (42_scan_refresh.md R145): a wait for the driver, and the cycle of acceptance. -/

namespace Sys2Proof.Machine

/-! ## The operation -/

theorem plain_idle (n : Nat) : ∀ m ∈ List.replicate n ([] : Micro), Plain m := fun m hm => by
  rw [List.eq_of_mem_replicate hm]
  rfl

theorem cyclesOf_handoff_of_ready {s : State} (h : s.input.txReady = true) :
    cyclesOf .handoff s = .next (whole [[]]) := by
  simp [cyclesOf, cyclesHandoff, h]

/-- Settles O35: the sequencer's part of HANDOFF's one cycle is empty. -/
theorem handoffEndsInTheReadyCycle : Obligations.HandoffEndsInTheReadyCycle := by
  intro s hc hready
  rw [exec_of_seqRun (n := 1) (cyclesOf_handoff_of_ready hready) (List.cons_ne_nil _ _) (plain_idle 1) rfl hc
    (seqRun_idle 1 s.opStart _), withClock_elapse_opStart hc]

/-! ## The wait -/

/-- At the start of an operation, a step without a reset is the operation at the sequencer (R171). -/
theorem step_eq_exec {s : State} {i : Instr} (hr : s.input.rstN = true) (hstart : s.pending = [])
    (hop : s.currentOp = some i) : step s = exec i s := by
  unfold State.currentOp at hop
  split at hop
  · cases hop
  · next w hw =>
    split at hop
    · next j hj =>
      cases hop
      simp [step, hr, hstart, hw, hj]
    · cases hop

/-- The sequencer is at the start of HANDOFF in the ROM (R170). -/
structure State.AtHandoff (s : State) : Prop where
  source : s.source = .rom
  upc : s.upc = 5
  pending : s.pending = []

theorem State.AtHandoff.currentOp {s : State} (h : s.AtHandoff) : s.currentOp = some .handoff := by
  rw [currentOp_of_rom h.source, romOp_eq_handoff, h.upc]

theorem State.AtHandoff.step_eq {s : State} (h : s.AtHandoff) (hr : s.input.rstN = true) :
    step s = exec .handoff s := step_eq_exec hr h.pending h.currentOp

theorem State.AtHandoff.opStart_eq {s : State} (h : s.AtHandoff) : s.opStart = s := by
  simp [State.opStart, ← h.pending]

/-- What goes by does not move the sequencer. -/
theorem State.AtHandoff.elapse {s : State} (h : s.AtHandoff) {n : Nat} (hc : s.Calm n) : (s.elapse n).AtHandoff := by
  rw [elapse_eq hc]
  exact ⟨h.source, h.upc, h.pending⟩

theorem elapse_succ {s : State} {n : Nat} (hr : s.input.rstN = true) :
    s.elapse (n + 1) = (s.elapse 1).elapse n := by
  simp only [State.elapse, List.replicate_succ, List.replicate_zero, runMicros_cons hr, runMicros_nil]

/-- As long as the driver is not ready, each step is one poll (R145). -/
theorem runSteps_of_handoff_wait {s : State} (h : s.AtHandoff) {n : Nat} (hc : s.Calm n)
    (hwait : ∀ k < n, (s.inputAt (s.now + k)).txReady = false) : runSteps n s = .next (s.elapse n) := by
  induction n generalizing s with
  | zero => rfl
  | succ n ih =>
    have hr := (calm_first hc).1
    have hfirst : s.Calm 1 := calm_mono hc (by omega)
    have hpoll : step s = .next (s.elapse 1) := by
      rw [h.step_eq hr, exec_of_poll (cyclesOf_handoff_of_notReady (hwait 0 n.succ_pos)), h.opStart_eq]
    obtain ⟨-, hplan, hnow, -⟩ := elapse_keeps hfirst
    have hrest : (s.elapse 1).Calm n := ((calm_add s 1 n).mp (by rwa [Nat.add_comm])).2 _ hplan hnow
    rw [elapse_succ hr]
    simp only [runSteps, hpoll]
    refine ih (h.elapse hfirst) hrest fun k hk => ?_
    rw [inputAt_congr hplan, hnow, Nat.add_assoc, Nat.add_comm 1 k]
    exact hwait (k + 1) (by omega)

theorem busBytes_congr {s t : State} (hp : t.params = s.params) (hf : t.frame = s.frame) : t.busBytes = s.busBytes := by
  simp only [State.busBytes, memRead_congr .frame hp hf]

/-- HANDOFF in a ready cycle moves the ROM on to CHECK and leaves the frame (R145). -/
theorem State.AtHandoff.step_of_ready {s : State} (h : s.AtHandoff) (hc : s.Calm 1) (hready : s.input.txReady = true) :
    ∃ u, step s = .next u ∧ u.upc = 6 ∧ u.busBytes = s.busBytes := by
  refine ⟨_, (h.step_eq (calm_first hc).1).trans (handoffEndsInTheReadyCycle s hc hready), ?_⟩
  rw [h.opStart_eq, elapse_eq hc]
  refine ⟨?_, busBytes_congr (by simp [State.withClock]) (by simp [State.withClock])⟩
  simp only [retire_sets, State.withClock, h.source, h.upc]
  decide

/-- Settles O36: the steps of the wait are polls, which leave the sequencer at HANDOFF; the next one is the
acceptance. -/
theorem handoffWaitsForTheDriver : Obligations.HandoffWaitsForTheDriver := by
  intro s n hrom hupc hstart hc hwait
  have hat : s.AtHandoff := ⟨hrom, hupc, hstart⟩
  have hpolls : s.Calm n := calm_mono hc n.le_succ
  obtain ⟨hparams, hplan, hnow, -⟩ := elapse_keeps hpolls
  have hthen : (s.elapse n).AtHandoff := hat.elapse hpolls
  have hlast : (s.elapse n).Calm 1 := ((calm_add s n 1).mp hc).2 _ hplan hnow
  have hinput : (s.elapse n).input = s.inputAt (s.now + n) := by rw [State.input, inputAt_congr hplan, hnow]
  have hvalid : (s.elapse n).txValid = true :=
    (txValidExactlyInHandoff (s.elapse n)).1.mpr ⟨(calm_first hlast).1, hthen.currentOp⟩
  refine ⟨_, runSteps_of_handoff_wait hat hpolls hwait, rfl, hvalid, fun hready => ?_⟩
  rw [← hinput] at hready
  obtain ⟨u, hu, hupc', hbytes⟩ := hthen.step_of_ready hlast hready
  have hframe : (s.elapse n).frame = s.frame := by rw [elapse_eq hpolls]; rfl
  exact ⟨u, hu, by simp [State.txAccepted, hvalid, hready], hupc', hbytes.trans (busBytes_congr hparams hframe)⟩

end Sys2Proof.Machine
end

section
/-! SUPPORT. LED Row Refresher (42_scan_refresh.md R143, R144): what one refresh shows, and refreshes one after
another. -/

namespace Sys2Proof.Machine

/-- Settles O30: the byte of `exec_refresh` is the one that `cur_row` names at the start. -/
theorem refreshWritesOneRow : Obligations.RefreshWritesOneRow := by
  rintro s b hp hrow hlow hc rfl
  exact exec_refresh hp hrow hlow hc

/-! ## What is lit (R42) -/

theorem calm_refresh {s : State} (hc : s.Calm (3 + 29 * s.params.tPhase)) :
    s.Calm ((if s.curRow = 5 then 3 else 2) + 29 * s.params.tPhase) :=
  calm_mono hc (by split <;> omega)

/-- What decides which LEDs are lit after REFRESH (R42): the latch takes the LED-row stages, the column chain the row's
byte. -/
theorem exec_refresh_shows {s t : State} (hp : s.params.Legal) (hrow : s.curRow.toNat ≤ 5) (hlow : s.ledrLat = false)
    (hc : s.Calm (3 + 29 * s.params.tPhase)) (h : exec .refresh s = .next t) :
    t.ledrOe = true ∧ t.ledrLatch = s.ledr ∧
      ∀ c < 8, t.ledc.getLsbD c =
        (s.memRead .leds s.curRow.toNat).getLsbD (if s.params.colMsbFirst then c else 7 - c) := by
  obtain rfl := Host.Outcome.next.inj ((exec_refresh hp hrow hlow (calm_refresh hc)).symm.trans h)
  refine ⟨by simp, by simp, fun c hcol => ?_⟩
  simp only [retire_keeps]
  rw [← colRun_eight s.params.colMsbFirst _ 0, columnWritten_stage _ _ _ hcol]

theorem row_stage {q : Nat} (hq : q ≤ 5) (r : Nat) : (1#6 <<< q).getLsbD r = decide (r = q) := by
  have hin : ∀ q ≤ 5, ∀ r < 6, (1#6 <<< q).getLsbD r = decide (r = q) := by decide
  rcases Nat.lt_or_ge r 6 with hr | hr
  · exact hin q hq r hr
  · rw [BitVec.getLsbD_of_ge _ _ hr, decide_eq_false (by omega)]

theorem posLed_row {q : Nat} (hq : q ≤ 5) : posLed (1#6 <<< q) = .row q :=
  (posLed_eq _).trans (ringPosition_eq_row_iff.mpr ⟨by omega, fun i _ => row_stage hq i⟩)

/-- The successor of a row (R143). -/
theorem nextRow_toNat {q : BitVec 3} (h : q.toNat ≤ 5) :
    (if q = 5 then 0 else q + 1).toNat = (q.toNat + 1) % 6 := by
  revert q; decide

/-- One refresh with the LED ring at row `cur_row`: both go on to the next row. -/
theorem exec_refresh_inStep {s : State} (hp : s.params.Legal) (hrow : s.curRow.toNat ≤ 5) (hlow : s.ledrLat = false)
    (hring : s.ledr = 1#6 <<< s.curRow.toNat) (hc : s.Calm (3 + 29 * s.params.tPhase)) :
    ∃ t, exec .refresh s = .next t ∧ (∃ n ≤ 3 + 29 * s.params.tPhase, Later n s t) ∧ t.ledrLat = false ∧
      t.curRow.toNat = (s.curRow.toNat + 1) % 6 ∧ t.ledr = 1#6 <<< ((s.curRow.toNat + 1) % 6) := by
  obtain ⟨t, ht, hlater, hlat, hledr, hnext⟩ := exec_refresh_ring hp hrow hlow (calm_refresh hc)
  have htoNat : t.curRow.toNat = (s.curRow.toNat + 1) % 6 := by rw [hnext, nextRow_toNat hrow]
  refine ⟨t, ht, ⟨_, by split <;> omega, hlater⟩, hlat, htoNat, ?_⟩
  rw [hledr, hring, shiftIn_row hrow, ← hnext, htoNat]

/-- Settles O31: the latch holds the row's stage alone (`row_stage`), the column chain the row's byte. -/
theorem refreshLightsExactlyItsRow : Obligations.RefreshLightsExactlyItsRow := by
  rintro s q hp rfl hrow hlow hring hc
  obtain ⟨t, ht, -, -, hnext, hledr⟩ := exec_refresh_inStep hp hrow hlow hring hc
  obtain ⟨hoe, hlatch, hledc⟩ := exec_refresh_shows hp hrow hlow hc ht
  refine ⟨t, ht, ?position, ?register, fun r c => ?lit⟩
  case position => rw [hledr, hnext, posLed_row (by omega)]
  case register =>
    rw [hnext]
    split <;> omega
  case lit =>
    rw [State.lit, hoe, hlatch, hring, row_stage hrow]
    by_cases hcol : c < 8
    · have hlt : s.curRow.toNat < 6 := Nat.lt_succ_of_le hrow
      rw [hledc c hcol]
      by_cases hr : r = s.curRow.toNat <;> simp [hr, hcol, hlt]
    · simp [hcol]

/-! ## Refreshes one after another -/

theorem Later.trans {n m : Nat} {s t u : State} (h : Later n s t) (h' : Later m t u) : Later (n + m) s u :=
  ⟨h'.params.trans h.params, h'.plan.trans h.plan, by rw [h'.now, h.now, Nat.add_assoc]⟩

/-- `t` is `k` refreshes after `s`, whose LED ring and register were at row `q` (R144). -/
structure RowsTakenInTurn (q k : Nat) (s t : State) : Prop where
  later : ∃ n ≤ k * (3 + 29 * s.params.tPhase), Later n s t
  ledrLat : t.ledrLat = false
  curRow : t.curRow.toNat = (q + k) % 6
  ledr : t.ledr = 1#6 <<< ((q + k) % 6)
  ledrLatch : 1 ≤ k → t.ledrLatch = 1#6 <<< ((q + k - 1) % 6)

theorem RowsTakenInTurn.succ {q k : Nat} {s t : State} (h : RowsTakenInTurn q k s t) (hp : s.params.Legal)
    (hc : s.Calm ((k + 1) * (3 + 29 * s.params.tPhase))) :
    ∃ u, exec .refresh t = .next u ∧ RowsTakenInTurn q (k + 1) s u := by
  obtain ⟨n, hn, hlater⟩ := h.later
  have hcalm : t.Calm (3 + 29 * t.params.tPhase) := by
    rw [hlater.params]
    exact hlater.calm (calm_mono hc (by rw [Nat.succ_mul k]; omega))
  have hlegal := hlater.legal hp
  have hrow : t.curRow.toNat ≤ 5 := by rw [h.curRow]; omega
  have hring : t.ledr = 1#6 <<< t.curRow.toNat := by rw [h.curRow, h.ledr]
  obtain ⟨u, hu, ⟨m, hm, hthen⟩, hlat, hnext, hledr⟩ := exec_refresh_inStep hlegal hrow h.ledrLat hring hcalm
  obtain ⟨-, hlatch, -⟩ := exec_refresh_shows hlegal hrow h.ledrLat hcalm hu
  have hmod : (t.curRow.toNat + 1) % 6 = (q + (k + 1)) % 6 := by rw [h.curRow]; omega
  rw [hmod] at hnext hledr
  refine ⟨u, hu, ⟨n + m, ?_, hlater.trans hthen⟩, hlat, hnext, hledr, fun _ => hlatch.trans h.ledr⟩
  rw [hlater.params] at hm
  rw [Nat.succ_mul]
  omega

/-- Settles O33: by induction on the refreshes, each of which latches the ring's row and moves on
(`RowsTakenInTurn.succ`). -/
theorem refreshesTakeTheRowsInTurn : Obligations.RefreshesTakeTheRowsInTurn := by
  rintro s q k hp hq hrow hlow hring hc
  have hrun : ∃ t, execAll (List.replicate k .refresh) s = .next t ∧ RowsTakenInTurn q k s t := by
    induction k with
    | zero =>
      have hmod : (q + 0) % 6 = q := by omega
      exact ⟨s, rfl, ⟨0, by simp, rfl, rfl, rfl⟩, hlow, by rw [hmod, hq], by rw [hmod, hring], by simp⟩
    | succ k ih =>
      obtain ⟨t, hrun, ht⟩ := ih (calm_mono hc (Nat.mul_le_mul_right _ k.le_succ))
      obtain ⟨u, hexec, hu⟩ := ht.succ hp hc
      refine ⟨u, ?_, hu⟩
      rw [List.replicate_succ', execAll_append hrun]
      exact execAll_cons hexec
  obtain ⟨t, ht, hrows⟩ := hrun
  exact ⟨t, ht, hrows.curRow, hrows.ledr, hrows.ledrLatch⟩

end Sys2Proof.Machine
end

section
/-! SUPPORT. Switch Matrix Scanner (42_scan_refresh.md R140, R141): SAMPLE and SCAN as a whole. -/

namespace Sys2Proof.Machine

theorem memWrite_frame_eq (s : State) (i : Nat) (v : Byte) :
    s.memWrite .frame i v = { s with frame := (s.memWrite .frame i v).frame } := by
  unfold State.memWrite
  split <;> rfl

theorem length_sample (k : Nat) (row : BitVec 4) : (sampleCycles k row).length = k + 1 := by simp [sampleCycles]

theorem frame_withClock (s c : State) (a : Nat) : (s.withClock c).memRead .frame a = s.memRead .frame a := rfl

theorem frame_retire (s : State) (a : Nat) : s.retire.memRead .frame a = s.memRead .frame a :=
  memRead_congr .frame (by simp) (by simp [State.space]) a

/-- Settles O26: SAMPLE's one write is the capture in its last cycle (`seqRun_sample`). -/
theorem sampleStoresTheColumnInput : Obligations.SampleStoresTheColumnInput := by
  intro s row hrow hc
  have hne : row ≠ 15 := by
    rintro rfl
    exact absurd hrow (by decide)
  have hexec := exec_of_seqRun (i := .sample row) (if_neg hne) (by simp [sampleCycles]) (plain_sample _ row)
    (length_sample _ row) hc (seqRun_sample _ row s.opStart s.now)
  refine ⟨_, hexec, ?next, fun a => ?frame⟩
  case next =>
    rw [memWrite_frame_eq, ← withClock_elapse_opStart hc]
    simp [State.withClock]
  case frame =>
    rw [frame_retire, frame_withClock, memRead_memWrite _ _ (show row.toNat + 1 < 16 by omega)]
    rfl

/-- FRAME after a scan (R141). -/
theorem scanFrame_byte (p : Params) (s : State) (n : Nat) {t : State} (hparams : t.params = s.params)
    (hframe : t.frame = scanFrame p (s.memWrite .frame 0 (addressByte s.params)) n 15) :
    t.memRead .frame 0 = addressByte s.params ∧
      ∀ r < 15, t.memRead .frame (r + 1) =
        (s.inputAt (n + r * (p.settle + 1 + 3 * p.tPhase) + p.settle)).colIn := by
  have hplan : (s.memWrite .frame 0 (addressByte s.params)).plan = s.plan := by simp
  have hread (a : Nat) : t.memRead .frame a = State.memRead { s.memWrite .frame 0 (addressByte s.params) with
      frame := scanFrame p (s.memWrite .frame 0 (addressByte s.params)) n 15 } .frame a := by
    refine memRead_congr .frame (by simpa using hparams) ?_ a
    exact hframe
  refine ⟨?_, fun r hr => ?_⟩
  · rw [hread, scanFrame_read _ _ _ _ le_rfl, if_neg (by omega), memRead_memWrite _ _ (by decide), if_pos rfl]
  · rw [hread, scanFrame_read _ _ _ _ le_rfl, if_pos (by omega), Nat.add_sub_cancel, inputAt_congr hplan]

/-- Settles O27: the sequencer's part of SCAN is `seqRun_scanCycles`, and the bytes are those of `scanFrame_byte`. -/
theorem scanStoresEveryRow : Obligations.ScanStoresEveryRow := by
  intro s hp hidle hc
  have hexec := exec_of_seqRun (cyclesOf_scan_of_idle hidle) (scanCycles_ne_nil _) (plain_scanCycles _)
    (length_scanCycles hp.tPhase_pos) hc (seqRun_scanCycles hp.tPhase_pos s.opStart s.now)
  refine ⟨_, hexec, ?next, scanFrame_byte s.params s.opStart (s.now + 1) (by simp [State.withClock])
    (by simp [State.withClock])⟩
  rw [← withClock_elapse_opStart hc]
  simp [State.withClock]

end Sys2Proof.Machine
end

section
/-! SUPPORT. The switch ring and FRAME cycle by cycle through a scan (42_scan_refresh.md R142). -/

namespace Sys2Proof.Machine

/-! ## A row of a scan, cycle by cycle -/

/-- SAMPLE changes nothing before its last cycle. -/
theorem seqRun_take_sample (j k : Nat) (row : BitVec 4) (s : State) (n : Nat) :
    s.seqRun ((sampleCycles k row).take j) n =
      if j ≤ k then s else s.memWrite .frame (row.toNat + 1) (s.inputAt (n + k)).colIn := by
  split
  · next h =>
    have hidle : (sampleCycles k row).take j = List.replicate j [] := by
      simp [sampleCycles, List.take_append, List.take_replicate, h]
    rw [hidle, seqRun_idle]
  · next h => rw [List.take_of_length_le (by rw [length_sample]; omega), seqRun_sample]

theorem swr_seqCycle_data (inp : Input) (s : State) (ch : Chain) (v : Bool) :
    (State.seqCycle inp s [.data ch v]).swr = s.swr := by
  cases ch <;> simp [State.seqCycle, State.write, State.setData]

/-- A falling clock pin shifts nothing (R106). -/
theorem swr_seqCycle_clkLow (inp : Input) (s : State) (ch : Chain) :
    (State.seqCycle inp s [.clk ch false]).swr = s.swr := by
  cases ch <;> simp [State.seqCycle, State.write, State.setClk, rises]

/-- The switch ring moves in the first cycle of a bit clock's third phase, and in no other. -/
theorem swr_seqRun_take_clockBit {t : Nat} (ht : 1 ≤ t) (k : Nat) (v : Bool) (s : State) (n : Nat) :
    (s.seqRun ((clockBit t .swr v).take k) n).swr = if k ≤ 2 * t then s.swr else shiftIn s.swr v := by
  rcases Nat.lt_or_ge (2 * t) k with hhigh | hlow
  · have hzero : k ≠ 0 := by omega
    have hlowPart : k - t ≠ 0 := by omega
    have hhighPart : k - (t + t) ≠ 0 := by omega
    simp only [clockBit, List.take_append, List.length_append, length_phase ht, seqRun_append, seqRun_take_phase, hzero,
      hlowPart, hhighPart, if_false, hhigh.not_ge]
    simp [State.seqCycle, State.write, State.setData, State.setClk, rises]
  · have hhighPart : k - (t + t) = 0 := by omega
    simp only [clockBit, List.take_append, List.length_append, length_phase ht, seqRun_append, seqRun_take_phase,
      hhighPart, if_true, hlow]
    split <;> split <;> simp only [swr_seqCycle_data, swr_seqCycle_clkLow]

/-- Inside one row of a scan, the switch ring moves in the third phase of its SWADV. -/
theorem swr_seqRun_take_scanRow {p : Params} (ht : 1 ≤ p.tPhase) (r j : Nat) (s : State) (n : Nat) :
    (s.seqRun ((scanRow p r).take j) n).swr =
      if j ≤ p.settle + 1 + 2 * p.tPhase then s.swr else shiftIn s.swr true := by
  have hsample (u : State) (i m : Nat) :
      (u.seqRun ((sampleCycles p.settle (BitVec.ofNat 4 r)).take i) m).swr = u.swr := by
    rw [seqRun_take_sample]
    split <;> simp
  rw [scanRow, List.take_append, length_sample, seqRun_append, show Chain.swr.inactive = true from rfl,
    swr_seqRun_take_clockBit ht, hsample]
  simp only [Nat.sub_le_iff_le_add']

/-! ## The rows before it -/

/-- The cycles of a scan before SAMPLE `r`. -/
def scanBefore (p : Params) (r : Nat) : List Micro := [[.header]] ++ (List.range r).flatMap (scanRow p)

/-- How many they are. -/
def sampleStart (p : Params) (r : Nat) : Nat := 1 + r * (p.settle + 1 + 3 * p.tPhase)

theorem sampleStart_succ (p : Params) (r : Nat) :
    sampleStart p (r + 1) = sampleStart p r + (p.settle + 1 + 3 * p.tPhase) := by
  rw [sampleStart, Nat.succ_mul, ← Nat.add_assoc]
  rfl

theorem length_scanBefore {p : Params} (ht : 1 ≤ p.tPhase) (r : Nat) : (scanBefore p r).length = sampleStart p r := by
  rw [scanBefore, List.length_append, length_scanRows ht]
  rfl

theorem scanBefore_succ (p : Params) (r : Nat) : scanBefore p (r + 1) = scanBefore p r ++ scanRow p r := by
  rw [scanBefore, flatMap_range_succ, ← List.append_assoc]
  rfl

/-- Each row before SAMPLE `r` has shifted one inactive bit into the switch ring. -/
theorem swr_seqRun_scanBefore (p : Params) (r : Nat) (s : State) (n : Nat) :
    (s.seqRun (scanBefore p r) n).swr = shiftRun s.swr true r := by
  induction r with
  | zero => simp [scanBefore, State.seqRun, State.seqCycle, State.write, shiftRun]
  | succ r ih => rw [scanBefore_succ, seqRun_append, seqRun_scanRow, ← shiftIn_shiftRun, ← ih]

theorem scanCycles_eq_append (p : Params) {r : Nat} (hr : r ≤ 15) :
    ∃ rest, scanCycles p = scanBefore p r ++ rest := by
  induction hr using Nat.decreasingInduction with
  | self => exact ⟨seedCycles p.tPhase .swr, rfl⟩
  | of_succ k _ ih =>
    obtain ⟨rest, hrest⟩ := ih
    exact ⟨scanRow p k ++ rest, by rw [hrest, scanBefore_succ, List.append_assoc]⟩

/-- The cycles of a scan up to cycle `j` of row `r`. -/
theorem take_scanCycles {p : Params} (ht : 1 ≤ p.tPhase) {r j : Nat} (hr : r < 15)
    (hj : j ≤ p.settle + 1 + 3 * p.tPhase) :
    (scanCycles p).take (sampleStart p r + j) = scanBefore p r ++ (scanRow p r).take j := by
  obtain ⟨rest, hrest⟩ := scanCycles_eq_append p (Nat.succ_le_of_lt hr)
  rw [hrest, scanBefore_succ, List.append_assoc, ← length_scanBefore ht, List.take_length_add_append,
    List.take_append_of_le_length (by rwa [length_scanRow ht])]

/-! ## The scan in calm cycles -/

section

variable {s : State} (hp : s.params.Legal) (hc : s.Calm (17 + 15 * s.params.settle + 48 * s.params.tPhase)) {r : Nat}
  (hr : r < 15)

include hp hc

/-- A part of a scan: the sequencer's part of its cycles, beside what goes by. -/
theorem runMicros_take_scan (k : Nat) :
    ∃ c, s.runMicros ((scanCycles s.params).take k) = (s.seqRun ((scanCycles s.params).take k) s.now).withClock c := by
  have hplain : ∀ m ∈ (scanCycles s.params).take k, Plain m := fun m hm =>
    plain_scanCycles s.params m (List.mem_of_mem_take hm)
  rw [← length_scanCycles hp.tPhase_pos] at hc
  exact ⟨_, run_split hplain (calm_mono hc (List.length_take_le' _ _))⟩

include hr

/-- The switch ring after cycle `j` of row `r`: moved once by each row before, and once more by the third phase of this
row's SWADV. -/
theorem swr_scan_at {j : Nat} (hj : j ≤ s.params.settle + 1 + 3 * s.params.tPhase) :
    (s.runMicros ((scanCycles s.params).take (sampleStart s.params r + j))).swr =
      shiftRun s.swr true (if j ≤ s.params.settle + 1 + 2 * s.params.tPhase then r else r + 1) := by
  obtain ⟨c, hrun⟩ := runMicros_take_scan hp hc (sampleStart s.params r + j)
  rw [hrun, take_scanCycles hp.tPhase_pos hr hj, seqRun_append]
  refine (swr_seqRun_take_scanRow hp.tPhase_pos r j _ _).trans ?_
  rw [swr_seqRun_scanBefore, shiftIn_shiftRun]
  split <;> rfl

/-- The byte of row `r` stands in FRAME once its SAMPLE is over (R140). -/
theorem frame_scan_after_sample :
    (s.runMicros ((scanCycles s.params).take (sampleStart s.params r + (s.params.settle + 1)))).memRead .frame (r + 1) =
      (s.inputAt (s.now + sampleStart s.params r + s.params.settle)).colIn := by
  obtain ⟨c, hrun⟩ := runMicros_take_scan hp hc (sampleStart s.params r + (s.params.settle + 1))
  have hsample : (scanRow s.params r).take (s.params.settle + 1) =
      sampleCycles s.params.settle (BitVec.ofNat 4 r) := by
    rw [scanRow, List.take_left' (length_sample _ _)]
  have hrow : (BitVec.ofNat 4 r).toNat = r := by simp; omega
  have hplan := (seqRun_keeps (scanBefore s.params r) s s.now).2.1
  rw [hrun, take_scanCycles hp.tPhase_pos hr (by omega), hsample, seqRun_append, seqRun_sample, frame_withClock, hrow,
    memRead_memWrite _ _ (show r + 1 < 16 by omega), if_pos rfl, length_scanBefore hp.tPhase_pos, inputAt_congr hplan]

variable (hring : s.swr = 0xFFFE)

include hring

/-- From row 0, row `r` is selected until the third phase of its SWADV (R142). -/
theorem posSw_scan_row {j : Nat} (hj : j ≤ s.params.settle + 1 + 2 * s.params.tPhase) :
    posSw (s.runMicros ((scanCycles s.params).take (sampleStart s.params r + j))).swr = .row r := by
  rw [swr_scan_at hp hc hr (by omega), if_pos hj, hring, posSw_shiftRun_row0, if_pos (by omega)]

/-- And after it, the ring is past the row. -/
theorem swr_scan_past {j : Nat} (hj : s.params.settle + 1 + 2 * s.params.tPhase < j)
    (hj' : j ≤ s.params.settle + 1 + 3 * s.params.tPhase) :
    (s.runMicros ((scanCycles s.params).take (sampleStart s.params r + j))).swr = shiftRun 0xFFFE true (r + 1) := by
  rw [swr_scan_at hp hc hr hj', if_neg hj.not_ge, hring]

end

/-- Settles O28: the switch ring (`posSw_scan_row`, `swr_scan_past`) and FRAME (`frame_scan_after_sample`) at the cycles
that R142 names. -/
theorem scanSamplesEachRowWhileSelected : Obligations.ScanSamplesEachRowWhileSelected := by
  intro s hp hring hc
  have ht := hp.tPhase_pos
  refine ⟨fun r hr => posSw_scan_row hp hc hr hring (by omega), fun r B hpos hr hB => ?advance, ?last, by decide,
    ?reseeded⟩
  case advance =>
    obtain ⟨i, rfl⟩ : ∃ i, r = i + 1 := ⟨r - 1, by omega⟩
    obtain rfl : B = sampleStart s.params (i + 1) := hB
    have hi : i < 15 := by omega
    have hsucc := sampleStart_succ s.params i
    have hbefore : sampleStart s.params (i + 1) - s.params.tPhase =
        sampleStart s.params i + (s.params.settle + 1 + 2 * s.params.tPhase) := by omega
    have hcapture : sampleStart s.params (i + 1) - s.params.tPhase + 1 + (s.params.tPhase + s.params.settle) =
        sampleStart s.params (i + 1) + (s.params.settle + 1) := by omega
    rw [hcapture, hbefore]
    refine ⟨posSw_scan_row hp hc hi hring le_rfl, ?_, frame_scan_after_sample hp hc hr⟩
    rw [Nat.add_assoc (sampleStart _ _), swr_scan_past hp hc hi hring (by omega) (by omega), posSw_shiftRun_row0,
      if_pos (by omega)]
  case last =>
    have hrows : 1 + 15 * (s.params.settle + 1 + 3 * s.params.tPhase) =
        sampleStart s.params 14 + (s.params.settle + 1 + 3 * s.params.tPhase) := sampleStart_succ s.params 14
    rw [hrows, swr_scan_past hp hc (by decide) hring (by omega) le_rfl]
    decide
  case reseeded =>
    rw [run_split (plain_scanCycles s.params) ((length_scanCycles ht).symm ▸ hc), seqRun_scanCycles ht]
    rfl

end Sys2Proof.Machine
end

section
/-! SUPPORT. Where an operation leaves the sequencer (43_scheduler.md R170, R171): the three kinds of cycles that an operation
can have, and the word after each. -/

namespace Sys2Proof.Machine

/-! ## The kinds of cycles -/

/-- What the operation waits for does not hold in this cycle (R141, R145, R173). -/
def Waits (i : Instr) (s : State) : Prop :=
  (i = .waittick ∧ s.tickFlag = false) ∨ (i = .scan ∧ s.input.txBusy = true) ∨
    (i = .handoff ∧ s.input.txReady = false)

theorem waiting_iff {s : State} {i : Instr} (hop : s.currentOp = some i) : s.Waiting ↔ Waits i s := by
  simp [State.Waiting, Waits, hop]

/-- The cycles of an operation, by how they end: a poll does not end it, CHECK writes `upc` itself, and any other operation
moves to its successor in its last cycle and in no other (R171). -/
inductive CyclesKind (i : Instr) (s : State) : List Micro → Prop
  | poll (hwait : Waits i s) : CyclesKind i s pollCycle
  | check (hi : i = .check) :
      CyclesKind i s (if s.tickFlag then [[.deadlineMiss, .retireCheck]] else [[.upc 2, .retireCheck]])
  | moves (hi : i ≠ .check) (hgo : ¬Waits i s) {body : List Micro} (hbody : AllWrites Write.Stays body) :
      CyclesKind i s (whole body)

theorem cyclesOf_kind {i : Instr} {s : State} {ms : List Micro} (h : cyclesOf i s = .next ms) : CyclesKind i s ms := by
  have hpins : ∀ ch, AllPinWrites Write.Stays ch := fun _ _ => ⟨trivial, trivial⟩
  cases i with
  | clkbit ch v => cases h; exact .moves (by simp) (by simp [Waits]) ((hpins ch).clockBit _ _)
  | setdata ch v => cases h; exact .moves (by simp) (by simp [Waits]) (by simp)
  | latch => cases h; exact .moves (by simp) (by simp [Waits]) (by simp)
  | setoe v => cases h; exact .moves (by simp) (by simp [Waits]) (by simp)
  | sample row => rw [cyclesOf_sample_next h]; exact .moves (by simp) (by simp [Waits]) (by simp)
  | ringrst => cases h; exact .moves (by simp) (by simp [Waits]) (allWrites_ringReset hpins trivial trivial _)
  | timeron => cases h; exact .moves (by simp) (by simp [Waits]) (by simp)
  | refresh =>
    rw [(cyclesOf_refresh_next h).2]
    exact .moves (by simp) (by simp [Waits]) (allWrites_refreshCycles (hpins _) (hpins _) (fun _ => trivial)
      (fun _ => trivial) trivial (fun _ => trivial) _ _)
  | scan =>
    cases h
    split
    · exact .poll (by simp [Waits, *])
    · exact .moves (by simp) (by simp [Waits, *]) (allWrites_scanCycles (hpins _) trivial (fun _ => trivial) _)
  | handoff =>
    cases h
    split
    · exact .moves (by simp) (by simp [Waits, *]) (by simp)
    · exact .poll (by simp [Waits, *])
  | waittick =>
    cases h
    split
    · exact .moves (by simp) (by simp [Waits, *]) (by simp)
    · exact .poll (by simp [Waits, *])
  | check => cases h; exact .check rfl
  | fbenter =>
    cases h
    exact .moves (by simp) (by simp [Waits]) (allWrites_fbEnterCycles hpins (fun _ => trivial) (fun _ => trivial) trivial
      trivial trivial _)
  | fbstep =>
    cases h
    exact .moves (by simp) (by simp [Waits]) (allWrites_fbStepCycles (hpins _) (fun _ => trivial) trivial
      (fun _ => trivial) _ _)

theorem whole_ne_nil (ms : List Micro) : whole ms ≠ [] := by
  unfold whole inLast
  split <;> simp

theorem cyclesOf_ne_nil {i : Instr} {s : State} {ms : List Micro} (h : cyclesOf i s = .next ms) : ms ≠ [] := by
  cases cyclesOf_kind h with
  | poll => simp [pollCycle]
  | check => split <;> simp
  | moves => exact whole_ne_nil _

/-! ## The word after a run of cycles, with glitches in it or not -/

/-- `t` is at the word that `s` is at. -/
def SameWord (s t : State) : Prop := t.upc = s.upc ∧ t.source = s.source

theorem SameWord.trans {s t u : State} (h : SameWord s t) (h' : SameWord t u) : SameWord s u :=
  ⟨h'.1.trans h.1, h'.2.trans h.2⟩

theorem SameWord.retire {s t : State} (h : SameWord s t) : SameWord s.retire t.retire := by
  simp [SameWord, h.1, h.2]

theorem foldl_write_sameWord (inp : Input) {m : Micro} (hm : ∀ w ∈ m, w.Stays) (s : State) :
    SameWord s (m.foldl (State.write inp) s) := by
  have hat : m.foldl (State.write inp) s = (m.foldl (State.write inp) s).atWord s.upc s.source :=
    foldl_write_atWord inp s s.upc s.source hm
  rw [hat]
  exact ⟨rfl, rfl⟩

/-- Where the sequencer is after a cycle is as the cycle's writes leave it. -/
theorem cycle_word (s : State) (m : Micro) :
    SameWord (m.foldl (State.write s.input) (s.background (m.any Write.clears))) (s.cycle m) := by
  simp [SameWord, State.cycle]

theorem background_sameWord (s : State) (clr : Bool) : SameWord s (s.background clr) := by simp [SameWord]

theorem cycle_sameWord {m : Micro} (hm : ∀ w ∈ m, w.Stays) (s : State) : SameWord s (s.cycle m) :=
  ((background_sameWord s _).trans (foldl_write_sameWord _ hm _)).trans (cycle_word s m)

theorem cycle_retire_word {m : Micro} (hm : ∀ w ∈ m, w.Stays) (s : State) :
    SameWord s.retire (s.cycle (m ++ [.retire])) := by
  refine SameWord.trans ?_ (cycle_word s _)
  rw [List.foldl_append]
  exact ((background_sameWord s _).trans (foldl_write_sameWord _ hm _)).retire

theorem cycles_whole_word {body : List Micro} (h : AllWrites Write.Stays body) (s : State) :
    SameWord s.retire (s.cycles (whole body)) := by
  induction body generalizing s with
  | nil => exact cycle_retire_word (m := []) (by simp) s
  | cons m body ih =>
    obtain ⟨hm, hbody⟩ := (allWrites_cons m body).mp h
    cases body with
    | nil => exact cycle_retire_word hm s
    | cons m' body => exact (cycle_sameWord hm s).retire.trans (ih hbody (s.cycle m))

theorem cycle_deadlineMiss_word (s : State) :
    (s.cycle [.deadlineMiss, .retireCheck]).source = s.source.drop ∧
      (s.cycle [.deadlineMiss, .retireCheck]).upc = 7 := by
  simp [State.cycle, State.write]

theorem cycle_checkPass_word (s : State) :
    (s.cycle [.upc 2, .retireCheck]).source = s.source.drop ∧ (s.cycle [.upc 2, .retireCheck]).upc = 2 := by
  simp [State.cycle, State.write]

/-- Where an operation without a reset leaves the sequencer (R170, R171). -/
theorem exec_word {i : Instr} {s t : State} (h : exec i s = .next t) (hr : s.NoReset (t.now - s.now)) :
    (Waits i s → SameWord s t) ∧
      (¬Waits i s → t.source = s.source.drop ∧
        t.upc = if i = .check then (if s.tickFlag then 7 else 2) else s.retire.upc) := by
  obtain ⟨ms, hms, rfl⟩ := exec_of_noReset h hr
  cases cyclesOf_kind hms with
  | poll hwait => exact ⟨fun _ => cycle_sameWord (m := []) (by simp) s.opStart, fun hgo => absurd hwait hgo⟩
  | check hi =>
    subst hi
    refine ⟨fun hwait => by simp [Waits] at hwait, fun _ => ?_⟩
    cases s.tickFlag with
    | true => exact cycle_deadlineMiss_word s.opStart
    | false => exact cycle_checkPass_word s.opStart
  | moves hi hgo hbody =>
    refine ⟨fun hwait => absurd hwait hgo, fun _ => ?_⟩
    obtain ⟨hupc, hsource⟩ := cycles_whole_word hbody s.opStart
    simp [hi, hupc, hsource]

/-! ## The word a step runs -/

theorem currentOp_of_decode {s : State} {w : Byte} {i : Instr} (hw : s.currentWord = some w) (hd : decode w = .op i) :
    s.currentOp = some i := by
  simp [State.currentOp, hw, hd]

/-- Settles O4: the word's operation is the one at the sequencer, which a step without a reset runs. -/
theorem stepRunsTheDecodedOperation : Obligations.StepRunsTheDecodedOperation :=
  fun _ _ _ hr hstart hw hd => step_eq_exec hr hstart (currentOp_of_decode hw hd)

theorem step_ne_next_of_noOp {s : State} (hrst : s.input.rstN = true) (hstart : s.pending = [])
    (hop : s.currentOp = none) (t : State) : step s ≠ .next t := by
  intro h
  cases hw : s.currentWord with
  | none =>
    simp only [step, hrst, hstart, hw, State.noWord, ↓reduceIte] at h
    split at h <;> cases h
  | some w =>
    cases hd : decode w with
    | op i => simp [currentOp_of_decode hw hd] at hop
    | reserved r => simp [step, hrst, hstart, hw, hd] at h

/-- A step without a reset is the operation at the sequencer (R171). -/
theorem step_of_noReset {s t : State} (hstart : s.pending = []) (h : step s = .next t) (hr : s.NoReset (t.now - s.now)) :
    ∃ i, s.currentOp = some i ∧ exec i s = .next t := by
  cases hrst : s.input.rstN with
  | false =>
    obtain rfl : s.resetCycle = t := Host.Outcome.next.inj ((step_of_reset hrst).symm.trans h)
    have hone : s.input.rstN = true := hr 0 (by simp [(resetCycle_keeps s).2.2.2])
    exact absurd (hrst.symm.trans hone) (by decide)
  | true =>
    cases hop : s.currentOp with
    | none => exact absurd h (step_ne_next_of_noOp hrst hstart hop t)
    | some i => exact ⟨i, rfl, (step_eq_exec hrst hstart hop).symm.trans h⟩

/-- Settles O7: an operation's end takes one word off the list, and CHECK alone writes `upc` (`exec_word`). -/
theorem directExecutionFollowsItsList : Obligations.DirectExecutionFollowsItsList := by
  intro s t w ws i hdirect hd hstart h hr
  have hop : s.currentOp = some i := currentOp_of_decode (by simp [State.currentWord, hdirect]) hd
  obtain ⟨j, hj, hexec⟩ := step_of_noReset hstart h hr
  obtain rfl : i = j := Option.some.inj (hop.symm.trans hj)
  obtain ⟨hstay, hgo⟩ := exec_word hexec hr
  rw [waiting_iff hop]
  refine ⟨fun hwait => ?waits, fun hmoves => ?moves⟩
  case waits => exact ⟨(hstay hwait).2.trans hdirect, (hstay hwait).1⟩
  case moves =>
    obtain ⟨hsource, hupc⟩ := hgo hmoves
    exact ⟨by simp [hsource, hdirect, Source.drop], by simpa [hdirect] using hupc⟩

/-! ## The microprogram (R170) -/

theorem romNext_eq_successor {a : BitVec 4} (h : a.toNat ≤ 9) (hne : a ≠ 6) :
    romNext a = ([1, 2, 3, 4, 5, 6, 2, 8, 9, 8] : List (BitVec 4)).getD a.toNat 0 := by
  revert a; decide

/-- Settles O6: the words of the ROM evaluated; the word after an operation is `exec_word`, with the ROM's successors for
all but CHECK, which stands at address 6. -/
theorem sequencerRunsTheMicroprogram : Obligations.SequencerRunsTheMicroprogram := by
  refine ⟨by decide, by decide, fun s t hrom hstart hupc h hr => ?_⟩
  obtain ⟨i, hop, hexec⟩ := step_of_noReset hstart h hr
  obtain ⟨hstay, hgo⟩ := exec_word hexec hr
  have hcheck : i = .check ↔ s.upc = 6 := by
    rw [← romOp_eq_check, ← currentOp_of_rom hrom, hop, Option.some.injEq]
  rw [waiting_iff hop]
  refine ⟨?rom, fun hwait => (hstay hwait).1, fun hmoves => ?moves⟩
  case rom =>
    obtain ⟨ms, -, rfl⟩ := exec_of_noReset hexec hr
    exact (cycles_source_eq_rom _ ms).mpr hrom
  case moves =>
    rw [(hgo hmoves).2]
    simp only [hcheck, retire_sets, hrom, ↓reduceIte]
    split
    · rfl
    · next hne => exact romNext_eq_successor hupc hne

end Sys2Proof.Machine
end

section
/-! SUPPORT. The microprogram never stops (43_scheduler.md R170, R171), and FALLBACK is terminal (43_scheduler.md R178,
60_exceptions.md R210). -/

namespace Sys2Proof.Machine

/-! ## A run of cycles, with resets in it or not -/

theorem runMicros_plan (s : State) (ms : List Micro) : (s.runMicros ms).plan = s.plan := by
  rcases runMicros_cases s ms with hall | ⟨k, -, -, hend⟩
  · rw [hall, (cycles_keeps s ms).2.2.1]
  · rw [hend, (resetCycle_keeps _).2.2.1, (cycles_keeps s _).2.2.1]

theorem runMicros_now_lt (s : State) {ms : List Micro} (hne : ms ≠ []) : s.now < (s.runMicros ms).now := by
  rcases runMicros_cases s ms with hall | ⟨k, -, -, hend⟩
  · have hlen := List.length_pos_of_ne_nil hne
    rw [hall, (cycles_keeps s ms).2.2.2]
    omega
  · rw [hend, (resetCycle_keeps _).2.2.2, (cycles_keeps s _).2.2.2]
    omega

/-- A reset returns the sequencer to the ROM, and without one it does not leave it (R171, R230). -/
theorem runMicros_rom {s : State} (h : s.source = .rom) (ms : List Micro) : (s.runMicros ms).source = .rom := by
  rcases runMicros_cases s ms with hall | ⟨k, -, -, hend⟩
  · rw [hall]
    exact (cycles_source_eq_rom s ms).mpr h
  · rw [hend, (blockAtReset_resetCycle _).rom]

/-! ## One step -/

/-- `t` is a later state of the same run in the ROM, and meets the invariant. -/
structure RomLater (s t : State) : Prop where
  source : t.source = .rom
  inv : t.Inv
  plan : t.plan = s.plan
  now : s.now < t.now

theorem step_romLater {s t : State} (hs : s.Inv) (hrom : s.source = .rom) (h : step s = .next t) : RomLater s t := by
  have hinv : t.Inv := everyStepKeepsTheInvariant s t hs h
  rcases step_next_cases hs.atStart h with rfl | ⟨i, -, hexec⟩
  · obtain ⟨-, -, hplan, hnow⟩ := resetCycle_keeps s
    exact ⟨(blockAtReset_resetCycle s).rom, hinv, hplan, by omega⟩
  · obtain ⟨ms, hms, rfl⟩ := exec_next_iff.mp hexec
    exact ⟨runMicros_rom (s := s.opStart) hrom ms, hinv, runMicros_plan s.opStart ms,
      runMicros_now_lt s.opStart (cyclesOf_ne_nil hms)⟩

/-- The operations that stop from some state are REFRESH, with no such row, and SAMPLE, with row 15 (R60, R83). -/
theorem cyclesOf_next_of_row {s : State} (hrow : s.curRow.toNat ≤ 5) {i : Instr} (hi : ∀ row, i ≠ .sample row) :
    ∃ ms, cyclesOf i s = .next ms := by
  cases i with
  | sample row => exact absurd rfl (hi row)
  | refresh => exact ⟨_, cyclesOf_refresh hrow⟩
  | _ => exact ⟨_, rfl⟩

/-- Every address of the ROM holds an operation, SAMPLE none of them (R170). -/
theorem romOp_of_le {a : BitVec 4} (h : a.toNat ≤ 9) : ∃ i, romOp a = some i ∧ ∀ row, i ≠ .sample row := by
  have hall : ∀ a : BitVec 4, a.toNat ≤ 9 → ∃ i ∈ romOp a, i.major ≠ 5 := by decide
  obtain ⟨i, hi, hmajor⟩ := hall a h
  exact ⟨i, hi, fun row hsample => hmajor (by rw [hsample]; rfl)⟩

theorem rom_step_next {s : State} (hs : s.Inv) (hrom : s.source = .rom) : ∃ t, step s = .next t := by
  cases hrst : s.input.rstN with
  | false => exact ⟨_, step_of_reset hrst⟩
  | true =>
    obtain ⟨i, hop, hi⟩ := romOp_of_le hs.upc
    obtain ⟨ms, hms⟩ := cyclesOf_next_of_row hs.curRow hi
    rw [step_eq_exec hrst hs.atStart ((currentOp_of_rom hrom).trans hop)]
    exact ⟨_, exec_next_iff.mpr ⟨ms, hms, rfl⟩⟩

/-- Settles O52: the ROM's operations all have cycles in a state that meets the invariant (`rom_step_next`), and at least
one of them goes by. -/
theorem theMicroprogramNeverStops : Obligations.TheMicroprogramNeverStops := by
  intro s hs hrom
  obtain ⟨t, h⟩ := rom_step_next hs hrom
  have hlater := step_romLater hs hrom h
  exact ⟨t, h, hlater.source, hlater.inv, hlater.now⟩

/-! ## FALLBACK -/

/-- The operations of the ROM from address 7 on (R170, R178). -/
theorem romOp_fallback {a : BitVec 4} {i : Instr} (ha : 7 ≤ a.toNat) (h : romOp a = some i) :
    i = .fbenter ∨ i = .waittick ∨ i = .fbstep := by
  have hall : ∀ a : BitVec 4, 7 ≤ a.toNat → ∀ i ∈ romOp a, i = .fbenter ∨ i = .waittick ∨ i = .fbstep := by decide
  exact hall a ha i h

/-- Without a reset, a step from FALLBACK in the ROM writes neither `mode` nor FRAME. -/
theorem fallback_step_keeps {s t : State} (hs : s.Inv) (hrom : s.source = .rom) (hmode : s.mode = .fallback)
    (h : step s = .next t) (hr : s.NoReset (t.now - s.now)) : t.mode = s.mode ∧ t.frame = s.frame := by
  obtain ⟨i, hop, hexec⟩ := step_of_noReset hs.atStart h hr
  have hi := romOp_fallback ((hs.modeOfAddress hrom).mp hmode) ((currentOp_of_rom hrom).symm.trans hop)
  have hmodeKept : ¬Register.mode.WrittenBy i := by rcases hi with rfl | rfl | rfl <;> simp
  have hframeKept : ¬Register.frame.WrittenBy i := by rcases hi with rfl | rfl | rfl <;> simp
  exact ⟨exec_same hexec hr hmodeKept, exec_same hexec hr hframeKept⟩

/-- `t` is a state of a run in the ROM from `s`: without a reset between them, `mode` and FRAME are as they were. -/
structure FallbackRun (s t : State) : Prop where
  source : t.source = .rom
  inv : t.Inv
  plan : t.plan = s.plan
  now : s.now ≤ t.now
  kept : s.NoReset (t.now - s.now) → t.mode = s.mode ∧ t.frame = s.frame

theorem noReset_split {s t u : State} (hplan : t.plan = s.plan) (hst : s.now ≤ t.now) (htu : t.now ≤ u.now)
    (h : s.NoReset (u.now - s.now)) : s.NoReset (t.now - s.now) ∧ t.NoReset (u.now - t.now) := by
  refine ⟨fun k hk => h k (by omega), fun k hk => ?_⟩
  rw [inputAt_congr hplan, show t.now + k = s.now + (t.now - s.now + k) by omega]
  exact h _ (by omega)

theorem FallbackRun.succ {s t : State} (h : FallbackRun s t) (hmode : s.mode = .fallback) :
    ∃ u, step t = .next u ∧ FallbackRun s u := by
  obtain ⟨u, hstep⟩ := rom_step_next h.inv h.source
  have hlater := step_romLater h.inv h.source hstep
  refine ⟨u, hstep, hlater.source, hlater.inv, hlater.plan.trans h.plan, h.now.trans hlater.now.le, fun hr => ?_⟩
  obtain ⟨hbefore, hlast⟩ := noReset_split h.plan h.now hlater.now.le hr
  obtain ⟨hmodet, hframet⟩ := h.kept hbefore
  obtain ⟨hmodeu, hframeu⟩ := fallback_step_keeps h.inv h.source (hmodet.trans hmode) hstep hlast
  exact ⟨hmodeu.trans hmodet, hframeu.trans hframet⟩

theorem runSteps_succ {n : Nat} {s t : State} (h : runSteps n s = .next t) : runSteps (n + 1) s = step t := by
  induction n generalizing s with
  | zero =>
    obtain rfl : s = t := Host.Outcome.next.inj h
    simp only [runSteps]
    split <;> simp_all
  | succ n ih =>
    cases hstep : step s with
    | next u =>
      have hrest : runSteps n u = .next t := by simpa [runSteps, hstep] using h
      rw [← ih hrest]
      simp [runSteps, hstep]
    | fault f => simp [runSteps, hstep] at h
    | refused r => simp [runSteps, hstep] at h

theorem runSteps_fallback {s : State} (hs : s.Inv) (hrom : s.source = .rom) (hmode : s.mode = .fallback) (n : Nat) :
    ∃ t, runSteps n s = .next t ∧ FallbackRun s t := by
  induction n with
  | zero => exact ⟨s, rfl, hrom, hs, rfl, le_rfl, fun _ => ⟨rfl, rfl⟩⟩
  | succ n ih =>
    obtain ⟨t, hrun, ht⟩ := ih
    obtain ⟨u, hstep, hu⟩ := ht.succ hmode
    exact ⟨u, (runSteps_succ hrun).trans hstep, hu⟩

/-- Settles O54: by induction on the steps (`runSteps_fallback`), FALLBACK lasts; in the ROM it is the addresses 7 to 9, and
HANDOFF, the operation of `tx_valid`, stands at 5. -/
theorem fallbackIsTerminal : Obligations.FallbackIsTerminal := by
  intro s n hs hrom hmode
  obtain ⟨t, hrun, ht⟩ := runSteps_fallback hs hrom hmode n
  refine ⟨t, hrun, fun hr => ?_⟩
  obtain ⟨hmodet, hframe⟩ := ht.kept hr
  have hfallback : t.mode = .fallback := hmodet.trans hmode
  have hupc : 7 ≤ t.upc.toNat := (ht.inv.modeOfAddress ht.source).mp hfallback
  have hvalid : ¬t.txValid = true := fun hv => by
    rw [(((txValidExactlyInHandoff t).2 ht.source).mp hv).2] at hupc
    exact absurd hupc (by decide)
  exact ⟨by simp [State.fallback, hfallback], hupc, ht.inv.upc, by simpa using hvalid, hframe⟩

end Sys2Proof.Machine
end

section
/-! SUPPORT. The operations of one cycle: TIMERON, WAITTICK's consume, CHECK (43_scheduler.md R172 to R174, 60_exceptions.md
R203, R209). -/

namespace Sys2Proof.Machine

theorem exec_of_oneCycle {i : Instr} {s : State} {m : Micro} (hms : cyclesOf i s = .next [m])
    (hr : s.input.rstN = true) : exec i s = .next (s.opStart.cycle m) := by
  rw [exec_eq, hms, performed, State.perform, runMicros_cons (s := s.opStart) hr, runMicros_nil]

theorem elapse_one {s : State} (hc : s.Calm 1) : s.opStart.elapse 1 = s.opStart.background false := by
  obtain ⟨hr, hg⟩ := calm_first hc
  have hrun : s.opStart.elapse 1 = s.opStart.cycle [] := runMicros_cons (s := s.opStart) hr
  rw [hrun, idle_cycle (s := s.opStart) hg]

/-- Where no pin is driven, no chain answers (R106, R107). -/
theorem edges_of_same_pins {old s : State} (hline : ∀ ch, s.line ch = old.line ch) (hlat : s.ledrLat = old.ledrLat) :
    State.edges old s = s := by
  have hswr : s.swrLine = old.swrLine := hline .swr
  have hledr : s.ledrLine = old.ledrLine := hline .ledr
  have hledc : s.ledcLine = old.ledcLine := hline .ledc
  apply State.ext <;> simp [hswr, hledr, hledc, hlat]

/-- The write drives no pin. -/
def Write.OffPins (w : Write) : Prop :=
  w.register ≠ some .lat ∧ ∀ ch, w.register ≠ some (.data ch) ∧ w.register ≠ some (.clk ch)

/-- A quiet cycle that drives no pin: its writes, on what the timer, the LED write port and the count leave. -/
theorem cycle_offPins {s : State} {m : Micro} (hm : ∀ w ∈ m, w.OffPins) (hg : s.input.glitch = Glitch.none) :
    s.cycle m = m.foldl (State.write s.input) (s.background (m.any Write.clears)) := by
  have same (r : Register) (hw : ∀ w ∈ m, w.register ≠ some r) :
      r.Same s (m.foldl (State.write s.input) (s.background (m.any Write.clears))) :=
    (background_same r s _).trans (foldl_write_same _ hw _)
  have hlat := same .lat fun w hw => (hm w hw).1
  have hline : ∀ ch, (m.foldl (State.write s.input) (s.background (m.any Write.clears))).line ch = s.line ch := fun ch =>
    line_eq_of_same (same (.data ch) fun w hw => ((hm w hw).2 ch).1) (same (.clk ch) fun w hw => ((hm w hw).2 ch).2)
  rw [State.cycle, edges_of_same_pins hline hlat, hg, disturb_none]

/-- An operation of one calm cycle that drives no pin. -/
theorem exec_offPins {i : Instr} {s : State} {m : Micro} (hms : cyclesOf i s = .next [m]) (hm : ∀ w ∈ m, w.OffPins)
    (hc : s.Calm 1) :
    exec i s = .next (m.foldl (State.write s.input) (s.opStart.background (m.any Write.clears))) := by
  obtain ⟨hr, hg⟩ := calm_first hc
  rw [exec_of_oneCycle hms hr, cycle_offPins (s := s.opStart) hm hg]
  rfl

/-- Where the sequencer clears the flag, an overflow alone sets it (R203). -/
theorem background_clear (s : State) : s.background true = { s.background false with tickFlag := s.ovf } := by
  apply State.ext <;> simp [tickNext]

/-- Settles O39: TIMERON's writes, in a cycle that clears the flag. -/
theorem timeronStartsTheTimer : Obligations.TimeronStartsTheTimer := by
  intro s hc
  have hclear : [Write.timerStart, .retire].any Write.clears = true := rfl
  rw [exec_offPins (m := [.timerStart, .retire]) rfl (by simp [Write.OffPins]) hc, hclear, background_clear,
    elapse_one hc]
  rfl

theorem cyclesOf_waittick_of_tick {s : State} (h : s.tickFlag = true) :
    cyclesOf .waittick s = .next [[.consume, .retire]] := by
  simp [cyclesOf, cyclesWaittick, h, whole, inLast]

/-- Settles O40: the consume writes nothing, but it clears the flag. -/
theorem waittickConsumesTheTick : Obligations.WaittickConsumesTheTick := by
  intro s hc htick
  have hclear : [Write.consume, .retire].any Write.clears = true := rfl
  rw [exec_offPins (cyclesOf_waittick_of_tick htick) (by simp [Write.OffPins]) hc, hclear, background_clear,
    elapse_one hc]
  rfl

/-- Settles O41: CHECK reads the flag as it was before its cycle, and writes `upc` alone. -/
theorem checkWithoutMissReturnsToTheLoop : Obligations.CheckWithoutMissReturnsToTheLoop := by
  intro s hc htick
  have hpass : cyclesOf .check s = .next [[.upc 2, .retireCheck]] := by simp [cyclesOf_check, htick]
  have hkeep : [Write.upc 2, .retireCheck].any Write.clears = false := rfl
  rw [exec_offPins hpass (by simp [Write.OffPins]) hc, hkeep, elapse_one hc]
  rfl

/-- Settles O42: the exception entry writes `mode` and `upc`, and CHECK does not clear the flag. -/
theorem checkWithTickTakesDeadlineMiss : Obligations.CheckWithTickTakesDeadlineMiss := by
  intro s hc htick
  have hmiss : cyclesOf .check s = .next [[.deadlineMiss, .retireCheck]] := by simp [cyclesOf_check, htick]
  have hkeep : [Write.deadlineMiss, .retireCheck].any Write.clears = false := rfl
  have hflag : (s.opStart.background false).tickFlag = true := by simp [tickNext, htick]
  rw [exec_offPins hmiss (by simp [Write.OffPins]) hc, hkeep, elapse_one hc, ← hflag]
  rfl

end Sys2Proof.Machine
end

section
/-! SUPPORT. The fallback animation: FBENTER, FBSTEP, and the walk of one LED across row 0 (43_scheduler.md R175, R176,
R178). -/

namespace Sys2Proof.Machine

/-! ## FBENTER -/

theorem ledc_allOnes_stage {c : Nat} (hc : c < 8) : (0xFF : Byte).getLsbD c = true := by
  have hall : ∀ c < 8, (0xFF : Byte).getLsbD c = true := by decide
  exact hall c hc

/-- With every column off, no LED is lit (R42). -/
theorem lit_of_columnsOff {s : State} (h : s.ledc = 0xFF) (r c : Nat) : s.lit r c = false := by
  by_cases hc : c < 8
  · have hoff : s.ledc.getLsbD c = true := h ▸ ledc_allOnes_stage hc
    simp [State.lit, hoff]
  · simp [State.lit, hc]

/-- Settles O43: the sequencer's part of FBENTER is `seqRun_fbEnterCycles`, and it leaves every column off. -/
theorem fbenterShowsTheFirstRow : Obligations.FbenterShowsTheFirstRow := by
  intro s hp hlow hc
  have hexec := exec_of_seqRun (i := .fbenter) rfl (fbEnterCycles_ne_nil _) (plain_fbEnterCycles _)
    (length_fbEnterCycles hp.tPhase_pos) hc (seqRun_fbEnterCycles _ s.opStart hlow _)
  refine ⟨_, hexec, ?next, lit_of_columnsOff (by simp [State.withClock])⟩
  case next =>
    rw [← withClock_elapse_opStart hc]
    rfl

/-! ## FBSTEP -/

theorem add_one_eq_forty_iff {cnt : BitVec 6} : cnt + 1 = 40 ↔ cnt = 39 := by
  revert cnt; decide

theorem cyclesOf_fbstep_count {s : State} (h : s.fbCnt ≠ 39) :
    cyclesOf .fbstep s = .next (whole [[.fbCnt (s.fbCnt + 1)]]) := by
  have hne : s.fbCnt + 1 ≠ 40 := fun h40 => h (add_one_eq_forty_iff.mp h40)
  simp only [cyclesOf, cyclesFbstep, fbStepCycles, if_neg hne]

/-- The cycles of a 40th FBSTEP: the count restarted and the position written in the first, then one bit clock (R176). -/
def fbShiftCycles (t : Nat) (pos : BitVec 3) (v : Bool) : List Micro :=
  [[.fbCnt 0, .fbPos pos]] ++ clockBit t .ledc v

theorem length_fbShiftCycles {t : Nat} (ht : 1 ≤ t) (pos : BitVec 3) (v : Bool) :
    (fbShiftCycles t pos v).length = 1 + 3 * t := by
  rw [fbShiftCycles, List.length_append, length_clockBit ht]
  rfl

theorem fbShiftCycles_ne_nil (t : Nat) (pos : BitVec 3) (v : Bool) : fbShiftCycles t pos v ≠ [] := List.cons_ne_nil _ _

theorem plain_fbShiftCycles (t : Nat) (pos : BitVec 3) (v : Bool) : ∀ m ∈ fbShiftCycles t pos v, Plain m :=
  plain_append (by simp [Plain, Write.clears]) (plain_clockBit _ _ _)

theorem seqRun_fbShiftCycles (t : Nat) (pos : BitVec 3) (v : Bool) (s : State) (n : Nat) :
    s.seqRun (fbShiftCycles t pos v) n =
      { s with fbCnt := 0, fbPos := pos, ledc := shiftIn s.ledc v, ledcLine := ⟨v, true⟩ } := by
  have hfirst : s.seqRun [[.fbCnt 0, .fbPos pos]] n = { s with fbCnt := 0, fbPos := pos } := by
    apply State.ext <;> simp [State.seqRun, State.seqCycle, State.write]
  rw [fbShiftCycles, seqRun_append, hfirst, seqRun_clockBit]
  rfl

/-- The bit is 0, which turns its column on, from position 0 only (R176). -/
theorem cyclesOf_fbstep_shift {s : State} (h : s.fbCnt = 39) :
    cyclesOf .fbstep s =
      .next (whole (fbShiftCycles s.params.tPhase (s.fbPos + 1) (decide (s.fbPos ≠ 0)))) := by
  have hbit : (if s.fbPos = 0 then Chain.ledc.active else Chain.ledc.inactive) = decide (s.fbPos ≠ 0) := by
    by_cases h0 : s.fbPos = 0
    · rw [if_pos h0, decide_eq_false (not_not.mpr h0)]
      rfl
    · rw [if_neg h0, decide_eq_true h0]
      rfl
  simp only [cyclesOf, cyclesFbstep, fbStepCycles, if_pos (add_one_eq_forty_iff.mpr h), hbit, fbShiftCycles]

theorem exec_fbstep_count {s : State} (hcnt : s.fbCnt ≠ 39) (hc : s.Calm 1) :
    exec .fbstep s = .next ({ s.opStart.elapse 1 with fbCnt := s.fbCnt + 1 }.retire) := by
  have hrun : s.opStart.seqRun [[.fbCnt (s.fbCnt + 1)]] s.now = { s.opStart with fbCnt := s.fbCnt + 1 } := by
    apply State.ext <;> simp [State.seqRun, State.seqCycle, State.write]
  rw [exec_of_seqRun (n := 1) (cyclesOf_fbstep_count hcnt) (List.cons_ne_nil _ _) (by simp [Plain, Write.clears]) rfl hc
    hrun, ← withClock_elapse_opStart hc]
  rfl

theorem exec_fbstep_shift {s : State} (hp : s.params.Legal) (hcnt : s.fbCnt = 39)
    (hc : s.Calm (1 + 3 * s.params.tPhase)) :
    exec .fbstep s =
      .next ({ s.opStart.elapse (1 + 3 * s.params.tPhase) with
                fbCnt := 0
                fbPos := s.fbPos + 1
                ledc := shiftIn s.ledc (decide (s.fbPos ≠ 0))
                ledcLine := ⟨decide (s.fbPos ≠ 0), true⟩ }.retire) := by
  rw [exec_of_seqRun (cyclesOf_fbstep_shift hcnt) (fbShiftCycles_ne_nil _ _ _) (plain_fbShiftCycles _ _ _)
    (length_fbShiftCycles hp.tPhase_pos _ _) hc (seqRun_fbShiftCycles _ _ _ _ _), ← withClock_elapse_opStart hc]
  rfl

/-- Settles O44: FBSTEP's two forms, told apart by the count. -/
theorem fbstepCountsAndShifts : Obligations.FbstepCountsAndShifts :=
  fun _ hp => ⟨exec_fbstep_count, exec_fbstep_shift hp⟩

/-! ## The walk -/

/-- How many clk cycles the first `n` FBSTEPs take. -/
def walkCycles (p : Params) (n : Nat) : Nat := n + 3 * p.tPhase * (n / 40)

theorem walkCycles_succ_count (p : Params) {n : Nat} (h : n % 40 ≠ 39) : walkCycles p (n + 1) = walkCycles p n + 1 := by
  simp only [walkCycles, show (n + 1) / 40 = n / 40 by omega]
  omega

theorem walkCycles_succ_shift (p : Params) {n : Nat} (h : n % 40 = 39) :
    walkCycles p (n + 1) = walkCycles p n + (1 + 3 * p.tPhase) := by
  simp only [walkCycles, show (n + 1) / 40 = n / 40 + 1 by omega, Nat.mul_succ]
  omega

/-- The column chain after the `m`-th shift of the walk: off in every column but the one that the last eight shifts have
turned on. -/
def ColumnsAfter (m : Nat) (ledc : Byte) : Prop := ∀ c < 8, ledc.getLsbD c = !decide (1 ≤ m ∧ c = (m - 1) % 8)

/-- One more shift, of the bit that position `m % 8` sends, moves the column that is on by one, from 7 to 0 (R176). -/
theorem ColumnsAfter.succ {m : Nat} {ledc : Byte} (h : ColumnsAfter m ledc) :
    ColumnsAfter (m + 1) (shiftIn ledc (decide (m % 8 ≠ 0))) := by
  intro c hc
  rw [shiftIn_stage]
  rcases c with _ | c
  · simp [eq_comm]
  · have hbelow := h c (by omega)
    have hmoved : (1 ≤ m ∧ c = (m - 1) % 8) ↔ (1 ≤ m + 1 ∧ c + 1 = (m + 1 - 1) % 8) := by omega
    simp [hc, hbelow, hmoved]

/-- `t` is `n` FBSTEPs after FBENTER's state `s`: each 40 of them have moved the position on and shifted one bit into the
column chain. -/
structure Walked (n : Nat) (s t : State) : Prop where
  later : Later (walkCycles s.params n) s t
  fbCnt : t.fbCnt.toNat = n % 40
  fbPos : t.fbPos.toNat = n / 40 % 8
  ledrOe : t.ledrOe = true
  ledrLatch : t.ledrLatch = 0b000001
  columns : ColumnsAfter (n / 40) t.ledc

/-- One more FBSTEP that only counts. -/
theorem Walked.count {n : Nat} {s t : State} (h : Walked n s t) (hn : n % 40 ≠ 39)
    (hc : s.Calm (walkCycles s.params (n + 1))) : ∃ u, exec .fbstep t = .next u ∧ Walked (n + 1) s u := by
  have hcnt : t.fbCnt ≠ 39 := fun h39 => by
    have hfb := h.fbCnt
    rw [h39] at hfb
    exact hn hfb.symm
  rw [walkCycles_succ_count _ hn] at hc
  have hcalm := h.later.calm hc
  have hexec := exec_fbstep_count hcnt hcalm
  have hlater : Later 1 t _ := exec_later (cyclesOf_fbstep_count hcnt) hcalm hexec
  have hquot : (n + 1) / 40 = n / 40 := by omega
  refine ⟨_, hexec, ?later, ?fbCnt, ?fbPos, ?ledrOe, ?ledrLatch, ?columns⟩
  case later => exact walkCycles_succ_count s.params hn ▸ h.later.trans hlater
  case fbCnt =>
    have hsum : (t.fbCnt + 1).toNat = (n + 1) % 40 := by
      have hfb := h.fbCnt
      bv_omega
    simpa only [retire_keeps] using hsum
  all_goals rw [elapse_eq (calm_congr (t := t.opStart) rfl rfl hcalm)]
  case fbPos => simpa [State.withClock, hquot] using h.fbPos
  case ledrOe => simpa [State.withClock] using h.ledrOe
  case ledrLatch => simpa [State.withClock] using h.ledrLatch
  case columns => simpa [State.withClock, hquot] using h.columns

/-- One more FBSTEP that is a 40th: the position goes on, and the columns move. -/
theorem Walked.shift {n : Nat} {s t : State} (h : Walked n s t) (hp : s.params.Legal) (hn : n % 40 = 39)
    (hc : s.Calm (walkCycles s.params (n + 1))) : ∃ u, exec .fbstep t = .next u ∧ Walked (n + 1) s u := by
  have hcnt : t.fbCnt = 39 := BitVec.eq_of_toNat_eq (h.fbCnt.trans hn)
  have hcycles : walkCycles s.params (n + 1) = walkCycles s.params n + (1 + 3 * t.params.tPhase) := by
    rw [walkCycles_succ_shift _ hn, h.later.params]
  rw [hcycles] at hc
  have hlegal := h.later.legal hp
  have hcalm := h.later.calm hc
  have hlen := (length_whole (fbShiftCycles_ne_nil t.params.tPhase (t.fbPos + 1) (decide (t.fbPos ≠ 0)))).trans
    (length_fbShiftCycles hlegal.tPhase_pos _ _)
  have hexec := exec_fbstep_shift hlegal hcnt hcalm
  have hlater := exec_later (cyclesOf_fbstep_shift hcnt) (hlen.symm ▸ hcalm) hexec
  rw [hlen] at hlater
  have hquot : (n + 1) / 40 = n / 40 + 1 := by omega
  have hbit : decide (t.fbPos ≠ 0) = decide (n / 40 % 8 ≠ 0) := by
    rw [← h.fbPos]
    exact decide_eq_decide.mpr (not_congr BitVec.toNat_eq)
  refine ⟨_, hexec, ?later, ?fbCnt, ?fbPos, ?ledrOe, ?ledrLatch, ?columns⟩
  case later => exact hcycles ▸ h.later.trans hlater
  case fbCnt =>
    have hzero : (n + 1) % 40 = 0 := by omega
    simp [hzero]
  case fbPos =>
    have hsum : (t.fbPos + 1).toNat = (n / 40 + 1) % 8 := by
      have hfb := h.fbPos
      bv_omega
    simpa only [retire_keeps, hquot] using hsum
  all_goals rw [elapse_eq (calm_congr (t := t.opStart) rfl rfl hcalm)]
  case ledrOe => simpa [State.withClock] using h.ledrOe
  case ledrLatch => simpa [State.withClock] using h.ledrLatch
  case columns => simpa only [retire_keeps, hbit, hquot] using h.columns.succ

theorem execAll_walk {s : State} (hp : s.params.Legal) (h0 : Walked 0 s s) {n : Nat}
    (hc : s.Calm (walkCycles s.params n)) :
    ∃ t, execAll (List.replicate n .fbstep) s = .next t ∧ Walked n s t := by
  induction n with
  | zero => exact ⟨s, rfl, h0⟩
  | succ n ih =>
    have hle : walkCycles s.params n ≤ walkCycles s.params (n + 1) :=
      Nat.add_le_add n.le_succ (Nat.mul_le_mul_left _ (Nat.div_le_div_right n.le_succ))
    obtain ⟨t, hrun, ht⟩ := ih (calm_mono hc hle)
    have hnext : ∃ u, exec .fbstep t = .next u ∧ Walked (n + 1) s u := by
      by_cases hn : n % 40 = 39
      · exact ht.shift hp hn hc
      · exact ht.count hn hc
    obtain ⟨u, hexec, hu⟩ := hnext
    refine ⟨u, ?_, hu⟩
    rw [List.replicate_succ', execAll_append hrun, execAll_cons hexec]
    rfl

/-- The rows are enabled and the latch holds row 0, so the columns say which LEDs are lit (R42). -/
theorem Walked.lit {n : Nat} {s t : State} (h : Walked n s t) (r c : Nat) :
    t.lit r c = (decide (r = 0) && decide (1 ≤ n / 40 ∧ c = (n / 40 - 1) % 8)) := by
  by_cases hr : r = 0
  · by_cases hc : c < 8
    · simp only [State.lit, h.ledrOe, h.ledrLatch, h.columns c hc, hr, hc, decide_true, Bool.not_not]
      rfl
    · have hout : ¬(1 ≤ n / 40 ∧ c = (n / 40 - 1) % 8) := by omega
      simp [State.lit, hc, hout]
  · have hrow : (0b000001#6).getLsbD r = decide (r = 0) := row_stage (q := 0) (by decide) r
    simp [State.lit, h.ledrLatch, hrow, hr]

/-- Settles O45: by induction on the FBSTEPs (`execAll_walk`), and the columns that the walk leaves say which LED is lit. -/
theorem fallbackWalksOneLed : Obligations.FallbackWalksOneLed := by
  intro s n hp hc hcnt hpos hledc hoe hlatch
  have hstart : ColumnsAfter 0 s.ledc := fun c hcol => by
    rw [hledc, ledc_allOnes_stage hcol]
    rfl
  obtain ⟨t, hrun, ht⟩ := execAll_walk hp ⟨⟨rfl, rfl, rfl⟩, by simp [hcnt], by simp [hpos], hoe, hlatch, hstart⟩ hc
  refine ⟨t, hrun, fun hfew r c => ?dark, fun hmany r c => ?walks, ht.fbCnt, ht.fbPos⟩
  case dark =>
    have hnone : n / 40 = 0 := Nat.div_eq_of_lt hfew
    simp [ht.lit, hnone]
  case walks =>
    have hsome : 1 ≤ n / 40 := by omega
    simp [ht.lit, hsome]

end Sys2Proof.Machine
end

section
/-! SUPPORT. The timer and the tick flag (60_exceptions.md R200 to R203): what one cycle makes of them, and where the timer
is `n` cycles after TIMERON's. -/

namespace Sys2Proof.Machine

/-! ## One cycle -/

/-- TIMERON's is the only write of the sequencer that reaches the timer (R204). -/
theorem write_keeps_timer (inp : Input) (s : State) {w : Write} (h : w ≠ .timerStart) :
    (s.write inp w).timerEn = s.timerEn ∧ (s.write inp w).preCnt = s.preCnt ∧ (s.write inp w).tmrCnt = s.tmrCnt := by
  cases w with
  | timerStart => exact absurd rfl h
  | _ => simp [State.write]

theorem foldl_write_keeps_timer (inp : Input) {m : Micro} (h : Write.timerStart ∉ m) (s : State) :
    (m.foldl (State.write inp) s).timerEn = s.timerEn ∧ (m.foldl (State.write inp) s).preCnt = s.preCnt ∧
      (m.foldl (State.write inp) s).tmrCnt = s.tmrCnt := by
  induction m generalizing s with
  | nil => simp
  | cons w m ih =>
    obtain ⟨hw, hm⟩ := not_or.mp (List.mem_cons.not.mp h)
    obtain ⟨hen, hpre, htmr⟩ := ih hm (s.write inp w)
    obtain ⟨ken, kpre, ktmr⟩ := write_keeps_timer inp s (Ne.symm hw)
    exact ⟨hen.trans ken, hpre.trans kpre, htmr.trans ktmr⟩

/-- In a cycle without TIMERON the timer counts by itself, whatever else the sequencer writes. -/
theorem cycle_timer {m : Micro} (h : Write.timerStart ∉ m) (s : State) :
    (s.cycle m).timerEn = s.timerEn ∧ (s.cycle m).preCnt = s.nextPre ∧ (s.cycle m).tmrCnt = s.nextTmr := by
  simp [State.cycle, foldl_write_keeps_timer s.input h]

/-- Whatever the sequencer writes in a cycle, the flag after it is as R203 says. -/
theorem cycle_tickFlag (s : State) (m : Micro) :
    (s.cycle m).tickFlag = tickNext s.tickFlag s.ovf (m.any Write.clears) := by
  simp [State.cycle, foldl_write_keeps]

theorem tstep_iff (s : State) : s.tstep = true ↔ s.timerEn = true ∧ s.preCnt = s.params.prescaler - 1 := by
  simp [State.tstep]

theorem ovf_iff (s : State) :
    s.ovf = true ↔ s.timerEn = true ∧ s.preCnt = s.params.prescaler - 1 ∧ s.tmrCnt = s.params.top := by
  simp [State.ovf, tstep_iff, and_assoc]

/-- In its range the prescaler counts without wrapping in its width (R25, R200). -/
theorem nextPre_eq {s : State} (h : s.preCnt < s.params.prescaler) :
    s.nextPre =
      if s.timerEn then (if s.preCnt = s.params.prescaler - 1 then 0 else s.preCnt + 1) else s.preCnt := by
  have hwidth : s.params.prescaler - 1 < 2 ^ preWidth s.params := Nat.lt_log2_self
  cases hen : s.timerEn with
  | false => simp [State.nextPre, hen]
  | true =>
    by_cases hlast : s.preCnt = s.params.prescaler - 1
    · simp [State.nextPre, State.tstep, hen, hlast]
    · have hfits : (s.preCnt + 1) % 2 ^ preWidth s.params = s.preCnt + 1 := Nat.mod_eq_of_lt (by omega)
      simp [State.nextPre, State.tstep, hen, hlast, hfits]

/-- In its range the counter counts without wrapping in `TIMER_WIDTH` bits (R201). -/
theorem nextTmr_eq {s : State} (hp : s.params.Legal) (h : s.tmrCnt ≤ s.params.top) :
    s.nextTmr =
      if s.timerEn = true ∧ s.preCnt = s.params.prescaler - 1 then
        (if s.tmrCnt = s.params.top then 0 else s.tmrCnt + 1) else s.tmrCnt := by
  have hwidth := hp.top_fits
  cases hstep : s.tstep with
  | false => simp [State.nextTmr, ← tstep_iff, hstep]
  | true =>
    by_cases htop : s.tmrCnt = s.params.top
    · simp [State.nextTmr, State.ovf, ← tstep_iff, hstep, htop]
    · have hfits : (s.tmrCnt + 1) % 2 ^ s.params.timerWidth = s.tmrCnt + 1 := Nat.mod_eq_of_lt (by omega)
      simp [State.nextTmr, State.ovf, ← tstep_iff, hstep, htop, hfits]

/-- Settles O46: a cycle without TIMERON leaves the counting to the timer (`cycle_timer`), and in their ranges the counters do
not wrap in their widths. -/
theorem timerCountsPrescalerAndTop : Obligations.TimerCountsPrescalerAndTop := by
  intro s m hp hpre htmr hm
  obtain ⟨-, hpreCnt, htmrCnt⟩ := cycle_timer hm s
  exact ⟨hpreCnt.trans (nextPre_eq hpre), htmrCnt.trans (nextTmr_eq hp htmr), fun _ => ovf_iff s,
    htmrCnt.trans_le (nextTmr_le htmr)⟩

/-- Settles O47: no write of the sequencer touches the flag but through `clr` (`cycle_tickFlag`), and the two operations that
name a clear have one cycle each. -/
theorem tickFlagSetWins : Obligations.TickFlagSetWins := by
  refine ⟨cycle_tickFlag, fun i s ms m hms hm => ⟨fun hclears => ?names, fun hi => ?clears⟩⟩
  case names =>
    by_contra hi
    obtain ⟨hnotTimeron, hnotConsume⟩ := not_or.mp hi
    have hplain : m.any Write.clears = false := plain_cyclesOf hms hnotTimeron hnotConsume m hm
    exact absurd (hclears.symm.trans hplain) (by decide)
  case clears =>
    rcases hi with rfl | ⟨rfl, htick⟩
    · cases hms
      rw [List.mem_singleton.mp hm]
      rfl
    · rw [cyclesOf_waittick_of_tick htick] at hms
      cases hms
      rw [List.mem_singleton.mp hm]
      rfl

/-! ## Counting modulo a number -/

theorem dvd_add_one_iff_mod {p : Nat} (hp : 0 < p) (n : Nat) : p ∣ n + 1 ↔ n % p = p - 1 := by
  obtain ⟨q, rfl⟩ := Nat.exists_eq_succ_of_ne_zero hp.ne'
  exact Nat.dvd_iff_mod_eq_zero.trans Nat.succ_mod_succ_eq_zero_iff

theorem add_one_mod_eq_ite {p : Nat} (hp : 0 < p) (n : Nat) :
    (n + 1) % p = if n % p = p - 1 then 0 else n % p + 1 := by
  split
  · next hlast => exact Nat.mod_eq_zero_of_dvd ((dvd_add_one_iff_mod hp n).mpr hlast)
  · next hlast =>
    have hlt := Nat.mod_lt n hp
    rw [← Nat.mod_add_mod, Nat.mod_eq_of_lt (by omega)]

theorem add_one_div_eq_ite {p : Nat} (hp : 0 < p) (n : Nat) :
    (n + 1) / p = if n % p = p - 1 then n / p + 1 else n / p := by
  simp only [Nat.succ_div, dvd_add_one_iff_mod hp]
  split <;> rfl

/-- A two-digit counter is at its last value exactly before each multiple of the product of its bases. -/
theorem mul_dvd_add_one_iff {p q : Nat} (hp : 0 < p) (hq : 0 < q) (n : Nat) :
    p * q ∣ n + 1 ↔ n % p = p - 1 ∧ n / p % q = q - 1 := by
  rw [← dvd_add_one_iff_mod hp, ← dvd_add_one_iff_mod hq]
  constructor
  · intro h
    have hdvd : p ∣ n + 1 := dvd_of_mul_right_dvd h
    rw [← Nat.succ_div_of_dvd hdvd]
    exact ⟨hdvd, (Nat.dvd_div_iff_mul_dvd hdvd).mpr h⟩
  · rintro ⟨hdvd, h⟩
    rw [← Nat.succ_div_of_dvd hdvd] at h
    exact (Nat.dvd_div_iff_mul_dvd hdvd).mp h

/-! ## The timer after TIMERON -/

/-- The timer of `t` is where TIMERON and `n` cycles after it bring it: `n` written in the prescaler and the counter. -/
structure TimerAt (p : Params) (n : Nat) (t : State) : Prop where
  params : t.params = p
  timerEn : t.timerEn = true
  preCnt : t.preCnt = n % p.prescaler
  tmrCnt : t.tmrCnt = n / p.prescaler % (p.top + 1)

theorem timerAt_timeron (s : State) : TimerAt s.params 0 (s.cycle [.timerStart, .retire]) := by
  constructor <;> simp [State.cycle, State.write]

/-- The overflow comes in the cycles whose number, from TIMERON's as 0, is a multiple of the period (R202). -/
theorem TimerAt.ovf_iff {p : Params} (hp : p.Legal) {n : Nat} {t : State} (h : TimerAt p n t) :
    t.ovf = true ↔ p.prescaler * (p.top + 1) ∣ n + 1 := by
  rw [Machine.ovf_iff, h.params, h.timerEn, h.preCnt, h.tmrCnt, mul_dvd_add_one_iff hp.prescaler_pos p.top.succ_pos]
  simp

theorem TimerAt.cycle {p : Params} (hp : p.Legal) {n : Nat} {t : State} (h : TimerAt p n t) {m : Micro}
    (hm : Write.timerStart ∉ m) : TimerAt p (n + 1) (t.cycle m) := by
  obtain ⟨rfl, hen, hpre, htmr⟩ := h
  have hpreRange : t.preCnt < t.params.prescaler := hpre ▸ Nat.mod_lt n hp.prescaler_pos
  have htmrRange : t.tmrCnt ≤ t.params.top := htmr ▸ Nat.le_of_lt_succ (Nat.mod_lt _ t.params.top.succ_pos)
  obtain ⟨hpreCnt, htmrCnt, -, -⟩ := timerCountsPrescalerAndTop t m hp hpreRange htmrRange hm
  refine ⟨(cycle_keeps t m).1, (cycle_timer hm t).1.trans hen, ?preCnt, ?tmrCnt⟩
  case preCnt => rw [hpreCnt, if_pos hen, add_one_mod_eq_ite hp.prescaler_pos, hpre]
  case tmrCnt =>
    rw [htmrCnt, add_one_div_eq_ite hp.prescaler_pos, hpre]
    simp only [hen, true_and]
    split
    · rw [add_one_mod_eq_ite t.params.top.add_one_pos, htmr, Nat.add_sub_cancel]
    · exact htmr

theorem TimerAt.cycles {p : Params} (hp : p.Legal) {ms : List Micro} (hms : ∀ m ∈ ms, Write.timerStart ∉ m) {n : Nat}
    {t : State} (h : TimerAt p n t) : TimerAt p (n + ms.length) (t.cycles ms) := by
  induction ms generalizing n t with
  | nil => exact h
  | cons m ms ih =>
    have hrest := ih (fun m' hm => hms m' (by simp [hm])) (h.cycle hp (hms m (by simp)))
    rwa [Nat.add_assoc, Nat.add_comm 1] at hrest

/-! ## A run without a reset -/

theorem noReset_cycle {s : State} {n : Nat} (h : s.NoReset (n + 1)) (m : Micro) : (s.cycle m).NoReset n := by
  obtain ⟨-, -, hplan, hnow⟩ := cycle_keeps s m
  intro k hk
  rw [inputAt_congr hplan, hnow, Nat.add_right_comm]
  exact h (k + 1) (by omega)

theorem runMicros_of_noReset {s : State} {ms : List Micro} (h : s.NoReset ms.length) : s.runMicros ms = s.cycles ms := by
  rcases runMicros_cases s ms with hall | ⟨k, hk, hrst, -⟩
  · exact hall
  · have hone : (s.inputAt (s.now + k)).rstN = true := h k hk
    exact absurd (hrst.symm.trans hone) (by decide)

/-- The source's formula for the period in seconds (R9, R202). -/
theorem tickSeconds_eq (p : Params) : p.tickSeconds = (p.prescaler : ℚ) / (p.fClk : ℚ) * ((p.top : ℚ) + 1) := by
  rw [Params.tickSeconds, Params.tickPeriod, div_mul_eq_mul_div]
  push_cast
  rfl

/-- Settles O48: TIMERON brings the timer to 0, each cycle after it counts one (`TimerAt.cycles`), and a timer at `n`
overflows where `n + 1` is a multiple of the period. -/
theorem timerOverflowsEveryPeriod : Obligations.TimerOverflowsEveryPeriod := by
  refine ⟨fun s ms hp hms hr => ?overflows, tickSeconds_eq⟩
  case overflows =>
    have hafter : (s.opStart.cycle [.timerStart, .retire]).NoReset (ms.length + 1) := noReset_cycle (s := s.opStart) hr _
    refine ⟨_, exec_of_oneCycle (m := [.timerStart, .retire]) rfl (hr 0 (by omega)), ?_⟩
    rw [runMicros_of_noReset fun k hk => hafter k (by omega)]
    have htimer := (timerAt_timeron s.opStart).cycles hp hms
    rw [Nat.zero_add] at htimer
    exact htimer.ovf_iff hp

end Sys2Proof.Machine
end

section
/-! SUPPORT. The two levels of the machine (70_reset_and_hazards.md R244): an operation run to its end, and the same
operation one clk cycle after another with the cycles left of it in the micro-state. -/

namespace Sys2Proof.Machine

/-- `s` with the cycles `ms` left of an operation in progress (R35). -/
def State.inProgress (s : State) (ms : List Micro) : State := { s with pending := ms }

theorem inProgress_of_pending {s : State} {ms : List Micro} (h : s.pending = ms) : s.inProgress ms = s := by
  subst h
  rfl

/-! ## The micro-state steers no cycle -/

theorem write_inProgress (inp : Input) (s : State) (ms : List Micro) (w : Write) :
    (s.inProgress ms).write inp w = (s.write inp w).inProgress ms := by
  cases w with
  | data ch v => cases ch <;> rfl
  | clk ch v => cases ch <;> rfl
  | capture row => simp only [State.write, State.memWrite, State.inProgress]; split <;> rfl
  | header => simp only [State.write, State.memWrite, State.inProgress]; split <;> rfl
  | retire => simp only [State.write, State.retire, State.inProgress]; split <;> rfl
  | _ => rfl

theorem foldl_write_inProgress (inp : Input) (m : Micro) (s : State) (ms : List Micro) :
    m.foldl (State.write inp) (s.inProgress ms) = (m.foldl (State.write inp) s).inProgress ms := by
  induction m generalizing s with
  | nil => rfl
  | cons w m ih => rw [List.foldl_cons, write_inProgress, ih, List.foldl_cons]

theorem ledPort_leds_inProgress (inp : Input) (s : State) (ms : List Micro) :
    ((s.inProgress ms).ledPort inp).leds = (s.ledPort inp).leds := by
  cases hen : inp.ledWrEn with
  | false => rw [ledPort_of_noStrobe hen, ledPort_of_noStrobe hen]; rfl
  | true =>
    rw [ledPort_of_strobe hen, ledPort_of_strobe hen]
    simp only [State.memWrite]
    split <;> rfl

theorem background_inProgress (s : State) (ms : List Micro) (clr : Bool) :
    (s.inProgress ms).background clr = (s.background clr).inProgress ms := by
  apply State.ext
  case leds =>
    obtain ⟨-, -, -, -, hleds⟩ := background_sets s clr
    obtain ⟨-, -, -, -, hleds'⟩ := background_sets (s.inProgress ms) clr
    calc ((s.inProgress ms).background clr).leds = ((s.inProgress ms).ledPort s.input).leds := hleds'
      _ = (s.ledPort s.input).leds := ledPort_leds_inProgress s.input s ms
      _ = (s.background clr).leds := hleds.symm
  all_goals rfl

theorem cycle_inProgress (s : State) (ms : List Micro) (m : Micro) :
    (s.inProgress ms).cycle m = (s.cycle m).inProgress ms := by
  have hedges (old x : State) :
      State.edges (old.inProgress ms) (x.inProgress ms) = (State.edges old x).inProgress ms := by
    apply State.ext <;> simp [State.inProgress]
  rw [State.cycle, background_inProgress, foldl_write_inProgress, hedges]
  rfl

/-- A reset cycle forgets the operation in progress (R230). -/
theorem resetCycle_inProgress (s : State) (ms : List Micro) : (s.inProgress ms).resetCycle = s.resetCycle := by
  rw [resetCycle_eq, resetCycle_eq]
  rfl

/-! ## One cycle of an operation in progress -/

theorem cycleStep_of_reset {s : State} (h : s.input.rstN = false) : cycleStep s = .next s.resetCycle := by
  simp [cycleStep, h]

theorem cycleStep_inProgress {s : State} (h : s.input.rstN = true) (m : Micro) (ms : List Micro) :
    cycleStep (s.inProgress (m :: ms)) = .next ((s.cycle m).inProgress ms) := by
  rw [← cycle_inProgress]
  exact if_pos h

/-- The first cycle of an operation is that of an operation in progress with all its cycles left. -/
theorem cycleStep_of_start {s : State} {i : Instr} {ms : List Micro} (hr : s.input.rstN = true)
    (hstart : s.pending = []) (hop : s.currentOp = some i) (hms : cyclesOf i s = .next ms) :
    cycleStep s = cycleStep (s.inProgress ms) := by
  obtain ⟨m, ms, rfl⟩ := List.exists_cons_of_ne_nil (cyclesOf_ne_nil hms)
  rw [cycleStep_inProgress hr, ← cycle_inProgress]
  unfold State.currentOp at hop
  split at hop
  · cases hop
  · next w hw =>
    split at hop
    · next j hj =>
      cases hop
      simp [cycleStep, hr, hstart, hw, hj, hms, State.oneCycle, State.inProgress]
    · cases hop

/-! ## An operation in progress, to its end -/

theorem runCycles_cons {n : Nat} {s t : State} (h : cycleStep s = .next t) : runCycles (n + 1) s = runCycles n t := by
  simp [runCycles, h]

theorem runCycles_congr {n : Nat} {s s' : State} (h : cycleStep s = cycleStep s') :
    runCycles (n + 1) s = runCycles (n + 1) s' := by
  simp [runCycles, h]

/-- The cycles left of an operation, one clk cycle after another, up to its end or to the first with `rst_n = 0`. -/
theorem runCycles_inProgress (ms : List Micro) {s : State} (hstart : s.pending = []) :
    ∃ k, (s.runMicros ms).now = s.now + k ∧ runCycles k (s.inProgress ms) = .next (s.runMicros ms) := by
  induction ms generalizing s with
  | nil => exact ⟨0, rfl, congrArg Host.Outcome.next (inProgress_of_pending hstart)⟩
  | cons m ms ih =>
    cases hr : s.input.rstN with
    | false =>
      rw [runMicros_reset hr]
      refine ⟨1, (resetCycle_keeps s).2.2.2, ?_⟩
      rw [runCycles_cons (cycleStep_of_reset (s := s.inProgress (m :: ms)) hr), resetCycle_inProgress]
      rfl
    | true =>
      obtain ⟨-, hpending, -, hnow⟩ := cycle_keeps s m
      obtain ⟨k, hk, hrun⟩ := ih (s := s.cycle m) (hpending.trans hstart)
      rw [runMicros_cons hr]
      refine ⟨k + 1, by omega, ?_⟩
      rw [runCycles_cons (cycleStep_inProgress hr m ms), hrun]

theorem runCycles_perform (s : State) {ms : List Micro} (hne : ms ≠ []) :
    ∃ k, (s.perform ms).now = s.now + (k + 1) ∧ runCycles (k + 1) (s.inProgress ms) = .next (s.perform ms) := by
  obtain ⟨k, hnow, hrun⟩ := runCycles_inProgress ms (s := s.opStart) rfl
  have hlt : s.now < (s.perform ms).now := runMicros_now_lt s.opStart hne
  have hnow' : (s.perform ms).now = s.now + k := hnow
  obtain ⟨k, rfl⟩ : ∃ j, k = j + 1 := ⟨k - 1, by omega⟩
  exact ⟨k, hnow, hrun⟩

/-- Settles O59: a step is a reset cycle, the rest of an operation in progress, or an operation from its start, whose
first cycle sets the micro-state up; the last two are runs of cycles of an operation in progress (`runCycles_perform`). -/
theorem operationLevelAgreesWithCycleLevel : Obligations.OperationLevelAgreesWithCycleLevel := by
  intro s t h
  cases hr : s.input.rstN with
  | false =>
    obtain rfl : s.resetCycle = t := Host.Outcome.next.inj ((step_of_reset hr).symm.trans h)
    exact ⟨1, le_rfl, (resetCycle_keeps s).2.2.2, runCycles_cons (cycleStep_of_reset hr)⟩
  | true =>
    cases hpending : s.pending with
    | cons m ms =>
      obtain rfl : s.perform (m :: ms) = t := by simpa [step, hr, hpending] using h
      obtain ⟨k, hnow, hrun⟩ := runCycles_perform s (List.cons_ne_nil m ms)
      rw [inProgress_of_pending hpending] at hrun
      exact ⟨k + 1, k.succ_pos, hnow, hrun⟩
    | nil =>
      cases hop : s.currentOp with
      | none => exact absurd h (step_ne_next_of_noOp hr hpending hop t)
      | some i =>
        rw [step_eq_exec hr hpending hop] at h
        obtain ⟨ms, hms, rfl⟩ := exec_next_iff.mp h
        obtain ⟨k, hnow, hrun⟩ := runCycles_perform s (cyclesOf_ne_nil hms)
        exact ⟨k + 1, k.succ_pos, hnow, (runCycles_congr (cycleStep_of_start hr hpending hop hms)).trans hrun⟩

end Sys2Proof.Machine
end

section
/-! SUPPORT. Reset in the middle of an operation (70_reset_and_hazards.md R230), and the startup from reset to the loop
(R232). -/

namespace Sys2Proof.Machine

/-! ## Reset in the middle of an operation -/

/-- A run ends in the first cycle with `rst_n = 0` (R230). -/
theorem runMicros_of_reset_at {ms : List Micro} {k : Nat} (hk : k < ms.length) {s : State} (hr : s.NoReset k)
    (hrst : (s.inputAt (s.now + k)).rstN = false) : s.runMicros ms = (s.cycles (ms.take k)).resetCycle := by
  induction ms generalizing s k with
  | nil => exact absurd hk (Nat.not_lt_zero k)
  | cons m ms ih =>
    cases k with
    | zero => exact runMicros_reset hrst
    | succ k =>
      obtain ⟨-, -, hplan, hnow⟩ := cycle_keeps s m
      have hrst' : ((s.cycle m).inputAt ((s.cycle m).now + k)).rstN = false := by
        rwa [inputAt_congr hplan, hnow, Nat.add_right_comm]
      rw [runMicros_cons (hr 0 k.succ_pos), ih (Nat.lt_of_succ_lt_succ hk) (noReset_cycle hr m) hrst']
      rfl

/-- Settles O2: the operation ends in that cycle (`runMicros_of_reset_at`), which is a reset cycle. -/
theorem resetAbortsEveryOperation : Obligations.ResetAbortsEveryOperation := by
  intro i s ms k hms hk hr hrst
  have hrun : s.perform ms = (s.opStart.cycles (ms.take k)).resetCycle :=
    runMicros_of_reset_at (s := s.opStart) hk hr hrst
  have hlen : (ms.take k).length = k := List.length_take_of_le hk.le
  obtain ⟨hparams, -, hplan, hnow⟩ := cycles_keeps s.opStart (ms.take k)
  obtain ⟨kparams, -, kplan, know⟩ := resetCycle_keeps (s.opStart.cycles (ms.take k))
  refine ⟨_, exec_next_iff.mpr ⟨ms, hms, hrun.symm⟩, blockAtReset_resetCycle _, kparams.trans hparams,
    kplan.trans hplan, ?_⟩
  rw [know, hnow, hlen]
  rfl

/-! ## The startup -/

/-- What RINGRST leaves in the block and on the chains (R122). -/
def State.ringsSeeded (s : State) : State :=
  { s with
    swr := 0xFFFE, ledr := 0b000001, ledc := 0xFF, swrLine := ⟨true, true⟩, ledrLine := ⟨false, true⟩,
    ledcLine := ⟨true, true⟩, ledrOe := false, curRow := 0 }

/-- What TIMERON leaves in the timer where it was off (R172). -/
def State.timerStarted (s : State) : State :=
  { s with timerEn := true, preCnt := 0, tmrCnt := 0, tickFlag := false }

theorem retire_of_rom {s : State} {a b : BitVec 4} (hrom : s.source = .rom) (hupc : s.upc = a) (hnext : romNext a = b) :
    s.retire = { s with upc := b } := by
  simp [State.retire, hrom, hupc, hnext]

/-- The first step after reset is RINGRST (R170, R122). -/
theorem step_ringrst_of_blockAtReset {s : State} (hp : s.params.Legal) (hs : s.BlockAtReset)
    (hc : s.Calm (3 + 150 * s.params.tPhase)) :
    step s = .next { (s.withClock (s.elapse (3 + 150 * s.params.tPhase))).ringsSeeded with upc := 1 } := by
  have hop : s.currentOp = some .ringrst := by rw [currentOp_of_rom hs.rom, hs.upc]; rfl
  have hstart : s.opStart = s := inProgress_of_pending hs.microState
  calc step s = exec .ringrst s := step_eq_exec (hc 0 (by omega)).1 hs.microState hop
    _ = .next (s.elapse (3 + 150 * s.params.tPhase)).ringsSeeded.retire := hstart ▸ ringrstSeedsBothRings s hp hc
    _ = .next (s.withClock (s.elapse (3 + 150 * s.params.tPhase))).ringsSeeded.retire := by rw [← elapse_eq hc]
    _ = _ := congrArg Host.Outcome.next
      (retire_of_rom (s := (s.withClock _).ringsSeeded) (a := 0) hs.rom hs.upc rfl)

/-- The second is TIMERON; with the timer off, no overflow comes in its cycle (R170, R172). -/
theorem step_timeron_of_timerOff {s : State} (hrom : s.source = .rom) (hupc : s.upc = 1) (hpending : s.pending = [])
    (hoff : s.timerEn = false) (hc : s.Calm 1) :
    step s = .next { (s.withClock (s.elapse 1)).timerStarted with upc := 2 } := by
  have hop : s.currentOp = some .timeron := by rw [currentOp_of_rom hrom, hupc]; rfl
  have hstart : s.opStart = s := inProgress_of_pending hpending
  have hovf : s.ovf = false := by simp [State.ovf, State.tstep, hoff]
  have hexec := timeronStartsTheTimer s hc
  rw [hovf, hstart] at hexec
  calc step s = exec .timeron s := step_eq_exec (calm_first hc).1 hpending hop
    _ = .next (s.elapse 1).timerStarted.retire := hexec
    _ = .next (s.withClock (s.elapse 1)).timerStarted.retire := by rw [← elapse_eq hc]
    _ = _ := congrArg Host.Outcome.next (retire_of_rom (s := (s.withClock _).timerStarted) (a := 1) hrom hupc rfl)

/-- LEDS keeps its bytes in calm cycles in which the port is not strobed (R62, R69). -/
theorem leds_withClock_elapse {s : State} {n : Nat} (hc : s.Calm n) (hport : s.NoLedWrite n) (a : Nat) :
    (s.withClock (s.elapse n)).memRead .leds a = s.memRead .leds a := by
  rw [← elapse_eq hc]
  exact (idleCyclesChangeOnlyTimerAndPort s n hc).2.1 hport a

theorem Later.noLedWrite {n m : Nat} {s t : State} (h : Later n s t) (hport : s.NoLedWrite (n + m)) :
    t.NoLedWrite m := fun k hk => by
  rw [inputAt_congr h.plan, h.now, Nat.add_assoc]
  exact hport (n + k) (by omega)

/-- Settles O3: RINGRST, then TIMERON; the registers that neither writes are still at reset. -/
theorem startupReachesTheLoop : Obligations.StartupReachesTheLoop := by
  intro s hp hs hc hport
  have hsplit : 4 + 150 * s.params.tPhase = (3 + 150 * s.params.tPhase) + 1 := by omega
  rw [hsplit] at hc hport
  have hc1 : s.Calm (3 + 150 * s.params.tPhase) := calm_mono hc (Nat.le_succ _)
  have hfirst := step_ringrst_of_blockAtReset hp hs hc1
  have hnow1 := elapse_now hc1
  have hleds1 := leds_withClock_elapse hc1 fun k hk => hport k (by omega)
  generalize s.elapse (3 + 150 * s.params.tPhase) = c1 at hfirst hnow1 hleds1
  have hlater : Later (3 + 150 * s.params.tPhase) s { (s.withClock c1).ringsSeeded with upc := 1 } :=
    ⟨rfl, rfl, hnow1⟩
  have hc2 := hlater.calm hc
  have hsecond := step_timeron_of_timerOff (s := { (s.withClock c1).ringsSeeded with upc := 1 }) hs.rom rfl
    hs.microState hs.timerEn hc2
  have hnow2 := elapse_now hc2
  have hleds2 := leds_withClock_elapse hc2 (hlater.noLedWrite hport)
  generalize State.elapse _ 1 = c2 at hsecond hnow2 hleds2
  have hone := (runSteps_succ (n := 0) (s := s) rfl).trans hfirst
  have hrun := (runSteps_succ hone).trans hsecond
  refine ⟨_, hrun, rfl, ?now, rfl, rfl, rfl, rfl, rfl, fun r c => ?dark, rfl, hs.mode, rfl, rfl, rfl, rfl, hs.fbCnt,
    hs.fbPos, hs.frameAddress, hs.frameRows, fun i hi => ?leds⟩
  case now => exact hnow2.trans (by rw [hlater.now]; omega)
  case dark => simp [State.lit, State.timerStarted, State.withClock, State.ringsSeeded]
  case leds => exact (hleds2 i).trans ((hleds1 i).trans (hs.ledState i hi))

end Sys2Proof.Machine
end

section
/-! SUPPORT. The order of events inside REFRESH (70_reset_and_hazards.md R237). -/

namespace Sys2Proof.Machine

/-! ## What a part of an operation does not write, it keeps -/

theorem seqCycle_same (inp : Input) {m : Micro} {r : Register} (h : ∀ w ∈ m, w.register ≠ some r) (s : State) :
    r.Same s (State.seqCycle inp s m) := by
  simpa [State.seqCycle] using (foldl_write_same inp h s).trans (edges_disturb_same r s _ Glitch.none)

/-- The chain of a pin that stays does not move (R106, R107). -/
theorem seqCycle_drivenSame {inp : Input} {s : State} {m : Micro} {r : Register}
    (h : r.Same s (State.seqCycle inp s m)) : r.DrivenSame s (State.seqCycle inp s m) := by
  have hkept := foldl_write_keeps inp m s
  cases r with
  | clk ch => cases ch <;> simp_all [Register.Same, Register.DrivenSame, State.seqCycle]
  | lat => simp_all [Register.Same, Register.DrivenSame, State.seqCycle]
  | _ => trivial

/-- A register that a run of cycles does not write keeps its value, and what its pin drives stays. -/
theorem seqRun_keeps_unwritten {ms : List Micro} {r : Register} (h : AllWrites (fun w => w.register ≠ some r) ms)
    (s : State) (n : Nat) : r.Same s (s.seqRun ms n) ∧ r.DrivenSame s (s.seqRun ms n) := by
  induction ms generalizing s n with
  | nil => exact ⟨.refl r s, .refl r s⟩
  | cons m ms ih =>
    obtain ⟨hm, hms⟩ := (allWrites_cons m ms).mp h
    have hfirst := seqCycle_same (s.inputAt n) hm s
    obtain ⟨hrest, hdriven⟩ := ih hms (State.seqCycle (s.inputAt n) s m) (n + 1)
    exact ⟨hfirst.trans hrest, (seqCycle_drivenSame hfirst).trans hdriven⟩

theorem allWrites_take {P : Write → Prop} {ms : List Micro} (h : AllWrites P ms) (k : Nat) :
    AllWrites P (ms.take k) :=
  fun m hm => h m (List.mem_of_mem_take hm)

/-! ## REFRESH up to the cycle that enables the rows -/

/-- The dark part of a refresh up to the latch strobe: the output enable low, then the column write (R143). -/
def columnCycles (p : Params) (b : Byte) : List Micro := setOeCycles false ++ columnWrite p.tPhase p.colMsbFirst b

/-- The part after it: the latch strobe, then the output enable high (R143). -/
def showCycles (p : Params) : List Micro := latchStrobe p.tPhase ++ setOeCycles true

/-- A refresh from its first cycle to the one that enables the rows. -/
def displayCycles (p : Params) (b : Byte) : List Micro := columnCycles p b ++ showCycles p

theorem length_columnCycles {p : Params} (ht : 1 ≤ p.tPhase) (b : Byte) :
    (columnCycles p b).length = 1 + 24 * p.tPhase := by
  simp [columnCycles, setOeCycles, length_columnWrite ht, Nat.add_comm]

theorem length_showCycles {p : Params} (ht : 1 ≤ p.tPhase) : (showCycles p).length = 2 * p.tPhase + 1 := by
  simp [showCycles, setOeCycles, length_latchStrobe ht]

theorem length_displayCycles {p : Params} (ht : 1 ≤ p.tPhase) (b : Byte) :
    (displayCycles p b).length = 2 + 26 * p.tPhase := by
  rw [displayCycles, List.length_append, length_columnCycles ht, length_showCycles ht]
  omega

theorem displayCycles_eq (p : Params) (b : Byte) :
    displayCycles p b =
      [.oe false] :: (columnWrite p.tPhase p.colMsbFirst b ++ latchStrobe p.tPhase) ++ setOeCycles true := by
  simp [displayCycles, columnCycles, showCycles, setOeCycles]

theorem take_refreshCycles {p : Params} (ht : 1 ≤ p.tPhase) (q : BitVec 3) (b : Byte) {n : Nat}
    (hn : n ≤ 2 + 26 * p.tPhase) : (refreshCycles p q b).take n = (displayCycles p b).take n := by
  have hparts : refreshCycles p q b = displayCycles p b ++ rowAdvance p.tPhase q := by
    simp [refreshCycles, displayCycles, columnCycles, showCycles]
  rw [hparts, List.take_append_of_le_length (hn.trans_eq (length_displayCycles ht b).symm)]

theorem allWrites_columnCycles {P : Write → Prop} (hoe : P (.oe false)) (hpins : AllPinWrites P .ledc) (p : Params)
    (b : Byte) : AllWrites P (columnCycles p b) :=
  (allWrites_append _ _).mpr ⟨(allWrites_setOe false).mpr hoe, allWrites_columnWrite hpins _ _ _⟩

theorem allWrites_showCycles {P : Write → Prop} (hlat : ∀ v, P (.lat v)) (hoe : P (.oe true)) (p : Params) :
    AllWrites P (showCycles p) := by
  simp [showCycles, hlat, hoe]

/-- The latch takes the LED-row stages in the first cycle of the strobe, and holds them (R107). -/
theorem ledrLatch_seqRun_take_latchStrobe (t : Nat) {s : State} (hlow : s.ledrLat = false) {k : Nat} (hk : k ≠ 0)
    (n : Nat) : (s.seqRun ((latchStrobe t).take k) n).ledrLatch = s.ledr := by
  have hrise (inp : Input) : (State.seqCycle inp s [.lat true]).ledrLatch = s.ledr := by
    simp [State.seqCycle, State.write, rises, hlow]
  have hfall (inp : Input) (x : State) : (State.seqCycle inp x [.lat false]).ledrLatch = x.ledrLatch := by
    simp [State.seqCycle, State.write, rises]
  simp only [latchStrobe, List.take_append, seqRun_append, seqRun_take_phase, hk, if_false]
  split
  · exact hrise _
  · exact (hfall _ _).trans (hrise _)

theorem ledrLatch_seqRun_take_showCycles (p : Params) {s : State} (hlow : s.ledrLat = false) {k : Nat} (hk : k ≠ 0)
    (n : Nat) : (s.seqRun ((showCycles p).take k) n).ledrLatch = s.ledr := by
  have hw : AllWrites (fun w => w.register ≠ some .lat) (setOeCycles true) := by simp
  rw [showCycles, List.take_append, seqRun_append]
  have hstrobe := ledrLatch_seqRun_take_latchStrobe p.tPhase hlow hk n
  exact Eq.trans (seqRun_keeps_unwritten (allWrites_take hw _) _ _).2 hstrobe

section

variable {p : Params} (ht : 1 ≤ p.tPhase) (b : Byte) (s : State) (c : Nat) {n : Nat}

theorem seqRun_columnCycles (p : Params) : s.seqRun (columnCycles p b) c =
    { s with ledrOe := false, ledc := if p.colMsbFirst then b else b.reverse,
             ledcLine := ⟨colBit p.colMsbFirst b 7, true⟩ } := by
  rw [columnCycles, seqRun_append, seqRun_setOe, seqRun_columnWrite]

/-- No cycle of `displayCycles` clocks the LED-row chain. -/
theorem ledr_display (p : Params) (n : Nat) : (s.seqRun ((displayCycles p b).take n) c).ledr = s.ledr := by
  have hw : AllWrites (fun w => w.register ≠ some (.clk .ledr)) (displayCycles p b) :=
    (allWrites_append _ _).mpr
      ⟨allWrites_columnCycles (by simp) (by simp [AllPinWrites]) p b, allWrites_showCycles (by simp) (by simp) p⟩
  exact (seqRun_keeps_unwritten (allWrites_take hw n) s c).2

include ht

/-- The rows are dark from the first cycle until the strobe is over. -/
theorem ledrOe_display_dark (hn : 1 ≤ n) (hn' : n ≤ 1 + 26 * p.tPhase) :
    (s.seqRun ((displayCycles p b).take n) c).ledrOe = false := by
  obtain ⟨k, rfl⟩ : ∃ k, n = k + 1 := ⟨n - 1, by omega⟩
  have hk : k ≤ (columnWrite p.tPhase p.colMsbFirst b ++ latchStrobe p.tPhase).length := by
    rw [List.length_append, length_columnWrite ht, length_latchStrobe ht]
    omega
  rw [displayCycles_eq, List.cons_append, List.take_succ_cons, List.take_append_of_le_length hk]
  have hw : AllWrites (fun w => w.register ≠ some .oe)
      (columnWrite p.tPhase p.colMsbFirst b ++ latchStrobe p.tPhase) :=
    (allWrites_append _ _).mpr ⟨allWrites_columnWrite (by simp [AllPinWrites]) _ _ _, by simp⟩
  have hfirst : (State.seqCycle (s.inputAt c) s [.oe false]).ledrOe = false := by simp [State.seqCycle, State.write]
  exact Eq.trans (seqRun_keeps_unwritten (allWrites_take hw k) _ (c + 1)).1 hfirst

/-- The rows are enabled in the cycle after the strobe. -/
theorem ledrOe_display_shown (hn : n = 2 + 26 * p.tPhase) :
    (s.seqRun ((displayCycles p b).take n) c).ledrOe = true := by
  rw [List.take_of_length_le ((length_displayCycles ht b).trans_le hn.ge), displayCycles_eq, seqRun_append, seqRun_setOe]

/-- The column byte stands in its chain before the strobe, and stays. -/
theorem ledc_display (hn : 1 + 24 * p.tPhase ≤ n) :
    (s.seqRun ((displayCycles p b).take n) c).ledc = if p.colMsbFirst then b else b.reverse := by
  have hw : AllWrites (fun w => w.register ≠ some (.clk .ledc)) (showCycles p) :=
    allWrites_showCycles (by simp) (by simp) p
  obtain ⟨k, rfl⟩ := Nat.exists_eq_add_of_le ((length_columnCycles ht b).trans_le hn)
  rw [displayCycles, List.take_length_add_append, seqRun_append, seqRun_columnCycles]
  exact (seqRun_keeps_unwritten (allWrites_take hw _) _ _).2

/-- The latch holds before the strobe. -/
theorem ledrLatch_display_before (hn : n ≤ 1 + 24 * p.tPhase) :
    (s.seqRun ((displayCycles p b).take n) c).ledrLatch = s.ledrLatch := by
  have hw : AllWrites (fun w => w.register ≠ some .lat) (columnCycles p b) :=
    allWrites_columnCycles (by simp) (by simp [AllPinWrites]) p b
  rw [displayCycles, List.take_append_of_le_length (hn.trans_eq (length_columnCycles ht b).symm)]
  exact (seqRun_keeps_unwritten (allWrites_take hw n) s c).2

/-- From the first cycle of the strobe on the latch holds the LED-row stages. -/
theorem ledrLatch_display_after (hlow : s.ledrLat = false) (hn : 2 + 24 * p.tPhase ≤ n) :
    (s.seqRun ((displayCycles p b).take n) c).ledrLatch = s.ledr := by
  have hlen := length_columnCycles ht b
  obtain ⟨k, rfl⟩ : ∃ k, n = (columnCycles p b).length + k := Nat.exists_eq_add_of_le (by omega)
  have hk : k ≠ 0 := by omega
  have hbefore : (s.seqRun (columnCycles p b) c).ledrLat = false := by rw [seqRun_columnCycles]; exact hlow
  rw [displayCycles, List.take_length_add_append, seqRun_append, ledrLatch_seqRun_take_showCycles p hbefore hk,
    seqRun_columnCycles]

end

/-- Settles O32: up to the cycle that enables the rows, a refresh is `displayCycles`, and what goes by beside the sequencer
touches none of what R237 names. -/
theorem refreshKeepsTheDisplayOrder : Obligations.RefreshKeepsTheDisplayOrder := by
  intro s q b n hp hlow hc hn
  have ht := hp.tPhase_pos
  have hlen : ((refreshCycles s.params q b).take n).length ≤ 2 + 26 * s.params.tPhase :=
    (List.length_take_le _ _).trans hn
  have hplain : ∀ m ∈ (refreshCycles s.params q b).take n, Plain m :=
    fun m hm => plain_refreshCycles _ _ _ m (List.mem_of_mem_take hm)
  rw [run_split hplain (calm_mono hc hlen), take_refreshCycles ht q b hn]
  exact ⟨ledrOe_display_dark ht b s _, ledrOe_display_shown ht b s _, ledc_display ht b s _,
    ledrLatch_display_before ht b s _, ledrLatch_display_after ht b s _ hlow, ledr_display b s _ _ n⟩

end Sys2Proof.Machine
end

section
/-! SUPPORT. The deadline of a scan cycle (70_reset_and_hazards.md R243, 43_scheduler.md R174): the loop of the
microprogram step by step, and the tick flag against the number of cycles gone by. -/

namespace Sys2Proof.Machine

/-! ## The tick flag after a fresh tick -/

/-- The timer is `n` cycles on from a period's start, and the flag, clear at the start, is set if a period is over. -/
structure TickAt (p : Params) (n : Nat) (t : State) : Prop where
  timer : TimerAt p n t
  tickFlag : t.tickFlag = true ↔ p.tickPeriod ≤ n

theorem timerStart_not_mem_of_plain {m : Micro} (h : Plain m) : Write.timerStart ∉ m := fun hm =>
  absurd ((List.any_eq_true.mpr ⟨_, hm, rfl⟩).symm.trans h) (by decide)

/-- The period is over with a cycle exactly when it was over before, or the timer overflows in it. -/
theorem tickPeriod_le_succ_iff {p : Params} (hp : p.Legal) {n : Nat} {t : State} (h : TimerAt p n t) :
    p.tickPeriod ≤ n + 1 ↔ t.ovf = true ∨ p.tickPeriod ≤ n := by
  rw [h.ovf_iff hp]
  change p.tickPeriod ≤ n + 1 ↔ p.tickPeriod ∣ n + 1 ∨ p.tickPeriod ≤ n
  constructor
  · intro hle
    rcases Nat.lt_or_eq_of_le hle with hlt | heq
    · exact .inr (Nat.le_of_lt_succ hlt)
    · exact .inl (dvd_of_eq heq)
  · rintro (hdvd | hle)
    · exact Nat.le_of_dvd n.succ_pos hdvd
    · exact Nat.le_succ_of_le hle

theorem TickAt.cycle {p : Params} (hp : p.Legal) {n : Nat} {t : State} (h : TickAt p n t) {m : Micro} (hm : Plain m) :
    TickAt p (n + 1) (t.cycle m) := by
  refine ⟨h.timer.cycle hp (timerStart_not_mem_of_plain hm), ?_⟩
  rw [cycle_tickFlag, show m.any Write.clears = false from hm, tickPeriod_le_succ_iff hp h.timer, ← h.tickFlag]
  simp [tickNext]

theorem TickAt.cycles {p : Params} (hp : p.Legal) {ms : List Micro} (hms : ∀ m ∈ ms, Plain m) {n : Nat} {t : State}
    (h : TickAt p n t) : TickAt p (n + ms.length) (t.cycles ms) := by
  induction ms generalizing n t with
  | nil => exact h
  | cons m ms ih =>
    have hrest := ih (fun m' hm => hms m' (by simp [hm])) (h.cycle hp (hms m (by simp)))
    rwa [Nat.add_assoc, Nat.add_comm 1] at hrest

/-! ## A calm step of the ROM -/

/-- The step from `t` to `u` is the operation `i` of the ROM, with the cycles `ms`, all of them calm. -/
structure CalmStep (i : Instr) (ms : List Micro) (t u : State) : Prop where
  step : step t = .next u
  exec : exec i t = .next u
  later : Later ms.length t u
  rom : RomLater t u
  noReset : t.NoReset (u.now - t.now)
  cycles : u = t.opStart.cycles ms

variable {i : Instr} {ms : List Micro} {s t u : State}

theorem calmStep_of_cyclesOf (hinv : t.Inv) (hrom : t.source = .rom) (hop : romOp t.upc = some i)
    (hms : cyclesOf i t = .next ms) (hc : t.Calm ms.length) : ∃ u, CalmStep i ms t u := by
  have hr : t.input.rstN = true := (hc 0 (List.length_pos_of_ne_nil (cyclesOf_ne_nil hms))).1
  have hexec : exec i t = .next (t.perform ms) := exec_next_iff.mpr ⟨ms, hms, rfl⟩
  have hstep : Machine.step t = .next (t.perform ms) :=
    (step_eq_exec hr hinv.atStart ((currentOp_of_rom hrom).trans hop)).trans hexec
  have hreset := noReset_of_calm hms hc hexec
  exact ⟨_, hstep, hexec, exec_later hms hc hexec, step_romLater hinv hrom hstep, hreset, perform_of_noReset hreset⟩

theorem CalmStep.upc_of_wait (h : CalmStep i ms t u) (hwait : Waits i t) : u.upc = t.upc :=
  ((exec_word h.exec h.noReset).1 hwait).1

theorem CalmStep.upc_of_go (h : CalmStep i ms t u) (hrom : t.source = .rom) (hgo : ¬Waits i t) :
    u.upc = if i = .check then (if t.tickFlag then 7 else 2) else romNext t.upc := by
  rw [((exec_word h.exec h.noReset).2 hgo).2, (retire_sets t).1, if_pos hrom]

theorem cyclesOf_of_waits (h : Waits i t) : cyclesOf i t = .next pollCycle := by
  rcases h with ⟨rfl, htick⟩ | ⟨rfl, hbusy⟩ | ⟨rfl, hready⟩
  · exact cyclesOf_waittick_of_noTick htick
  · exact cyclesOf_scan_of_busy hbusy
  · exact cyclesOf_handoff_of_notReady hready

/-! ## The loop of the microprogram, from a fresh tick -/

/-- `t` is `k` steps and `n` clk cycles after `s`, in the ROM at address `a`, where `s` starts a period. -/
structure LoopAt (s : State) (k n : Nat) (a : BitVec 4) (t : State) : Prop where
  run : runSteps k s = .next t
  later : Later n s t
  inv : t.Inv
  source : t.source = .rom
  upc : t.upc = a
  tick : TickAt s.params n t

variable {k n : Nat} {a b : BitVec 4}

theorem LoopAt.input (h : LoopAt s k n a t) : t.input = s.inputAt (s.now + n) := by
  rw [State.input, inputAt_congr h.later.plan, h.later.now]

theorem LoopAt.calmStep (h : LoopAt s k n a t) (hop : romOp a = some i) (hms : cyclesOf i t = .next ms)
    (hc : s.Calm (n + ms.length)) : ∃ u, CalmStep i ms t u :=
  calmStep_of_cyclesOf h.inv h.source (h.upc.symm ▸ hop) hms (h.later.calm hc)

theorem LoopAt.succ (h : LoopAt s k n a t) (hu : CalmStep i ms t u) (hplain : ∀ m ∈ ms, Plain m)
    (hupc : u.upc = b) : LoopAt s (k + 1) (n + ms.length) b u where
  run := (runSteps_succ h.run).trans hu.step
  later := h.later.trans hu.later
  inv := hu.rom.inv
  source := hu.rom.source
  upc := hupc
  tick := by
    have hstart : TickAt s.params n t.opStart := ⟨{ h.tick.timer with }, h.tick.tickFlag⟩
    rw [hu.cycles]
    exact hstart.cycles (h.later.params ▸ h.inv.params) hplain

/-- An operation that does not wait goes on to its successor. -/
theorem LoopAt.go (h : LoopAt s k n a t) (hop : romOp a = some i) (hi : i ≠ .check) (hgo : ¬Waits i t)
    (hms : cyclesOf i t = .next ms) (hplain : ∀ m ∈ ms, Plain m) (hc : s.Calm (n + ms.length))
    (hb : romNext a = b) : ∃ u, LoopAt s (k + 1) (n + ms.length) b u := by
  obtain ⟨u, hu⟩ := h.calmStep hop hms hc
  refine ⟨u, h.succ hu hplain ?_⟩
  rw [hu.upc_of_go h.source hgo, if_neg hi, h.upc, hb]

/-- A wait that goes on for `w` cycles is `w` steps of one cycle (R12, R241). -/
theorem LoopAt.polls (h : LoopAt s k n a t) (hop : romOp a = some i) {w : Nat} (hc : s.Calm (n + w))
    (hwait : ∀ j < w, ∀ u, LoopAt s (k + j) (n + j) a u → Waits i u) : ∃ u, LoopAt s (k + w) (n + w) a u := by
  induction w with
  | zero => exact ⟨t, h⟩
  | succ w ih =>
    obtain ⟨u, hu⟩ := ih (calm_mono hc (by omega)) fun j hj => hwait j (by omega)
    have hw := hwait w w.lt_succ_self u hu
    obtain ⟨v, hv⟩ := hu.calmStep hop (cyclesOf_of_waits hw) hc
    exact ⟨v, hu.succ hv (by simp [pollCycle, Plain]) ((hv.upc_of_wait hw).trans hu.upc)⟩

/-! ## The operations of a scan cycle -/

/-- WAITTICK consumes the fresh tick, and a new period has begun (R173, R203). -/
theorem loopAt_waittick (hs : s.Inv) (hrom : s.source = .rom) (hupc : s.upc = 2) (htick : s.tickFlag = true)
    (htimer : TimerAt s.params 0 s) (hc : s.Calm 1) : ∃ t, LoopAt s 1 1 3 t ∧ t.curRow = s.curRow := by
  obtain ⟨t, ht⟩ := calmStep_of_cyclesOf hs hrom (hupc ▸ rfl) (cyclesOf_waittick_of_tick htick) hc
  have hgo : ¬Waits .waittick s := by simp [Waits, htick]
  have hstart : TimerAt s.params 0 s.opStart := { htimer with }
  have hpos : 0 < s.params.tickPeriod := Nat.mul_pos hs.params.prescaler_pos (Nat.succ_pos _)
  refine ⟨t, ⟨?run, ht.later, ht.rom.inv, ht.rom.source, ?upc, ?timer, ?flag⟩, ?row⟩
  case run => exact (runSteps_succ (n := 0) rfl).trans ht.step
  case upc => rw [ht.upc_of_go hrom hgo, hupc]; rfl
  case timer =>
    rw [ht.cycles]
    exact hstart.cycle hs.params (by simp)
  case flag =>
    rw [ht.cycles, cycles_cons, cycles_nil, cycle_tickFlag, tickPeriod_le_succ_iff hs.params hstart]
    simp [tickNext, Write.clears, hpos.ne']
  case row => exact exec_same (r := .curRow) ht.exec ht.noReset (by simp)

theorem LoopAt.refresh (h : LoopAt s k n 3 t) (hrow : t.curRow = s.curRow)
    (hc : s.Calm (n + ((if s.curRow = 5 then 3 else 2) + 29 * s.params.tPhase))) :
    ∃ u, LoopAt s (k + 1) (n + ((if s.curRow = 5 then 3 else 2) + 29 * s.params.tPhase)) 4 u := by
  have hms := cyclesOf_refresh h.inv.curRow
  have hlen := (length_whole (refreshCycles_ne_nil t.params t.curRow (t.memRead .leds t.curRow.toNat))).trans
    (length_refreshCycles h.inv.params.tPhase_pos _ _)
  rw [hrow, h.later.params] at hms hlen
  rw [← hlen] at hc ⊢
  exact h.go (i := .refresh) rfl (by simp) (by simp [Waits]) hms (plain_whole (plain_refreshCycles _ _ _)) hc rfl

/-- SCAN, with `w` cycles of waiting on `tx_busy` (R141). -/
theorem LoopAt.scan (h : LoopAt s k n 4 t) {w : Nat}
    (hc : s.Calm (n + w + (17 + 15 * s.params.settle + 48 * s.params.tPhase)))
    (hbusy : ∀ j < w, (s.inputAt (s.now + (n + j))).txBusy = true)
    (hfree : (s.inputAt (s.now + (n + w))).txBusy = false) :
    ∃ u, LoopAt s (k + w + 1) (n + w + (17 + 15 * s.params.settle + 48 * s.params.tPhase)) 5 u := by
  obtain ⟨v, hv⟩ := h.polls (i := .scan) rfl (calm_mono hc (Nat.le_add_right _ _))
    fun j hj u hu => .inr (.inl ⟨rfl, hu.input ▸ hbusy j hj⟩)
  have hfree' : v.input.txBusy = false := hv.input ▸ hfree
  have hms := cyclesOf_scan_of_idle hfree'
  have hlen := (length_whole (scanCycles_ne_nil v.params)).trans (length_scanCycles hv.inv.params.tPhase_pos)
  rw [hv.later.params] at hms hlen
  rw [← hlen] at hc ⊢
  exact hv.go (i := .scan) rfl (by simp) (by simp [Waits, hfree']) hms (plain_whole (plain_scanCycles _)) hc rfl

/-- HANDOFF, with `w` cycles before the ready one (R145). -/
theorem LoopAt.handoff (h : LoopAt s k n 5 t) {w : Nat} (hc : s.Calm (n + w + 1))
    (hwait : ∀ j < w, (s.inputAt (s.now + (n + j))).txReady = false)
    (hready : (s.inputAt (s.now + (n + w))).txReady = true) : ∃ u, LoopAt s (k + w + 1) (n + w + 1) 6 u := by
  obtain ⟨v, hv⟩ := h.polls (i := .handoff) rfl (calm_mono hc (Nat.le_add_right _ _))
    fun j hj u hu => .inr (.inr ⟨rfl, hu.input ▸ hwait j hj⟩)
  have hready' : v.input.txReady = true := hv.input ▸ hready
  exact hv.go (i := .handoff) rfl (by simp) (by simp [Waits, hready']) (cyclesOf_handoff_of_ready hready')
    (plain_whole (plain_idle 1)) hc rfl

/-- CHECK misses exactly when a period is over before its cycle; the mode follows the address (R174, R212). -/
theorem LoopAt.check (h : LoopAt s k n 6 t) (hc : s.Calm (n + 1)) :
    ∃ u, runSteps (k + 1) s = .next u ∧ u.now = s.now + (n + 1) ∧
      (u.mode = .fallback ↔ s.params.tickPeriod ≤ n) ∧ u.upc = if s.params.tickPeriod ≤ n then 7 else 2 := by
  obtain ⟨ms, hms, hlen⟩ : ∃ ms, cyclesOf .check t = .next ms ∧ ms.length = 1 := ⟨_, rfl, by split <;> rfl⟩
  obtain ⟨u, hu⟩ := h.calmStep (i := .check) rfl hms (hlen.symm ▸ hc)
  have hupc := hu.upc_of_go h.source (by simp [Waits])
  rw [if_pos rfl] at hupc
  simp only [h.tick.tickFlag] at hupc
  refine ⟨u, (runSteps_succ h.run).trans hu.step, hlen ▸ (h.later.trans hu.later).now, ?_, hupc⟩
  rw [hu.rom.inv.modeOfAddress hu.rom.source, hupc]
  split
  · next hover => exact iff_of_true (by decide) hover
  · next hover => exact iff_of_false (by decide) hover

/-- Settles O60: the five operations of the loop one after another; the tick flag at CHECK, `L - 1` cycles after the
consumed tick, is set if a period is over by then (`TickAt`). -/
theorem deadlineMissExactlyWhenTooLong : Obligations.DeadlineMissExactlyWhenTooLong := by
  intro s w h L hs hrom hupc htick hen hpre htmr hpos hL hc hbusy hfree hwait hready
  obtain ⟨t₁, h₁, hrow⟩ := loopAt_waittick hs hrom hupc htick ⟨rfl, hen, by simp [hpre], by simp [htmr]⟩
    (calm_mono hc (by omega))
  have hrefresh := h₁.refresh hrow
  have hlength : (if s.curRow = 5 then 3 else 2) = 2 + if s.curRow = 5 then 1 else 0 := by split <;> rfl
  rw [hlength] at hrefresh hbusy hfree
  generalize (if s.curRow = 5 then 1 else 0) = c at hL hrefresh hbusy hfree
  obtain ⟨t₂, h₂⟩ := hrefresh (calm_mono hc (by omega))
  have hscan (j : Nat) : s.now + (1 + (2 + c + 29 * s.params.tPhase) + j) =
      s.now + 1 + (2 + c) + 29 * s.params.tPhase + j := by omega
  obtain ⟨t₃, h₃⟩ := h₂.scan (w := w) (calm_mono hc (by omega)) (fun j hj => hscan j ▸ hbusy j hj)
    (hscan w ▸ hfree)
  have hhandoff {j : Nat} (hj : j < h) : s.now + (1 + (2 + c + 29 * s.params.tPhase) + w +
      (17 + 15 * s.params.settle + 48 * s.params.tPhase) + j) = s.now + L - 1 - (h - j) := by omega
  have hlast : s.now + L - 1 - (h - (h - 1)) = s.now + L - 2 := by omega
  obtain ⟨t₄, h₄⟩ := h₃.handoff (w := h - 1) (calm_mono hc (by omega))
    (fun j hj => hhandoff (j := j) (by omega) ▸ hwait (h - j) (by omega) (by omega))
    (hhandoff (j := h - 1) (by omega) ▸ hlast ▸ hready)
  obtain ⟨t, hrun, hnow, hmode, hupc'⟩ := h₄.check (calm_mono hc (by omega))
  have hmiss : s.params.tickPeriod ≤ 1 + (2 + c + 29 * s.params.tPhase) + w +
      (17 + 15 * s.params.settle + 48 * s.params.tPhase) + (h - 1) + 1 ↔ s.params.tickPeriod < L := by omega
  have hsteps : 1 + 1 + w + 1 + (h - 1) + 1 + 1 = 4 + w + h := by omega
  simp only [hmiss] at hmode hupc'
  exact ⟨t, hsteps ▸ hrun, hnow.trans (by omega), hmode, hupc'⟩

end Sys2Proof.Machine
end

section
/-! What a chain holds after a cycle, as a number: R106's shift is `((chain << 1) | d) mod 2^N`. -/

namespace Sys2Proof.Machine

/-- R106's formula for the shift, in numbers. -/
theorem toNat_shiftIn {n : Nat} (x : BitVec n) (v : Bool) :
    (shiftIn x v).toNat = (2 * x.toNat + v.toNat) % 2 ^ n := by
  have hconcat : shiftIn x v = (x.concat v).setWidth n := by
    apply BitVec.eq_of_getLsbD_eq
    intro i hi
    rw [shiftIn_stage, BitVec.getLsbD_setWidth, BitVec.getLsbD_concat]
  rw [hconcat, BitVec.toNat_setWidth, BitVec.toNat_concat, Nat.mul_comm]

/-- A chain that shifts on an edge and holds otherwise, in numbers. -/
theorem toNat_shift_on_edge {n : Nat} {edge : Bool} {x y : BitVec n} {v : Bool}
    (h : y = if edge then shiftIn x v else x) :
    y.toNat = if edge then (2 * x.toNat + v.toNat) % 2 ^ n else x.toNat := by
  rw [h, apply_ite BitVec.toNat, toNat_shiftIn]

/-- Settles O18: `cycle_chains` says it of the stages, whatever the sequencer writes; `toNat_shiftIn` turns the shift into
R106's number. -/
theorem chainsShiftOnTheirRisingEdgesOnly : Obligations.ChainsShiftOnTheirRisingEdgesOnly := by
  intro s m hquiet
  obtain ⟨hswr, hledr, hledc, hlatch⟩ := cycle_chains hquiet m
  exact ⟨toNat_shift_on_edge hswr, toNat_shift_on_edge hledr, toNat_shift_on_edge hledc, hlatch⟩

end Sys2Proof.Machine
end
